-- ==== Sys2Proof/Word.lean ====
section
/-! DEFINITION. The widths of the machine's words (spec/00_scope.md R6; spec/10_state.md R21, R50). -/

namespace Sys2Proof

/-- A 32-bit word: every register, every address and every instruction (R6, R80; the spec's decision D1). -/
abbrev Word := BitVec 32

/-- One byte of memory (R50). -/
abbrev Byte := BitVec 8

/-- The number of a general register, `r0` to `r31` (R85(d)). -/
abbrev RegIdx := BitVec 5

end Sys2Proof
end

