-- ==== Sys2Proof/Syntax.lean ====
section
/-! DEFINITION. The 76 recognised instructions (spec/30_encoding.md R87, R88; spec/opcode_table.json): their names
(`Opcode`) and the instructions with their operands (`Instr`). Operands stand in the order of the assembler
syntax (R97): the destination first. A field that the format check fixes (R91) is no operand. -/

namespace Sys2Proof

/-- The name of an instruction: the row of the opcode table that a word matches (R90, R122). `brk` is the
table's `break`, whose name Lean keeps for itself. -/
inductive Opcode where
  | call | jmpi | ldbu | stb | ldb | ldhu | sth | ldh | stw | ldw | ldbuio | stbio | ldbio | ldhuio
  | sthio | ldhio | stwio | ldwio | addi | andi | ori | xori | andhi | orhi | xorhi | cmpeqi
  | cmpnei | cmpgei | cmplti | cmpgeui | cmpltui | muli | br | beq | bne | bge | bgeu | blt | bltu
  | add | sub | and | or | xor | nor | cmpeq | cmpne | cmpge | cmpgeu | cmplt | cmpltu | sll | srl
  | sra | rol | ror | mul | mulxss | mulxsu | mulxuu | div | divu | slli | srli | srai | roli | jmp
  | callr | ret | nextpc | brk | trap | eret | bret | rdctl | wrctl
deriving DecidableEq, Repr

/-- The instructions: one constructor for each row of spec/opcode_table.json, in the table's order. -/
inductive Instr where
  /-- `call label` (R238). -/
  | call (imm26 : BitVec 26)
  /-- `jmpi label` (R239). -/
  | jmpi (imm26 : BitVec 26)
  /-- `ldbu rB, IMM16(rA)` (R215). -/
  | ldbu (b a : RegIdx) (imm16 : BitVec 16)
  /-- `stb rB, IMM16(rA)` (R219). -/
  | stb (b a : RegIdx) (imm16 : BitVec 16)
  /-- `ldb rB, IMM16(rA)` (R214). -/
  | ldb (b a : RegIdx) (imm16 : BitVec 16)
  /-- `ldhu rB, IMM16(rA)` (R217). -/
  | ldhu (b a : RegIdx) (imm16 : BitVec 16)
  /-- `sth rB, IMM16(rA)` (R220). -/
  | sth (b a : RegIdx) (imm16 : BitVec 16)
  /-- `ldh rB, IMM16(rA)` (R216). -/
  | ldh (b a : RegIdx) (imm16 : BitVec 16)
  /-- `stw rB, IMM16(rA)` (R221). -/
  | stw (b a : RegIdx) (imm16 : BitVec 16)
  /-- `ldw rB, IMM16(rA)` (R218). -/
  | ldw (b a : RegIdx) (imm16 : BitVec 16)
  /-- `ldbuio rB, IMM16(rA)` (R223). -/
  | ldbuio (b a : RegIdx) (imm16 : BitVec 16)
  /-- `stbio rB, IMM16(rA)` (R227). -/
  | stbio (b a : RegIdx) (imm16 : BitVec 16)
  /-- `ldbio rB, IMM16(rA)` (R222). -/
  | ldbio (b a : RegIdx) (imm16 : BitVec 16)
  /-- `ldhuio rB, IMM16(rA)` (R225). -/
  | ldhuio (b a : RegIdx) (imm16 : BitVec 16)
  /-- `sthio rB, IMM16(rA)` (R228). -/
  | sthio (b a : RegIdx) (imm16 : BitVec 16)
  /-- `ldhio rB, IMM16(rA)` (R224). -/
  | ldhio (b a : RegIdx) (imm16 : BitVec 16)
  /-- `stwio rB, IMM16(rA)` (R229). -/
  | stwio (b a : RegIdx) (imm16 : BitVec 16)
  /-- `ldwio rB, IMM16(rA)` (R226). -/
  | ldwio (b a : RegIdx) (imm16 : BitVec 16)
  /-- `addi rB, rA, IMM16` (R191). -/
  | addi (b a : RegIdx) (imm16 : BitVec 16)
  /-- `andi rB, rA, IMM16` (R192). -/
  | andi (b a : RegIdx) (imm16 : BitVec 16)
  /-- `ori rB, rA, IMM16` (R193). -/
  | ori (b a : RegIdx) (imm16 : BitVec 16)
  /-- `xori rB, rA, IMM16` (R194). -/
  | xori (b a : RegIdx) (imm16 : BitVec 16)
  /-- `andhi rB, rA, IMM16` (R195). -/
  | andhi (b a : RegIdx) (imm16 : BitVec 16)
  /-- `orhi rB, rA, IMM16` (R196). -/
  | orhi (b a : RegIdx) (imm16 : BitVec 16)
  /-- `xorhi rB, rA, IMM16` (R197). -/
  | xorhi (b a : RegIdx) (imm16 : BitVec 16)
  /-- `cmpeqi rB, rA, IMM16` (R198). -/
  | cmpeqi (b a : RegIdx) (imm16 : BitVec 16)
  /-- `cmpnei rB, rA, IMM16` (R199). -/
  | cmpnei (b a : RegIdx) (imm16 : BitVec 16)
  /-- `cmpgei rB, rA, IMM16` (R200). -/
  | cmpgei (b a : RegIdx) (imm16 : BitVec 16)
  /-- `cmplti rB, rA, IMM16` (R201). -/
  | cmplti (b a : RegIdx) (imm16 : BitVec 16)
  /-- `cmpgeui rB, rA, IMM16` (R202). -/
  | cmpgeui (b a : RegIdx) (imm16 : BitVec 16)
  /-- `cmpltui rB, rA, IMM16` (R203). -/
  | cmpltui (b a : RegIdx) (imm16 : BitVec 16)
  /-- `muli rB, rA, IMM16` (R182). -/
  | muli (b a : RegIdx) (imm16 : BitVec 16)
  /-- `br label` (R231). -/
  | br (imm16 : BitVec 16)
  /-- `beq rA, rB, label` (R232). -/
  | beq (a b : RegIdx) (imm16 : BitVec 16)
  /-- `bne rA, rB, label` (R233). -/
  | bne (a b : RegIdx) (imm16 : BitVec 16)
  /-- `bge rA, rB, label` (R234). -/
  | bge (a b : RegIdx) (imm16 : BitVec 16)
  /-- `bgeu rA, rB, label` (R235). -/
  | bgeu (a b : RegIdx) (imm16 : BitVec 16)
  /-- `blt rA, rB, label` (R236). -/
  | blt (a b : RegIdx) (imm16 : BitVec 16)
  /-- `bltu rA, rB, label` (R237). -/
  | bltu (a b : RegIdx) (imm16 : BitVec 16)
  /-- `add rC, rA, rB` (R151). -/
  | add (c a b : RegIdx)
  /-- `sub rC, rA, rB` (R152). -/
  | sub (c a b : RegIdx)
  /-- `and rC, rA, rB` (R153). -/
  | and (c a b : RegIdx)
  /-- `or rC, rA, rB` (R154). -/
  | or (c a b : RegIdx)
  /-- `xor rC, rA, rB` (R155). -/
  | xor (c a b : RegIdx)
  /-- `nor rC, rA, rB` (R156). -/
  | nor (c a b : RegIdx)
  /-- `cmpeq rC, rA, rB` (R157). -/
  | cmpeq (c a b : RegIdx)
  /-- `cmpne rC, rA, rB` (R158). -/
  | cmpne (c a b : RegIdx)
  /-- `cmpge rC, rA, rB` (R159). -/
  | cmpge (c a b : RegIdx)
  /-- `cmpgeu rC, rA, rB` (R160). -/
  | cmpgeu (c a b : RegIdx)
  /-- `cmplt rC, rA, rB` (R161). -/
  | cmplt (c a b : RegIdx)
  /-- `cmpltu rC, rA, rB` (R162). -/
  | cmpltu (c a b : RegIdx)
  /-- `sll rC, rA, rB` (R163). -/
  | sll (c a b : RegIdx)
  /-- `srl rC, rA, rB` (R165). -/
  | srl (c a b : RegIdx)
  /-- `sra rC, rA, rB` (R167). -/
  | sra (c a b : RegIdx)
  /-- `rol rC, rA, rB` (R169). -/
  | rol (c a b : RegIdx)
  /-- `ror rC, rA, rB` (R171). -/
  | ror (c a b : RegIdx)
  /-- `mul rC, rA, rB` (R181). -/
  | mul (c a b : RegIdx)
  /-- `mulxss rC, rA, rB` (R183). -/
  | mulxss (c a b : RegIdx)
  /-- `mulxsu rC, rA, rB` (R184). -/
  | mulxsu (c a b : RegIdx)
  /-- `mulxuu rC, rA, rB` (R185). -/
  | mulxuu (c a b : RegIdx)
  /-- `div rC, rA, rB` (R186). -/
  | div (c a b : RegIdx)
  /-- `divu rC, rA, rB` (R187). -/
  | divu (c a b : RegIdx)
  /-- `slli rC, rA, IMM5` (R164). -/
  | slli (c a : RegIdx) (imm5 : BitVec 5)
  /-- `srli rC, rA, IMM5` (R166). -/
  | srli (c a : RegIdx) (imm5 : BitVec 5)
  /-- `srai rC, rA, IMM5` (R168). -/
  | srai (c a : RegIdx) (imm5 : BitVec 5)
  /-- `roli rC, rA, IMM5` (R170). -/
  | roli (c a : RegIdx) (imm5 : BitVec 5)
  /-- `jmp rA` (R240). -/
  | jmp (a : RegIdx)
  /-- `callr rA` (R241). -/
  | callr (a : RegIdx)
  /-- `ret` (R242). -/
  | ret
  /-- `nextpc rC` (R243). -/
  | nextpc (c : RegIdx)
  /-- `break IMM5` (R251). -/
  | brk (imm5 : BitVec 5)
  /-- `trap IMM5` (R252). -/
  | trap (imm5 : BitVec 5)
  /-- `eret` (R254). -/
  | eret
  /-- `bret` (R255). -/
  | bret
  /-- `rdctl rC, ctlN` (R256). -/
  | rdctl (c : RegIdx) (n : BitVec 5)
  /-- `wrctl ctlN, rA` (R257). -/
  | wrctl (n : BitVec 5) (a : RegIdx)
deriving DecidableEq, Repr

end Sys2Proof
end

