-- ==== Sys2Proof/Config.lean ====
section
/-! DEFINITION. What an implementation fixes (spec/00_scope.md R5) and the free values. The record `Cfg` holds every
parameter of R5 that is not the same for every block, as plain data; the machine carries it in its state, no step
changes it (spec/10_state.md R32), and so a statement about every state is a statement about every configuration. -/

namespace Sys2Proof

/-- The two encodings of the instruction set (R1, R5 `VARIANT`). -/
inductive Variant where
  | base
  | dpx
deriving DecidableEq, Repr

/-- The five formats of a dpx word (spec/30_encoding.md R95; spec/90_conflicts.md C2: the list of five names wins). -/
inductive DpxFormat where
  /-- register-register -/
  | rr
  /-- 12-bit-immediate-branch -/
  | i12b
  /-- 12-bit-immediate-memory -/
  | i12m
  /-- 16-bit-immediate -/
  | i16
  /-- indexed-jump -/
  | jidx
deriving DecidableEq, Repr

/-- The accessors of a dpx word (spec/40_decoder.md R119; spec/90_conflicts.md C5). -/
inductive DpxField where
  | op | opx | a | b | c | imm12 | imm16 | imm20 | imm26 | ctlidx
deriving DecidableEq, Repr

/-- Bits `hi` down to `lo` of a word (R6): both lie inside the word (R119 `31 >= hi`, `lo >= 0`); `DpxLayout.valid` says
`hi >= lo`. -/
structure BitRange where
  hi : Fin 32
  lo : Fin 32
deriving DecidableEq, Repr

/-- Where one accessor reads (R119 `pos(f, k)`): the ranges to be concatenated, the first highest, and whether the value
is sign-extended. -/
structure DpxPos where
  ranges : List BitRange
  signed : Bool
deriving DecidableEq, Repr

/-- The places of one format: one for every accessor (R119: "for each format `f` and each accessor name `k`"). -/
structure DpxPlaces where
  op     : DpxPos
  opx    : DpxPos
  a      : DpxPos
  b      : DpxPos
  c      : DpxPos
  imm12  : DpxPos
  imm16  : DpxPos
  imm20  : DpxPos
  imm26  : DpxPos
  ctlidx : DpxPos
deriving DecidableEq, Repr

/-- `Cfg.DPX_LAYOUT`, OPEN (R119): the discriminator's place, the format of each of its values (`formats`, and
`otherFormat` for every value not listed, so that the map is total, R121), the place of every accessor in every
format, and the places of `pc` and of the control registers in the 129-entry register file, which the spec leaves
open with the layout (spec/10_state.md R30). DESIGN CHOICE of form: records in place of functions (logs 7, 8). -/
structure DpxLayout where
  disc        : BitRange
  formats     : List (Nat × DpxFormat)
  otherFormat : DpxFormat
  rr          : DpxPlaces
  i12b        : DpxPlaces
  i12m        : DpxPlaces
  i16         : DpxPlaces
  jidx        : DpxPlaces
  pcIndex     : Nat
  ctlBase     : Nat
deriving DecidableEq, Repr

/-- A row of `Cfg.DPX_OPTABLE` (spec/30_encoding.md R96: "rows of the same shape as opcode_table.json"). -/
structure DpxRow where
  mnemonic   : Opcode
  pattern    : Word
  mask       : Word
  legalMask  : Word
  legalMatch : Word
  operands   : List DpxField
deriving DecidableEq, Repr

/-- The configuration record (R5). -/
structure Cfg where
  /-- `VARIANT` -/
  variant       : Variant
  /-- `HAS_DIV`: `div` and `divu` are present (spec/43_multiply_divide.md R180). -/
  hasDiv        : Bool
  /-- `HAS_MUL`: `mul` and `muli` are present (R180). -/
  hasMul        : Bool
  /-- `HAS_MULX`: `mulxss`, `mulxsu` and `mulxuu` are present (R180). -/
  hasMulx       : Bool
  /-- `HAS_MMU`, carried and read by no rule (spec/20_memory.md R65). -/
  hasMmu        : Bool
  /-- `HAS_MPU`, carried and read by no rule (R65). -/
  hasMpu        : Bool
  /-- `RESET_ADDR`: where `pc` points after reset (spec/10_state.md R36). -/
  resetAddr     : Word
  /-- `EXCEPTION_ADDR`, carried and read by no rule (spec/60_exceptions.md R276). -/
  exceptionAddr : Word
  /-- `BREAK_ADDR`, carried and read by no rule (R276). -/
  breakAddr     : Word
  /-- `MAGIC_WRITE`: the immediate that selects the `write` syscall (spec/47_system.md R258). -/
  magicWrite    : BitVec 16
  /-- `CPUID`: what `cpuid` holds after reset (spec/10_state.md R29). -/
  cpuid         : Word
  /-- `DPX_LAYOUT` -/
  dpxLayout     : DpxLayout
  /-- `DPX_OPTABLE` -/
  dpxOptable    : List DpxRow
  /-- `DPX_REGMAP`, read by no rule (R5; spec/90_conflicts.md C3): the model only hands it to the free values of the
  dpx register file (log 8). -/
  dpxRegmap     : Nat
deriving DecidableEq, Repr

/-- `MAGIC_EXIT` (R5: 0x0010). -/
def Config.magicExit : BitVec 16 := 0x0010#16

/-- `NUM_CTL`, the control registers of the base variant (R5, spec/10_state.md R27). -/
def Config.numCtl : Nat := 16

/-- `NUM_REGS`, the entries of the register file (R5, spec/10_state.md R21, R30). -/
def Config.numRegs : Variant → Nat
  | .base => 49
  | .dpx  => 129

/-- The one constraint that R5 puts on a configuration: `MAGIC_WRITE` differs from `MAGIC_EXIT`. -/
abbrev Cfg.valid (c : Cfg) : Prop := c.magicWrite ≠ Config.magicExit

/-- The FREE VALUE of a byte that `add_memory` was given no initial byte for (spec/20_memory.md R53,
spec/93_implementation_defined.md U2: any value, fixed once the section exists): it depends on the section's stamp
and on the address. No body: nothing can be proved of it. Log 4. -/
opaque Config.freeByte (stamp addr : Nat) : BitVec 8

/-- The FREE VALUE that a host read of a dpx register-file entry gives (spec/10_state.md R30): the aliasing scheme that
`DPX_REGMAP` selects is in no source, and an extension register need not be plain storage, so the value may depend on
the whole file. No body. Log 8. -/
opaque Config.dpxRead (regmap index : Nat) (file : Vector (BitVec 32) 129) : BitVec 32

/-- The FREE VALUE of the whole dpx register file after a host write of one entry (R30), for the same reasons. No body.
Log 8. -/
opaque Config.dpxWrite (regmap index : Nat) (v : BitVec 32) (file : Vector (BitVec 32) 129) : Vector (BitVec 32) 129

/-- The places of every dpx format in `Config.illustrated`: each accessor reads bit 0. DESIGN CHOICE (log 3): nothing
reads them in the base variant. -/
def Config.illustratedPlaces : DpxPlaces :=
  let p : DpxPos := ⟨[⟨0, 0⟩], false⟩
  ⟨p, p, p, p, p, p, p, p, p, p⟩

/-- The configuration `State.reset` is given. DESIGN CHOICE (log 3): every field of it is OPEN in the spec; these
are the values that spec/95_test_vectors.md uses for illustration, and no statement rests on them. -/
def Config.illustrated : Cfg where
  variant       := .base
  hasDiv        := true
  hasMul        := true
  hasMulx       := true
  hasMmu        := false
  hasMpu        := false
  resetAddr     := 0x00001000#32
  exceptionAddr := 0#32
  breakAddr     := 0#32
  magicWrite    := 0x0011#16
  cpuid         := 0x0000002A#32
  dpxLayout     := 
    { disc := ⟨0, 0⟩, formats := [], otherFormat := .rr, rr := Config.illustratedPlaces
      i12b := Config.illustratedPlaces, i12m := Config.illustratedPlaces, i16 := Config.illustratedPlaces
      jidx := Config.illustratedPlaces, pcIndex := 32, ctlBase := 33 }
  dpxOptable    := []
  dpxRegmap     := 0

end Sys2Proof
end

