-- ==== Sys2Proof/WellFormed.lean ====
section
/-! DEFINITION. Which terms of `Instr` are instructions (spec/30_encoding.md R86, R91): the control-register index
of `rdctl` and `wrctl` names one of the 16 control registers. Every other operand field admits all its values. -/

namespace Sys2Proof

/-- A control-register index names a register: `N < NUM_CTL = 16` (R86; spec/10_state.md R27). -/
def ctlIndexOk (n : BitVec 5) : Bool := n.toNat < 16

/-- The check, instruction by instruction (R91: "IMM5 < 16" for `rdctl` and `wrctl`). -/
def Instr.wellFormed : Instr → Bool
  | .call _ | .jmpi _ | .ldbu _ _ _ | .stb _ _ _ | .ldb _ _ _ | .ldhu _ _ _ | .sth _ _ _ | .ldh _ _ _
  | .stw _ _ _ | .ldw _ _ _ | .ldbuio _ _ _ | .stbio _ _ _ | .ldbio _ _ _ | .ldhuio _ _ _
  | .sthio _ _ _ | .ldhio _ _ _ | .stwio _ _ _ | .ldwio _ _ _ | .addi _ _ _ | .andi _ _ _ | .ori _ _ _
  | .xori _ _ _ | .andhi _ _ _ | .orhi _ _ _ | .xorhi _ _ _ | .cmpeqi _ _ _ | .cmpnei _ _ _
  | .cmpgei _ _ _ | .cmplti _ _ _ | .cmpgeui _ _ _ | .cmpltui _ _ _ | .muli _ _ _ | .br _ | .beq _ _ _
  | .bne _ _ _ | .bge _ _ _ | .bgeu _ _ _ | .blt _ _ _ | .bltu _ _ _ | .add _ _ _ | .sub _ _ _
  | .and _ _ _ | .or _ _ _ | .xor _ _ _ | .nor _ _ _ | .cmpeq _ _ _ | .cmpne _ _ _ | .cmpge _ _ _
  | .cmpgeu _ _ _ | .cmplt _ _ _ | .cmpltu _ _ _ | .sll _ _ _ | .srl _ _ _ | .sra _ _ _ | .rol _ _ _
  | .ror _ _ _ | .mul _ _ _ | .mulxss _ _ _ | .mulxsu _ _ _ | .mulxuu _ _ _ | .div _ _ _ | .divu _ _ _
  | .slli _ _ _ | .srli _ _ _ | .srai _ _ _ | .roli _ _ _ | .jmp _ | .callr _ | .ret | .nextpc _
  | .brk _ | .trap _ | .eret | .bret => true
  | .rdctl _ n => ctlIndexOk n
  | .wrctl n _ => ctlIndexOk n

/-- An instruction that an encoding stands for. -/
abbrev WellFormed (i : Instr) : Prop := i.wellFormed = true

end Sys2Proof
end

