-- ==== Sys2Proof/Decode.lean ====
section
/-! DEFINITION. The instruction decoder: byte order, field accessors, the opcode maps, recognition and format check
(spec/30_encoding.md, spec/40_decoder.md), then the encoder, then the accessors and the classification of the dpx
variant, whose layout is a parameter. The bit positions and the opcode numbers are the spec's decisions D3 and D6. -/

namespace Sys2Proof

/-! ### Byte order (spec/20_memory.md R60) -/

/-- `le(bytes)`: the little-endian value of a byte list, as a number. -/
def leNat : List Byte → Nat
  | []      => 0
  | b :: bs => b.toNat + 256 * leNat bs

/-- The word that four bytes make (R60, R135). -/
def wordOfBytes (bs : List Byte) : Word := BitVec.ofNat 32 (leNat bs)

/-- `bytes_le(v, n)`: the low `n` bytes of `v`, the least significant first. -/
def bytesLe (v : Word) : Nat → List Byte
  | 0     => []
  | n + 1 => v.setWidth 8 :: bytesLe (v >>> 8) n

/-! ### Field accessors (spec/40_decoder.md R111 to R118): total functions of the word -/

/-- `op(w) = w[5:0]` (R111). -/
def fieldOp (w : Word) : BitVec 6 := w.extractLsb' 0 6

/-- `opx(w) = w[16:11]` (R112). -/
def fieldOpx (w : Word) : BitVec 6 := w.extractLsb' 11 6

/-- `a(w) = w[31:27]` (R113). -/
def fieldA (w : Word) : RegIdx := w.extractLsb' 27 5

/-- `b(w) = w[26:22]` (R114). -/
def fieldB (w : Word) : RegIdx := w.extractLsb' 22 5

/-- `c(w) = w[21:17]` (R115). -/
def fieldC (w : Word) : RegIdx := w.extractLsb' 17 5

/-- The raw field `IMM16 = w[21:6]` (R116). -/
def fieldImm16 (w : Word) : BitVec 16 := w.extractLsb' 6 16

/-- `imm16u(w) = zext_32(w[21:6])` (R116). -/
def imm16u (w : Word) : Word := (fieldImm16 w).zeroExtend 32

/-- `imm16s(w) = sext_32(w[21:6])` (R116). -/
def imm16s (w : Word) : Word := (fieldImm16 w).signExtend 32

/-- `imm5(w) = w[10:6]` (R117). -/
def fieldImm5 (w : Word) : BitVec 5 := w.extractLsb' 6 5

/-- `ctlidx(w) = w[10:6]` (R117, spec/30_encoding.md R86). -/
def ctlidx (w : Word) : BitVec 5 := w.extractLsb' 6 5

/-- `imm26(w) = w[31:6]` (R118). -/
def fieldImm26 (w : Word) : BitVec 26 := w.extractLsb' 6 26

/-! ### Recognition (spec/30_encoding.md R87, R88, R90) -/

/-- The I-type and J-type map: `OP` to the instruction (R87). -/
def classifyOp (op : Nat) : Option Opcode :=
  match op with
  | 0x00 => some .call
  | 0x01 => some .jmpi
  | 0x03 => some .ldbu
  | 0x04 => some .addi
  | 0x05 => some .stb
  | 0x06 => some .br
  | 0x07 => some .ldb
  | 0x08 => some .cmpgei
  | 0x0B => some .ldhu
  | 0x0C => some .andi
  | 0x0D => some .sth
  | 0x0E => some .bge
  | 0x0F => some .ldh
  | 0x10 => some .cmplti
  | 0x14 => some .ori
  | 0x15 => some .stw
  | 0x16 => some .blt
  | 0x17 => some .ldw
  | 0x18 => some .cmpnei
  | 0x1C => some .xori
  | 0x1E => some .bne
  | 0x20 => some .cmpeqi
  | 0x23 => some .ldbuio
  | 0x24 => some .muli
  | 0x25 => some .stbio
  | 0x26 => some .beq
  | 0x27 => some .ldbio
  | 0x28 => some .cmpgeui
  | 0x2B => some .ldhuio
  | 0x2C => some .andhi
  | 0x2D => some .sthio
  | 0x2E => some .bgeu
  | 0x2F => some .ldhio
  | 0x30 => some .cmpltui
  | 0x34 => some .orhi
  | 0x35 => some .stwio
  | 0x36 => some .bltu
  | 0x37 => some .ldwio
  | 0x3C => some .xorhi
  | _ => none

/-- The R-type map: `OPX` to the instruction (R88). -/
def classifyOpx (opx : Nat) : Option Opcode :=
  match opx with
  | 0x01 => some .eret
  | 0x02 => some .roli
  | 0x03 => some .rol
  | 0x05 => some .ret
  | 0x06 => some .nor
  | 0x07 => some .mulxuu
  | 0x08 => some .cmpge
  | 0x09 => some .bret
  | 0x0B => some .ror
  | 0x0D => some .jmp
  | 0x0E => some .and
  | 0x10 => some .cmplt
  | 0x12 => some .slli
  | 0x13 => some .sll
  | 0x16 => some .or
  | 0x17 => some .mulxsu
  | 0x18 => some .cmpne
  | 0x1A => some .srli
  | 0x1B => some .srl
  | 0x1C => some .nextpc
  | 0x1D => some .callr
  | 0x1E => some .xor
  | 0x1F => some .mulxss
  | 0x20 => some .cmpeq
  | 0x24 => some .divu
  | 0x25 => some .div
  | 0x26 => some .rdctl
  | 0x27 => some .mul
  | 0x28 => some .cmpgeu
  | 0x2D => some .trap
  | 0x2E => some .wrctl
  | 0x30 => some .cmpltu
  | 0x31 => some .add
  | 0x34 => some .brk
  | 0x39 => some .sub
  | 0x3A => some .srai
  | 0x3B => some .sra
  | _ => none

/-- `classify(w)` for the base variant: computed from `op(w)` and, when `op(w) = 0x3A`, `opx(w)` (R90,
spec/40_decoder.md R122). -/
def classify (w : Word) : Option Opcode :=
  if fieldOp w = 0x3A#6 then classifyOpx (fieldOpx w).toNat else classifyOp (fieldOp w).toNat

/-! ### The opcode table as match and mask (spec/opcode_table.json; R90, R123) -/

/-- The `match` column of the table. -/
def Opcode.pattern : Opcode → Word
  | .call => 0x00000000#32
  | .jmpi => 0x00000001#32
  | .ldbu => 0x00000003#32
  | .stb => 0x00000005#32
  | .ldb => 0x00000007#32
  | .ldhu => 0x0000000B#32
  | .sth => 0x0000000D#32
  | .ldh => 0x0000000F#32
  | .stw => 0x00000015#32
  | .ldw => 0x00000017#32
  | .ldbuio => 0x00000023#32
  | .stbio => 0x00000025#32
  | .ldbio => 0x00000027#32
  | .ldhuio => 0x0000002B#32
  | .sthio => 0x0000002D#32
  | .ldhio => 0x0000002F#32
  | .stwio => 0x00000035#32
  | .ldwio => 0x00000037#32
  | .addi => 0x00000004#32
  | .andi => 0x0000000C#32
  | .ori => 0x00000014#32
  | .xori => 0x0000001C#32
  | .andhi => 0x0000002C#32
  | .orhi => 0x00000034#32
  | .xorhi => 0x0000003C#32
  | .cmpeqi => 0x00000020#32
  | .cmpnei => 0x00000018#32
  | .cmpgei => 0x00000008#32
  | .cmplti => 0x00000010#32
  | .cmpgeui => 0x00000028#32
  | .cmpltui => 0x00000030#32
  | .muli => 0x00000024#32
  | .br => 0x00000006#32
  | .beq => 0x00000026#32
  | .bne => 0x0000001E#32
  | .bge => 0x0000000E#32
  | .bgeu => 0x0000002E#32
  | .blt => 0x00000016#32
  | .bltu => 0x00000036#32
  | .add => 0x0001883A#32
  | .sub => 0x0001C83A#32
  | .and => 0x0000703A#32
  | .or => 0x0000B03A#32
  | .xor => 0x0000F03A#32
  | .nor => 0x0000303A#32
  | .cmpeq => 0x0001003A#32
  | .cmpne => 0x0000C03A#32
  | .cmpge => 0x0000403A#32
  | .cmpgeu => 0x0001403A#32
  | .cmplt => 0x0000803A#32
  | .cmpltu => 0x0001803A#32
  | .sll => 0x0000983A#32
  | .srl => 0x0000D83A#32
  | .sra => 0x0001D83A#32
  | .rol => 0x0000183A#32
  | .ror => 0x0000583A#32
  | .mul => 0x0001383A#32
  | .mulxss => 0x0000F83A#32
  | .mulxsu => 0x0000B83A#32
  | .mulxuu => 0x0000383A#32
  | .div => 0x0001283A#32
  | .divu => 0x0001203A#32
  | .slli => 0x0000903A#32
  | .srli => 0x0000D03A#32
  | .srai => 0x0001D03A#32
  | .roli => 0x0000103A#32
  | .jmp => 0x0000683A#32
  | .callr => 0x0000E83A#32
  | .ret => 0x0000283A#32
  | .nextpc => 0x0000E03A#32
  | .brk => 0x0001A03A#32
  | .trap => 0x0001683A#32
  | .eret => 0x0000083A#32
  | .bret => 0x0000483A#32
  | .rdctl => 0x0001303A#32
  | .wrctl => 0x0001703A#32

/-- The `mask` column of the table: `OP` alone, or `OP` and `OPX`. -/
def Opcode.mask : Opcode → Word
  | .call | .jmpi | .ldbu | .stb | .ldb | .ldhu | .sth | .ldh | .stw | .ldw | .ldbuio | .stbio | .ldbio
  | .ldhuio | .sthio | .ldhio | .stwio | .ldwio | .addi | .andi | .ori | .xori | .andhi | .orhi | .xorhi
  | .cmpeqi | .cmpnei | .cmpgei | .cmplti | .cmpgeui | .cmpltui | .muli | .br | .beq | .bne | .bge | .bgeu
  | .blt | .bltu => 0x0000003F#32
  | .add | .sub | .and | .or | .xor | .nor | .cmpeq | .cmpne | .cmpge | .cmpgeu | .cmplt | .cmpltu | .sll
  | .srl | .sra | .rol | .ror | .mul | .mulxss | .mulxsu | .mulxuu | .div | .divu | .slli | .srli | .srai
  | .roli | .jmp | .callr | .ret | .nextpc | .brk | .trap | .eret | .bret | .rdctl | .wrctl => 0x0001F83F#32

/-- The `legal_mask` column of the table (R91). -/
def Opcode.legalMask : Opcode → Word
  | .call | .jmpi | .ldbu | .stb | .ldb | .ldhu | .sth | .ldh | .stw | .ldw | .ldbuio | .stbio | .ldbio
  | .ldhuio | .sthio | .ldhio | .stwio | .ldwio | .addi | .andi | .ori | .xori | .andhi | .orhi | .xorhi
  | .cmpeqi | .cmpnei | .cmpgei | .cmplti | .cmpgeui | .cmpltui | .muli | .beq | .bne | .bge | .bgeu | .blt
  | .bltu => 0x00000000#32
  | .br => 0xFFC00000#32
  | .add | .sub | .and | .or | .xor | .nor | .cmpeq | .cmpne | .cmpge | .cmpgeu | .cmplt | .cmpltu | .sll
  | .srl | .sra | .rol | .ror | .mul | .mulxss | .mulxsu | .mulxuu | .div | .divu => 0x000007C0#32
  | .slli | .srli | .srai | .roli => 0x07C00000#32
  | .jmp | .callr => 0x07FE07C0#32
  | .ret | .eret | .bret => 0xFFFE07C0#32
  | .nextpc => 0xFFC007C0#32
  | .brk | .trap => 0xFFFE0000#32
  | .rdctl => 0xFFC00400#32
  | .wrctl => 0x07FE0400#32

/-- The `legal_match` column of the table (R91). -/
def Opcode.legalMatch : Opcode → Word
  | .call | .jmpi | .ldbu | .stb | .ldb | .ldhu | .sth | .ldh | .stw | .ldw | .ldbuio | .stbio | .ldbio
  | .ldhuio | .sthio | .ldhio | .stwio | .ldwio | .addi | .andi | .ori | .xori | .andhi | .orhi | .xorhi
  | .cmpeqi | .cmpnei | .cmpgei | .cmplti | .cmpgeui | .cmpltui | .muli | .br | .beq | .bne | .bge | .bgeu
  | .blt | .bltu | .add | .sub | .and | .or | .xor | .nor | .cmpeq | .cmpne | .cmpge | .cmpgeu | .cmplt
  | .cmpltu | .sll | .srl | .sra | .rol | .ror | .mul | .mulxss | .mulxsu | .mulxuu | .div | .divu | .slli
  | .srli | .srai | .roli | .jmp | .nextpc | .rdctl | .wrctl => 0x00000000#32
  | .callr => 0x003E0000#32
  | .ret => 0xF8000000#32
  | .brk => 0x003C0000#32
  | .trap => 0x003A0000#32
  | .eret => 0xEF800000#32
  | .bret => 0xF03C0000#32

/-! ### Format check (spec/30_encoding.md R91) and operands -/

/-- The format check: the fixed and unused fields of a recognised word hold the values R91 requires. -/
def formatOk (o : Opcode) (w : Word) : Bool :=
  match o with
  | .call | .jmpi | .ldbu | .stb | .ldb | .ldhu | .sth | .ldh | .stw | .ldw | .ldbuio | .stbio | .ldbio
  | .ldhuio | .sthio | .ldhio | .stwio | .ldwio | .addi | .andi | .ori | .xori | .andhi | .orhi | .xorhi
  | .cmpeqi | .cmpnei | .cmpgei | .cmplti | .cmpgeui | .cmpltui | .muli | .beq | .bne | .bge | .bgeu | .blt
  | .bltu => true
  | .br => fieldA w = 0 && fieldB w = 0
  | .add | .sub | .and | .or | .xor | .nor | .cmpeq | .cmpne | .cmpge | .cmpgeu | .cmplt | .cmpltu | .sll
  | .srl | .sra | .rol | .ror | .mul | .mulxss | .mulxsu | .mulxuu | .div | .divu => fieldImm5 w = 0
  | .slli | .srli | .srai | .roli => fieldB w = 0
  | .jmp => fieldB w = 0 && fieldC w = 0 && fieldImm5 w = 0
  | .callr => fieldB w = 0 && fieldC w = 31 && fieldImm5 w = 0
  | .ret => fieldA w = 31 && fieldB w = 0 && fieldC w = 0 && fieldImm5 w = 0
  | .nextpc => fieldA w = 0 && fieldB w = 0 && fieldImm5 w = 0
  | .brk => fieldA w = 0 && fieldB w = 0 && fieldC w = 30
  | .trap => fieldA w = 0 && fieldB w = 0 && fieldC w = 29
  | .eret => fieldA w = 29 && fieldB w = 30 && fieldC w = 0 && fieldImm5 w = 0
  | .bret => fieldA w = 30 && fieldB w = 0 && fieldC w = 30 && fieldImm5 w = 0
  | .rdctl => fieldA w = 0 && fieldB w = 0 && ctlIndexOk (ctlidx w)
  | .wrctl => fieldB w = 0 && fieldC w = 0 && ctlIndexOk (ctlidx w)

/-- The instruction a word of a given row stands for, its operands read by the accessors of its format (R84, R85). -/
def operands (o : Opcode) (w : Word) : Instr :=
  match o with
  | .call => .call (fieldImm26 w)
  | .jmpi => .jmpi (fieldImm26 w)
  | .ldbu => .ldbu (fieldB w) (fieldA w) (fieldImm16 w)
  | .stb => .stb (fieldB w) (fieldA w) (fieldImm16 w)
  | .ldb => .ldb (fieldB w) (fieldA w) (fieldImm16 w)
  | .ldhu => .ldhu (fieldB w) (fieldA w) (fieldImm16 w)
  | .sth => .sth (fieldB w) (fieldA w) (fieldImm16 w)
  | .ldh => .ldh (fieldB w) (fieldA w) (fieldImm16 w)
  | .stw => .stw (fieldB w) (fieldA w) (fieldImm16 w)
  | .ldw => .ldw (fieldB w) (fieldA w) (fieldImm16 w)
  | .ldbuio => .ldbuio (fieldB w) (fieldA w) (fieldImm16 w)
  | .stbio => .stbio (fieldB w) (fieldA w) (fieldImm16 w)
  | .ldbio => .ldbio (fieldB w) (fieldA w) (fieldImm16 w)
  | .ldhuio => .ldhuio (fieldB w) (fieldA w) (fieldImm16 w)
  | .sthio => .sthio (fieldB w) (fieldA w) (fieldImm16 w)
  | .ldhio => .ldhio (fieldB w) (fieldA w) (fieldImm16 w)
  | .stwio => .stwio (fieldB w) (fieldA w) (fieldImm16 w)
  | .ldwio => .ldwio (fieldB w) (fieldA w) (fieldImm16 w)
  | .addi => .addi (fieldB w) (fieldA w) (fieldImm16 w)
  | .andi => .andi (fieldB w) (fieldA w) (fieldImm16 w)
  | .ori => .ori (fieldB w) (fieldA w) (fieldImm16 w)
  | .xori => .xori (fieldB w) (fieldA w) (fieldImm16 w)
  | .andhi => .andhi (fieldB w) (fieldA w) (fieldImm16 w)
  | .orhi => .orhi (fieldB w) (fieldA w) (fieldImm16 w)
  | .xorhi => .xorhi (fieldB w) (fieldA w) (fieldImm16 w)
  | .cmpeqi => .cmpeqi (fieldB w) (fieldA w) (fieldImm16 w)
  | .cmpnei => .cmpnei (fieldB w) (fieldA w) (fieldImm16 w)
  | .cmpgei => .cmpgei (fieldB w) (fieldA w) (fieldImm16 w)
  | .cmplti => .cmplti (fieldB w) (fieldA w) (fieldImm16 w)
  | .cmpgeui => .cmpgeui (fieldB w) (fieldA w) (fieldImm16 w)
  | .cmpltui => .cmpltui (fieldB w) (fieldA w) (fieldImm16 w)
  | .muli => .muli (fieldB w) (fieldA w) (fieldImm16 w)
  | .br => .br (fieldImm16 w)
  | .beq => .beq (fieldA w) (fieldB w) (fieldImm16 w)
  | .bne => .bne (fieldA w) (fieldB w) (fieldImm16 w)
  | .bge => .bge (fieldA w) (fieldB w) (fieldImm16 w)
  | .bgeu => .bgeu (fieldA w) (fieldB w) (fieldImm16 w)
  | .blt => .blt (fieldA w) (fieldB w) (fieldImm16 w)
  | .bltu => .bltu (fieldA w) (fieldB w) (fieldImm16 w)
  | .add => .add (fieldC w) (fieldA w) (fieldB w)
  | .sub => .sub (fieldC w) (fieldA w) (fieldB w)
  | .and => .and (fieldC w) (fieldA w) (fieldB w)
  | .or => .or (fieldC w) (fieldA w) (fieldB w)
  | .xor => .xor (fieldC w) (fieldA w) (fieldB w)
  | .nor => .nor (fieldC w) (fieldA w) (fieldB w)
  | .cmpeq => .cmpeq (fieldC w) (fieldA w) (fieldB w)
  | .cmpne => .cmpne (fieldC w) (fieldA w) (fieldB w)
  | .cmpge => .cmpge (fieldC w) (fieldA w) (fieldB w)
  | .cmpgeu => .cmpgeu (fieldC w) (fieldA w) (fieldB w)
  | .cmplt => .cmplt (fieldC w) (fieldA w) (fieldB w)
  | .cmpltu => .cmpltu (fieldC w) (fieldA w) (fieldB w)
  | .sll => .sll (fieldC w) (fieldA w) (fieldB w)
  | .srl => .srl (fieldC w) (fieldA w) (fieldB w)
  | .sra => .sra (fieldC w) (fieldA w) (fieldB w)
  | .rol => .rol (fieldC w) (fieldA w) (fieldB w)
  | .ror => .ror (fieldC w) (fieldA w) (fieldB w)
  | .mul => .mul (fieldC w) (fieldA w) (fieldB w)
  | .mulxss => .mulxss (fieldC w) (fieldA w) (fieldB w)
  | .mulxsu => .mulxsu (fieldC w) (fieldA w) (fieldB w)
  | .mulxuu => .mulxuu (fieldC w) (fieldA w) (fieldB w)
  | .div => .div (fieldC w) (fieldA w) (fieldB w)
  | .divu => .divu (fieldC w) (fieldA w) (fieldB w)
  | .slli => .slli (fieldC w) (fieldA w) (fieldImm5 w)
  | .srli => .srli (fieldC w) (fieldA w) (fieldImm5 w)
  | .srai => .srai (fieldC w) (fieldA w) (fieldImm5 w)
  | .roli => .roli (fieldC w) (fieldA w) (fieldImm5 w)
  | .jmp => .jmp (fieldA w)
  | .callr => .callr (fieldA w)
  | .ret => .ret
  | .nextpc => .nextpc (fieldC w)
  | .brk => .brk (fieldImm5 w)
  | .trap => .trap (fieldImm5 w)
  | .eret => .eret
  | .bret => .bret
  | .rdctl => .rdctl (fieldC w) (ctlidx w)
  | .wrctl => .wrctl (ctlidx w) (fieldA w)

/-- What the decoder makes of a word. -/
inductive Decoded where
  /-- A recognised word whose format is legal. -/
  | instr (i : Instr)
  /-- A recognised word with a wrong fixed or unused field: "illegal instruction format" (R91). -/
  | illegalFormat (o : Opcode)
  /-- A word that matches no row: "unimplemented instruction" (R90, R94). -/
  | unrecognised
deriving DecidableEq, Repr

/-- The decoder of the base variant, total on every word: recognition first, then the format check (R92). -/
def decode (w : Word) : Decoded :=
  match classify w with
  | none   => .unrecognised
  | some o => if formatOk o w then .instr (operands o w) else .illegalFormat o

/-- The decoder on bytes as they lie in memory, the lowest address first (R80, R135): a list that is not one word
long is no instruction. -/
def decodeBytes (bs : List Byte) : Decoded :=
  if bs.length = 4 then decode (wordOfBytes bs) else .unrecognised

/-- The instruction the decoder reads from the low `nbits` bits of `w`, numbered as spec/opcode_table.json numbers
them: the word is laid out in its four bytes, the low byte at the lowest address, and decoded from them. -/
def decodeTableWord (nbits w : Nat) : Option Instr :=
  if nbits ≤ 32 then
    match decodeBytes (bytesLe (BitVec.ofNat 32 (w % 2 ^ nbits)) 4) with
    | .instr i         => some i
    | .illegalFormat _ => none
    | .unrecognised    => none
  else none

/-! ### The encoder (spec/40_decoder.md R124; the encodings of the instruction rules) -/

/-- An I-type word (spec/30_encoding.md R81). -/
def encodeI (op : Nat) (a b : RegIdx) (imm16 : BitVec 16) : Word :=
  BitVec.ofNat 32 (a.toNat * 2 ^ 27 + b.toNat * 2 ^ 22 + imm16.toNat * 2 ^ 6 + op)

/-- An R-type word (R82): `OP` is 0x3A. -/
def encodeR (opx : Nat) (a b c : RegIdx) (imm5 : BitVec 5) : Word :=
  BitVec.ofNat 32
    (a.toNat * 2 ^ 27 + b.toNat * 2 ^ 22 + c.toNat * 2 ^ 17 + opx * 2 ^ 11 + imm5.toNat * 2 ^ 6 + 0x3A)

/-- A J-type word (R83). -/
def encodeJ (op : Nat) (imm26 : BitVec 26) : Word :=
  BitVec.ofNat 32 (imm26.toNat * 2 ^ 6 + op)

/-- The row of an instruction. -/
def Instr.opcode : Instr → Opcode
  | .call _ => .call
  | .jmpi _ => .jmpi
  | .ldbu _ _ _ => .ldbu
  | .stb _ _ _ => .stb
  | .ldb _ _ _ => .ldb
  | .ldhu _ _ _ => .ldhu
  | .sth _ _ _ => .sth
  | .ldh _ _ _ => .ldh
  | .stw _ _ _ => .stw
  | .ldw _ _ _ => .ldw
  | .ldbuio _ _ _ => .ldbuio
  | .stbio _ _ _ => .stbio
  | .ldbio _ _ _ => .ldbio
  | .ldhuio _ _ _ => .ldhuio
  | .sthio _ _ _ => .sthio
  | .ldhio _ _ _ => .ldhio
  | .stwio _ _ _ => .stwio
  | .ldwio _ _ _ => .ldwio
  | .addi _ _ _ => .addi
  | .andi _ _ _ => .andi
  | .ori _ _ _ => .ori
  | .xori _ _ _ => .xori
  | .andhi _ _ _ => .andhi
  | .orhi _ _ _ => .orhi
  | .xorhi _ _ _ => .xorhi
  | .cmpeqi _ _ _ => .cmpeqi
  | .cmpnei _ _ _ => .cmpnei
  | .cmpgei _ _ _ => .cmpgei
  | .cmplti _ _ _ => .cmplti
  | .cmpgeui _ _ _ => .cmpgeui
  | .cmpltui _ _ _ => .cmpltui
  | .muli _ _ _ => .muli
  | .br _ => .br
  | .beq _ _ _ => .beq
  | .bne _ _ _ => .bne
  | .bge _ _ _ => .bge
  | .bgeu _ _ _ => .bgeu
  | .blt _ _ _ => .blt
  | .bltu _ _ _ => .bltu
  | .add _ _ _ => .add
  | .sub _ _ _ => .sub
  | .and _ _ _ => .and
  | .or _ _ _ => .or
  | .xor _ _ _ => .xor
  | .nor _ _ _ => .nor
  | .cmpeq _ _ _ => .cmpeq
  | .cmpne _ _ _ => .cmpne
  | .cmpge _ _ _ => .cmpge
  | .cmpgeu _ _ _ => .cmpgeu
  | .cmplt _ _ _ => .cmplt
  | .cmpltu _ _ _ => .cmpltu
  | .sll _ _ _ => .sll
  | .srl _ _ _ => .srl
  | .sra _ _ _ => .sra
  | .rol _ _ _ => .rol
  | .ror _ _ _ => .ror
  | .mul _ _ _ => .mul
  | .mulxss _ _ _ => .mulxss
  | .mulxsu _ _ _ => .mulxsu
  | .mulxuu _ _ _ => .mulxuu
  | .div _ _ _ => .div
  | .divu _ _ _ => .divu
  | .slli _ _ _ => .slli
  | .srli _ _ _ => .srli
  | .srai _ _ _ => .srai
  | .roli _ _ _ => .roli
  | .jmp _ => .jmp
  | .callr _ => .callr
  | .ret => .ret
  | .nextpc _ => .nextpc
  | .brk _ => .brk
  | .trap _ => .trap
  | .eret => .eret
  | .bret => .bret
  | .rdctl _ _ => .rdctl
  | .wrctl _ _ => .wrctl

/-- The word of an instruction, from the `Encoding` of its rule (spec/42_alu_register.md to spec/47_system.md). -/
def encode : Instr → Word
  | .call imm26 => encodeJ 0x00 imm26
  | .jmpi imm26 => encodeJ 0x01 imm26
  | .ldbu b a imm16 => encodeI 0x03 a b imm16
  | .stb b a imm16 => encodeI 0x05 a b imm16
  | .ldb b a imm16 => encodeI 0x07 a b imm16
  | .ldhu b a imm16 => encodeI 0x0B a b imm16
  | .sth b a imm16 => encodeI 0x0D a b imm16
  | .ldh b a imm16 => encodeI 0x0F a b imm16
  | .stw b a imm16 => encodeI 0x15 a b imm16
  | .ldw b a imm16 => encodeI 0x17 a b imm16
  | .ldbuio b a imm16 => encodeI 0x23 a b imm16
  | .stbio b a imm16 => encodeI 0x25 a b imm16
  | .ldbio b a imm16 => encodeI 0x27 a b imm16
  | .ldhuio b a imm16 => encodeI 0x2B a b imm16
  | .sthio b a imm16 => encodeI 0x2D a b imm16
  | .ldhio b a imm16 => encodeI 0x2F a b imm16
  | .stwio b a imm16 => encodeI 0x35 a b imm16
  | .ldwio b a imm16 => encodeI 0x37 a b imm16
  | .addi b a imm16 => encodeI 0x04 a b imm16
  | .andi b a imm16 => encodeI 0x0C a b imm16
  | .ori b a imm16 => encodeI 0x14 a b imm16
  | .xori b a imm16 => encodeI 0x1C a b imm16
  | .andhi b a imm16 => encodeI 0x2C a b imm16
  | .orhi b a imm16 => encodeI 0x34 a b imm16
  | .xorhi b a imm16 => encodeI 0x3C a b imm16
  | .cmpeqi b a imm16 => encodeI 0x20 a b imm16
  | .cmpnei b a imm16 => encodeI 0x18 a b imm16
  | .cmpgei b a imm16 => encodeI 0x08 a b imm16
  | .cmplti b a imm16 => encodeI 0x10 a b imm16
  | .cmpgeui b a imm16 => encodeI 0x28 a b imm16
  | .cmpltui b a imm16 => encodeI 0x30 a b imm16
  | .muli b a imm16 => encodeI 0x24 a b imm16
  | .br imm16 => encodeI 0x06 0 0 imm16
  | .beq a b imm16 => encodeI 0x26 a b imm16
  | .bne a b imm16 => encodeI 0x1E a b imm16
  | .bge a b imm16 => encodeI 0x0E a b imm16
  | .bgeu a b imm16 => encodeI 0x2E a b imm16
  | .blt a b imm16 => encodeI 0x16 a b imm16
  | .bltu a b imm16 => encodeI 0x36 a b imm16
  | .add c a b => encodeR 0x31 a b c 0
  | .sub c a b => encodeR 0x39 a b c 0
  | .and c a b => encodeR 0x0E a b c 0
  | .or c a b => encodeR 0x16 a b c 0
  | .xor c a b => encodeR 0x1E a b c 0
  | .nor c a b => encodeR 0x06 a b c 0
  | .cmpeq c a b => encodeR 0x20 a b c 0
  | .cmpne c a b => encodeR 0x18 a b c 0
  | .cmpge c a b => encodeR 0x08 a b c 0
  | .cmpgeu c a b => encodeR 0x28 a b c 0
  | .cmplt c a b => encodeR 0x10 a b c 0
  | .cmpltu c a b => encodeR 0x30 a b c 0
  | .sll c a b => encodeR 0x13 a b c 0
  | .srl c a b => encodeR 0x1B a b c 0
  | .sra c a b => encodeR 0x3B a b c 0
  | .rol c a b => encodeR 0x03 a b c 0
  | .ror c a b => encodeR 0x0B a b c 0
  | .mul c a b => encodeR 0x27 a b c 0
  | .mulxss c a b => encodeR 0x1F a b c 0
  | .mulxsu c a b => encodeR 0x17 a b c 0
  | .mulxuu c a b => encodeR 0x07 a b c 0
  | .div c a b => encodeR 0x25 a b c 0
  | .divu c a b => encodeR 0x24 a b c 0
  | .slli c a imm5 => encodeR 0x12 a 0 c imm5
  | .srli c a imm5 => encodeR 0x1A a 0 c imm5
  | .srai c a imm5 => encodeR 0x3A a 0 c imm5
  | .roli c a imm5 => encodeR 0x02 a 0 c imm5
  | .jmp a => encodeR 0x0D a 0 0 0
  | .callr a => encodeR 0x1D a 0 31 0
  | .ret => encodeR 0x05 31 0 0 0
  | .nextpc c => encodeR 0x1C 0 0 c 0
  | .brk imm5 => encodeR 0x34 0 0 30 imm5
  | .trap imm5 => encodeR 0x2D 0 0 29 imm5
  | .eret => encodeR 0x01 29 30 0 0
  | .bret => encodeR 0x09 30 0 30 0
  | .rdctl c n => encodeR 0x26 0 0 c n
  | .wrctl n a => encodeR 0x2E a 0 0 n

/-! ### The dpx variant (spec/30_encoding.md R95, R96; spec/40_decoder.md R119 to R121) -/

/-- How many bits a range has. -/
def BitRange.width (r : BitRange) : Nat := r.hi.val + 1 - r.lo.val

/-- Bits `hi` down to `lo` of a word, as a number (spec/00_scope.md R6). -/
def sliceNat (w : Word) (r : BitRange) : Nat := (w.toNat >>> r.lo.val) % 2 ^ r.width

/-- The format of a dpx word: the discriminator first (R120), every value of it having a format (R121). -/
def dpxFormat (l : DpxLayout) (w : Word) : DpxFormat :=
  (l.formats.lookup (sliceNat w l.disc)).getD l.otherFormat

/-- The places of a format. -/
def DpxLayout.places (l : DpxLayout) : DpxFormat → DpxPlaces
  | .rr   => l.rr
  | .i12b => l.i12b
  | .i12m => l.i12m
  | .i16  => l.i16
  | .jidx => l.jidx

/-- The place of an accessor in a format (R119 `pos(f, k)`), total on both. -/
def dpxPosition (l : DpxLayout) (f : DpxFormat) (k : DpxField) : DpxPos :=
  let p := l.places f
  match k with
  | .op     => p.op
  | .opx    => p.opx
  | .a      => p.a
  | .b      => p.b
  | .c      => p.c
  | .imm12  => p.imm12
  | .imm16  => p.imm16
  | .imm20  => p.imm20
  | .imm26  => p.imm26
  | .ctlidx => p.ctlidx

/-- The ranges of a place: at least one, each with `hi >= lo` (R119). -/
abbrev DpxPos.valid (p : DpxPos) : Prop := p.ranges ≠ [] ∧ ∀ r ∈ p.ranges, r.lo ≤ r.hi

/-- The constraint R119 puts on the places of a format. -/
abbrev DpxPlaces.valid (p : DpxPlaces) : Prop :=
  ∀ q ∈ [p.op, p.opx, p.a, p.b, p.c, p.imm12, p.imm16, p.imm20, p.imm26, p.ctlidx], q.valid

/-- The constraint R119 puts on a layout: every range has `31 >= hi >= lo >= 0`. The accessors are total without it
(R121): a range with `hi < lo` has no bits. -/
abbrev DpxLayout.valid (l : DpxLayout) : Prop :=
  l.disc.lo ≤ l.disc.hi ∧ ∀ p ∈ [l.rr, l.i12b, l.i12m, l.i16, l.jidx], p.valid

/-- The concatenation of ranges, the first in the highest place, with its width. -/
def concatRanges (w : Word) (rs : List BitRange) : Nat × Nat :=
  rs.foldl (fun acc r => (acc.1 * 2 ^ r.width + sliceNat w r, acc.2 + r.width)) (0, 0)

/-- A dpx accessor, pure and total (R110, R121): dispatch on the format, then read and extend at the place the layout
gives (R120); nothing is read at a place fixed across formats. DESIGN CHOICE (log 7): R119 bounds no total width, and of a
concatenation wider than 32 bits (its ranges then overlap) the low 32 bits are the value. -/
def dpxField (l : DpxLayout) (k : DpxField) (w : Word) : Word :=
  let p := dpxPosition l (dpxFormat l w) k
  let v := concatRanges w p.ranges
  if p.signed then (BitVec.ofNat v.2 v.1).signExtend 32 else (BitVec.ofNat v.2 v.1).zeroExtend 32

/-- `classify(w)` for the dpx variant: the row of `Cfg.DPX_OPTABLE` with `(w & mask) = match` (R96, R122). DESIGN CHOICE
(log 18): R122 speaks of the unique row and the spec gives no disjointness for the OPEN table; where two rows match, the
first of the list is taken. Under `Cfg.dpxRowsDisjoint` there is at most one. -/
def dpxClassify (c : Cfg) (w : Word) : Option DpxRow :=
  c.dpxOptable.find? (fun r => w &&& r.mask = r.pattern)

/-- The rows of `Cfg.DPX_OPTABLE` are pairwise disjoint: on the bits that both masks fix, the patterns differ, so that no
word matches two rows and "the unique row" of R122 is what `dpxClassify` answers (log 18). -/
abbrev Cfg.dpxRowsDisjoint (c : Cfg) : Prop :=
  c.dpxOptable.Pairwise (fun r q => r.pattern &&& q.mask ≠ q.pattern &&& r.mask)

/-- The format check of a dpx row (R91 with the row's own values, R142). -/
def dpxFormatOk (r : DpxRow) (w : Word) : Bool := w &&& r.legalMask = r.legalMatch

end Sys2Proof
end

