-- ==== Sys2Proof/Machine/State.lean ====
section
/-! DEFINITION. The state of the machine as plain data, everything spec/10_state.md and spec/20_memory.md give it,
the two reason types of `Host.Outcome`, and the state right after reset (R36). -/

namespace Sys2Proof.Machine

/-- The execution state `es` (R31). -/
inductive ExecState where
  | running
  | stopped
  | exited
deriving DecidableEq, Repr

/-- The ten stop reasons (spec/60_exceptions.md R270). -/
inductive StopReason where
  | breakpoint
  | unimplementedInstruction
  | illegalInstructionFormat
  | misalignedDataAddress
  | misalignedDestinationAddress
  | supervisorOnlyInstruction
  | dataAccessFault
  | instructionAccessFault
  | interrupted
  | stepComplete
deriving DecidableEq, Repr

/-- The flag set of a section, a subset of `{I, D, NC, RO}` (spec/20_memory.md R51). -/
structure SectionFlags where
  /-- `I`, instruction-accessible -/
  instr    : Bool
  /-- `D`, data-accessible -/
  data     : Bool
  /-- `NC`, no-cache: a tag without behaviour (R66) -/
  noCache  : Bool
  /-- `RO`, read-only -/
  readOnly : Bool
deriving DecidableEq, Repr

/-- A Memory Section (R50): it covers the addresses `base` to `limit - 1` (`limit` is the spec's `end`). Its bytes
lie in the state's memory. `stamp` is the model's own: it keys the free values of the bytes that nothing gave it. -/
structure Section where
  name  : String
  base  : Nat
  limit : Nat
  flags : SectionFlags
  stamp : Nat
deriving DecidableEq, Repr

/-- The bytes that something has given a value: address and byte, addresses strictly rising. -/
abbrev Memory := List Host.Cell

/-- The canonical form of memory: addresses strictly rising. An unlisted address has no value here (a section's
unlisted byte reads as a free value, log 4), so no entry can equal it. -/
abbrev Memory.wf (m : Memory) : Prop := m.Pairwise (fun c d => c.1 < d.1)

/-- The machine's state. -/
structure State where
  /-- `R[0]` to `R[31]` (R21); entry 0 is never read nor written (R22, R23). -/
  regs       : Vector Word 32
  /-- The program counter, register-file index 32 (R25). -/
  pc         : Word
  /-- `ctl[0]` to `ctl[15]`, register-file indices 33 to 48: `status`, `estatus`, `bstatus`, `ienable`, `ipending`,
  `cpuid`, `ctl6` to `ctl15` (R27). -/
  ctl        : Vector Word 16
  /-- The register file of the dpx variant, as far as it is neither `pc` nor a control register (R30). -/
  dpxRegs    : Vector Word 129
  /-- The execution state (R31). -/
  es         : ExecState
  /-- The pending stop reason, `none` after reset and while running (R31). -/
  sr         : Option StopReason
  /-- The exit code (R31). -/
  ec         : BitVec 8
  /-- The section collection of the Virtual Address Space, sorted by base (spec/20_memory.md R50, R52). -/
  sections   : List Section
  /-- The bytes of the sections (R50). -/
  mem        : Memory
  /-- The host output trace: `(fd, bytes)` (R34). -/
  out        : List (Word × List Byte)
  /-- The host interrupt request (R34). -/
  hirq       : Bool
  /-- The configuration, fixed for the life of the block (spec/00_scope.md R5, R32; log 3). -/
  cfg        : Cfg
  /-- The MODEL's own: the `single_step` argument of the host's current or next `step_or_run` (log 5). -/
  singleStep : Bool
  /-- The MODEL's own: how many stamps have been given to sections (log 4). -/
  freeCtr    : Nat
deriving DecidableEq, Repr

/-- Why the machine could stop outside the state. NO CONSTRUCTOR: the spec has every error "a return value / state
transition" (spec/41_interpreter_step.md R141), so each of its ten stop reasons is data in a next state (log 6), and
no step ends in a fault. -/
inductive Fault where
deriving DecidableEq, Repr

/-- Why an instruction has no meaning. -/
inductive Refusal where
  /-- Raised by `exec` alone, for an instruction the model has no meaning for yet. Safe: nothing can be proved of a
  run past it. No arm raises it now. -/
  | notModelled (mnemonic : String)
  /-- Raised by the run loop alone, for a recognised and well-formed instruction of the dpx variant other than
  `break` and `trap`: its operands and its register file are in no source (spec/93_implementation_defined.md U4
  "should `refuse` `Cfg.VARIANT = dpx`", spec/00_scope.md R4(e)). Safe. Log 7. -/
  | dpxInstruction (o : Opcode)
deriving DecidableEq, Repr

/-- The state after `reset()` under a configuration (R36). `pc`, `status`, `ienable`, `ipending`, `cpuid`, `es`, `sr`,
the section collection, `out` and `hirq` have the values of R36; the other registers and `ec`, which R36 leaves
unspecified, are 0 (DESIGN CHOICE, log 1). -/
def State.resetOf (cfg : Cfg) (singleStep : Bool) (freeCtr : Nat) : State where
  regs       := Vector.replicate 32 0#32
  pc         := cfg.resetAddr
  ctl        := (Vector.replicate 16 0#32).set 5 cfg.cpuid
  dpxRegs    := Vector.replicate 129 0#32
  es         := .stopped
  sr         := none
  ec         := 0#8
  sections   := []
  mem        := []
  out        := []
  hirq       := false
  cfg        := cfg
  singleStep := singleStep
  freeCtr    := freeCtr

/-- The machine right after reset, under the configuration of `Config.illustrated` (log 3). -/
def State.reset : State := State.resetOf Config.illustrated false 0

end Sys2Proof.Machine
end

