-- ==== Sys2Proof/Machine/Ops.lean ====
section
/-! DEFINITION. The named operations over registers, memory and the execution state: R8 (registers), R57 and R58
(the read and write primitives), R10 and R273 (the ONE way a stop is taken), R134 (how an instruction completes), and
the return that `eret` and `bret` share. -/

namespace Sys2Proof.Machine

/-- What an instruction's rule answers. -/
abbrev Result := Host.Outcome State Fault Refusal

/-! ### Registers (spec/10_state.md) -/

/-- `x[i]`: register 0 reads 0 (R22). -/
def State.x (s : State) (i : RegIdx) : Word :=
  if i = 0 then 0 else s.regs[i.toNat]'i.isLt

/-- `x[i] <- v`: a write to register 0 is discarded (R23). -/
def State.setX (s : State) (i : RegIdx) (v : Word) : State :=
  if i = 0 then s else { s with regs := s.regs.set i.toNat v i.isLt }

/-- `pc <- t` (R8). -/
def State.setPc (s : State) (t : Word) : State := { s with pc := t }

/-- `next = pc + 4` modulo 2^32 (R11, R25). -/
def State.nextPc (s : State) : Word := s.pc + 4

/-- `ctl[n]` (R27). -/
def State.ctlReg (s : State) (n : Fin 16) : Word := s.ctl[n.val]

/-- `ctl[n] <- v`, all 32 bits (R28). -/
def State.setCtl (s : State) (n : Fin 16) (v : Word) : State := { s with ctl := s.ctl.set n.val v }

/-- `ra`, the register that `call` and `callr` write and `ret` reads (R24). -/
def raIdx : RegIdx := 31

/-- `ea`, the register that `eret` jumps to (R24). -/
def eaIdx : RegIdx := 29

/-- `ba`, the register that `bret` jumps to (R24). -/
def baIdx : RegIdx := 30

/-! ### Memory cells -/

/-- The byte listed at an address. -/
def Memory.get? : Memory → Nat → Option Byte
  | [],     _ => none
  | c :: m, a => if c.1 = a then some c.2 else Memory.get? m a

/-- List a byte at an address, in its place. -/
def Memory.set : Memory → Nat → Byte → Memory
  | [],     a, b => [(a, b)]
  | c :: m, a, b =>
    if a < c.1 then (a, b) :: c :: m
    else if a = c.1 then (a, b) :: m
    else c :: Memory.set m a b

/-- Forget the bytes at the addresses from `lo` up to, not including, `hi`. -/
def Memory.eraseRange (m : Memory) (lo hi : Nat) : Memory :=
  m.filter (fun c => c.1 < lo || hi ≤ c.1)

/-- List bytes at consecutive addresses. -/
def Memory.setBytes : Memory → Nat → List Byte → Memory
  | m, _, []      => m
  | m, a, b :: bs => Memory.setBytes (Memory.set m a b) (a + 1) bs

/-! ### Sections and the access primitives (spec/20_memory.md) -/

/-- The two access classes `I` and `D` (spec/00_scope.md R9). -/
inductive AccessClass where
  | instr
  | data
deriving DecidableEq, Repr

/-- An access-flag set: one class, and the no-cache request (R9). -/
structure Access where
  cls     : AccessClass
  noCache : Bool
deriving DecidableEq, Repr

/-- `{I}`: instruction fetch. -/
def fetchAccess : Access := ⟨.instr, false⟩

/-- `{D}`: loads, stores and the `write` syscall. -/
def dataAccess : Access := ⟨.data, false⟩

/-- `{D, NC}`: the io variants (spec/45_load_store.md R211). -/
def ioAccess : Access := ⟨.data, true⟩

/-- A section covers an address (R50). -/
def Section.covers (t : Section) (p : Nat) : Bool := t.base ≤ p && p < t.limit

/-- `Sect(p)` (R56); a lookup address of 2^31 or more is covered by no section (R55). -/
def State.sectAt (s : State) (p : Nat) : Option Section :=
  if p < 2 ^ 31 then s.sections.find? (fun t => t.covers p) else none

/-- The byte of a section at an address: the listed one, or the free value of a byte nothing gave (R53, log 4). -/
def State.byteOf (s : State) (t : Section) (p : Nat) : Byte :=
  (Memory.get? s.mem p).getD (Config.freeByte t.stamp p)

/-- The byte at a lookup address whatever the access class: `none` at an address no section covers. -/
def State.peek (s : State) (p : Nat) : Option Byte :=
  (s.sectAt p).map (fun t => s.byteOf t p)

/-- The access-class test of R57 and R58. It looks only at `I` and `D`: the no-cache tag takes no part (R66). -/
def permits (acc : Access) (f : SectionFlags) : Bool :=
  match acc.cls with
  | .instr => f.instr
  | .data  => f.data

/-- The effective lookup address `a = addr & 0x7FFFFFFF` (R55). -/
def lookupAddr (addr : Word) : Nat := (addr &&& 0x7FFFFFFF#32).toNat

/-- The access that reaches the sections: address bit 31 adds the no-cache request (R55). -/
def effectiveAccess (addr : Word) (acc : Access) : Access :=
  { acc with noCache := acc.noCache || addr.getLsbD 31 }

/-- The byte one access may read at a lookup address: `none` at a gap or a section of the wrong class (R57). -/
def State.readableByte (s : State) (acc : Access) (p : Nat) : Option Byte :=
  match s.sectAt p with
  | none   => none
  | some t => if permits acc t.flags then some (s.byteOf t p) else none

/-- The loop of `MemRead`: up to `n` bytes from lookup address `p` on, ending at the first that cannot be read. -/
def State.readFrom (s : State) (acc : Access) : Nat → Nat → List Byte
  | _, 0     => []
  | p, n + 1 =>
    match s.readableByte acc p with
    | none   => []
    | some b => b :: s.readFrom acc (p + 1) n

/-- `MemRead(addr, n, cls)` (R57): the bytes transferred; their count is the list's length. -/
def State.memRead (s : State) (addr : Word) (n : Nat) (acc : Access) : List Byte :=
  s.readFrom (effectiveAccess addr acc) (lookupAddr addr) n

/-- One access may write at a lookup address: a section covers it, of the right class, and not read-only (R58). -/
def State.writable (s : State) (acc : Access) (p : Nat) : Bool :=
  match s.sectAt p with
  | none   => false
  | some t => permits acc t.flags && !t.flags.readOnly

/-- Write one byte at a lookup address. -/
def State.setByte (s : State) (p : Nat) (b : Byte) : State := { s with mem := Memory.set s.mem p b }

/-- The loop of `MemWrite`: the state, and how many bytes were written before the first that cannot be. -/
def State.writeFrom : State → Access → Nat → List Byte → State × Nat
  | s, _,   _, []      => (s, 0)
  | s, acc, p, b :: bs =>
    if s.writable acc p then
      let r := State.writeFrom (s.setByte p b) acc (p + 1) bs
      (r.1, r.2 + 1)
    else (s, 0)

/-- `MemWrite(addr, n, data, cls)` with `n` the length of `data` (R58): bytes written before a fault stay written. -/
def State.memWrite (s : State) (addr : Word) (data : List Byte) (acc : Access) : State × Nat :=
  s.writeFrom (effectiveAccess addr acc) (lookupAddr addr) data

/-- Instruction fetch (spec/41_interpreter_step.md R135): the word at `pc`, or `none` when fewer than 4 bytes can be
read with class `I`. -/
def State.fetch (s : State) : Option Word :=
  let bs := s.memRead s.pc 4 fetchAccess
  if bs.length = 4 then some (wordOfBytes bs) else none

/-! ### The section collection (R52) -/

/-- Insert a section before the first with a higher base (spec/20_memory.md R52: sorted by base). -/
def insertSection (t : Section) : List Section → List Section
  | []      => [t]
  | u :: us => if t.base < u.base then t :: u :: us else u :: insertSection t us

/-- The sections left and right of the addresses `lo` up to `hi`. -/
def sectionsOutside (ts : List Section) (lo hi : Nat) : List Section :=
  ts.filter (fun t => t.limit ≤ lo || hi ≤ t.base)

/-! ### Stops, exit and completion -/

/-- Taking a stop, the ONE place where it is done (spec/60_exceptions.md R273): `es` and `sr` change, and nothing
else does. It is the block's replacement for taking an exception: nothing is saved and nothing vectors (R276). -/
def State.raiseStop (s : State) (r : StopReason) : State := { s with es := .stopped, sr := some r }

/-- `raise Stop(reason)` as the answer of an instruction (spec/00_scope.md R10). -/
def stopWith (r : StopReason) (s : State) : Result := .next (s.raiseStop r)

/-- `raise Exit(code)` (R10, spec/41_interpreter_step.md R134(c)). -/
def exitWith (code : BitVec 8) (s : State) : Result := .next { s with es := .exited, ec := code }

/-- Completion of an instruction that is no transfer: `pc <- pc + 4` (R134(a)). -/
def complete (s : State) : Result := .next (s.setPc s.nextPc)

/-- Completion with a destination register: the register, then `pc <- pc + 4` (R134(a)). -/
def writeBack (d : RegIdx) (v : Word) (s : State) : Result := complete (s.setX d v)

/-- An address is a multiple of 4: its bits 1:0 are 0 (spec/46_control_transfer.md R230, R135). -/
def wordAligned (t : Word) : Bool := t.extractLsb' 0 2 = 0#2

/-- A transfer to a computed target: the alignment test, then `pc <- t` (R230). -/
def jumpTo (t : Word) (s : State) : Result :=
  if wordAligned t then .next (s.setPc t) else stopWith .misalignedDestinationAddress s

/-! ### Privilege (spec/60_exceptions.md R283, R284) and the returns -/

/-- `status` is `ctl[0]` (R27). -/
def State.status (s : State) : Word := s.ctlReg 0

/-- User mode: `status.U`, bit 1, is set (R28, R283). -/
def State.userMode (s : State) : Bool := s.status.getLsbD 1

/-- The privilege check: in user mode the instruction stops (R284). -/
def supervisorOnly (s : State) (r : Result) : Result :=
  if s.userMode then stopWith .supervisorOnlyInstruction s else r

/-- The return that `eret` and `bret` share (spec/47_system.md R254, R255): the target's alignment, then the mode, then
`status` takes all 32 bits of the saved copy and `pc` the target. -/
def returnTo (target : Word) (saved : Fin 16) (s : State) : Result :=
  if wordAligned target then
    supervisorOnly s (.next ((s.setCtl 0 (s.ctlReg saved)).setPc target))
  else stopWith .misalignedDestinationAddress s

/-! ### Feature gate (spec/43_multiply_divide.md R180) -/

/-- The feature flag an instruction needs is set; an instruction without a flag is always present (R180). -/
def featurePresent (c : Cfg) (o : Opcode) : Bool :=
  match o with
  | .mul | .muli => c.hasMul
  | .mulxss | .mulxsu | .mulxuu => c.hasMulx
  | .div | .divu => c.hasDiv
  | .call | .jmpi | .ldbu | .stb | .ldb | .ldhu | .sth | .ldh | .stw | .ldw | .ldbuio | .stbio | .ldbio
  | .ldhuio | .sthio | .ldhio | .stwio | .ldwio | .addi | .andi | .ori | .xori | .andhi | .orhi | .xorhi
  | .cmpeqi | .cmpnei | .cmpgei | .cmplti | .cmpgeui | .cmpltui | .br | .beq | .bne | .bge | .bgeu | .blt
  | .bltu | .add | .sub | .and | .or | .xor | .nor | .cmpeq | .cmpne | .cmpge | .cmpgeu | .cmplt | .cmpltu
  | .sll | .srl | .sra | .rol | .ror | .slli | .srli | .srai | .roli | .jmp | .callr | .ret | .nextpc
  | .brk | .trap | .eret | .bret | .rdctl | .wrctl => true

/-- A feature-gated instruction without its feature is "unimplemented instruction" (R180). -/
def gated (o : Opcode) (s : State) (r : Result) : Result :=
  if featurePresent s.cfg o then r else stopWith .unimplementedInstruction s

end Sys2Proof.Machine
end

