-- ==== Sys2Proof/Machine/Flags.lean ====
section
/-! DEFINITION. The block has no condition codes, carry, overflow or predicate flags, and no instruction has a flag
side effect (spec/10_state.md R26). What other machines keep in flags stands here: the relations that compares and
branches test, the word a compare writes, and the bits of `status` (R28). -/

namespace Sys2Proof.Machine

/-- `s(v) >= s(u)`, signed (spec/00_scope.md R7). -/
def geS (v u : Word) : Bool := u.toInt ≤ v.toInt

/-- `s(v) < s(u)`, signed (R7). -/
def ltS (v u : Word) : Bool := v.toInt < u.toInt

/-- `u(v) >= u(u)`, unsigned (R7). -/
def geU (v u : Word) : Bool := u.toNat ≤ v.toNat

/-- `u(v) < u(u)`, unsigned (R7). -/
def ltU (v u : Word) : Bool := v.toNat < u.toNat

/-- What a compare writes: the word 1 when the relation holds, else the word 0 (spec/42_alu_register.md section 3). -/
def truthWord (p : Bool) : Word := if p then 1 else 0

/-- `PIE`, bit 0 of `status`, `estatus` or `bstatus` (R28): stored, and read by no rule (spec/60_exceptions.md R280). -/
def pieBit (status : Word) : Bool := status.getLsbD 0

/-- `U`, bit 1 of `status`, `estatus` or `bstatus` (R28). -/
def uBit (status : Word) : Bool := status.getLsbD 1

end Sys2Proof.Machine
end

