-- ==== Sys2Proof/Machine/Operands.lean ====
section
/-! DEFINITION. The operand forms: how an immediate enters an operation (spec/30_encoding.md R85), shift and rotate
counts (spec/42_alu_register.md section 4), the effective address and the load and store procedures
(spec/45_load_store.md R210, R212, R213), and the targets of transfers (spec/46_control_transfer.md). -/

namespace Sys2Proof.Machine

/-- `sext_32(IMM16)` (R85(a)). -/
def immS (imm16 : BitVec 16) : Word := imm16.signExtend 32

/-- `zext_32(IMM16)` (R85(a)). -/
def immU (imm16 : BitVec 16) : Word := imm16.zeroExtend 32

/-- `{IMM16, 0x0000}` (R85(a)). -/
def immHigh (imm16 : BitVec 16) : Word := imm16.zeroExtend 32 <<< 16

/-- The count of a variable shift or rotate: the low five bits of the register, `x[B][4:0]` (section 4). -/
def regCount (v : Word) : Nat := (v.extractLsb' 0 5).toNat

/-- The count of an immediate shift or rotate: `IMM5`, unsigned (R85(b)). -/
def immCount (imm5 : BitVec 5) : Nat := imm5.toNat

/-- Rotate left by 0 to 31 places, as R169 writes it. -/
def rotateLeft (v : Word) (n : Nat) : Word :=
  if n = 0 then v else (v <<< n) ||| (v >>> (32 - n))

/-- Rotate right by 0 to 31 places, as R171 writes it. -/
def rotateRight (v : Word) (n : Nat) : Word :=
  if n = 0 then v else (v >>> n) ||| (v <<< (32 - n))

/-- The effective address `ea = x[A] + sext_32(IMM16)` modulo 2^32 (R210). -/
def State.ea (s : State) (a : RegIdx) (imm16 : BitVec 16) : Word := s.x a + immS imm16

/-- A data access of width `n` is naturally aligned: `ea mod n = 0` (spec/20_memory.md R61). -/
def dataAligned (ea : Word) (n : Nat) : Bool := ea.toNat % n = 0

/-- The value a load of `n` bytes gives: the little-endian value, sign- or zero-extended from `8n` bits (R212). -/
def loadedValue (n : Nat) (signed : Bool) (bs : List Byte) : Word :=
  let v := BitVec.ofNat (8 * n) (leNat bs)
  if signed then v.signExtend 32 else v.zeroExtend 32

/-- `Load(n, signed, cls)` (R212). -/
def load (n : Nat) (signed : Bool) (acc : Access) (b a : RegIdx) (imm16 : BitVec 16) (s : State) : Result :=
  let ea := s.ea a imm16
  if dataAligned ea n then
    let bs := s.memRead ea n acc
    if bs.length < n then stopWith .dataAccessFault s
    else writeBack b (loadedValue n signed bs) s
  else stopWith .misalignedDataAddress s

/-- `Store(n, cls)` (R213). A store that faults part-way stops in the state with its first bytes written. -/
def store (n : Nat) (acc : Access) (b a : RegIdx) (imm16 : BitVec 16) (s : State) : Result :=
  let ea := s.ea a imm16
  if dataAligned ea n then
    let r := s.memWrite ea (bytesLe (s.x b) n) acc
    if r.2 < n then stopWith .dataAccessFault r.1 else complete r.1
  else stopWith .misalignedDataAddress s

/-- The target of a branch: `pc + 4 + sext_32(IMM16)` modulo 2^32 (section 2 of spec/46_control_transfer.md). -/
def State.branchTarget (s : State) (imm16 : BitVec 16) : Word := s.pc + 4 + immS imm16

/-- The target of `call` and `jmpi`: `{pc[31:28], IMM26, 0b00}` (R238, R239). -/
def State.callTarget (s : State) (imm26 : BitVec 26) : Word :=
  (s.pc &&& 0xF0000000#32) ||| (imm26.zeroExtend 32 <<< 2)

/-- A conditional branch: the target is tested and taken only when the condition holds (R230). -/
def branchIf (taken : Bool) (imm16 : BitVec 16) (s : State) : Result :=
  if taken then jumpTo (s.branchTarget imm16) s else complete s

/-- A register form: `x[C] <- f(x[A], x[B])` (spec/42_alu_register.md R150). -/
def regOp (f : Word → Word → Word) (c a b : RegIdx) (s : State) : Result := writeBack c (f (s.x a) (s.x b)) s

/-- A form with one register and a value from the instruction: `x[D] <- f(x[A], v)` (R150, spec/44_immediate.md R190). -/
def immOp (f : Word → Word → Word) (d a : RegIdx) (v : Word) (s : State) : Result := writeBack d (f (s.x a) v) s

end Sys2Proof.Machine
end

