-- ==== Sys2Proof/Machine/Alu.lean ====
section
/-! DEFINITION. Register-register arithmetic, logic, compare, shift and rotate (spec/42_alu_register.md). No instruction of
this file can stop: its format was checked before (R150). Every one completes with `pc <- pc + 4`. -/

namespace Sys2Proof.Machine

/-! ### Add, subtract, logic -/

/-- `add rC, rA, rB` (R151): the sum modulo 2^32. -/
def execAdd (c a b : RegIdx) (s : State) : Result := regOp (fun u v => u + v) c a b s

/-- `sub rC, rA, rB` (R152): the difference modulo 2^32. -/
def execSub (c a b : RegIdx) (s : State) : Result := regOp (fun u v => u - v) c a b s

/-- `and rC, rA, rB` (R153): bitwise and. -/
def execAnd (c a b : RegIdx) (s : State) : Result := regOp (fun u v => u &&& v) c a b s

/-- `or rC, rA, rB` (R154): bitwise or. -/
def execOr (c a b : RegIdx) (s : State) : Result := regOp (fun u v => u ||| v) c a b s

/-- `xor rC, rA, rB` (R155): bitwise exclusive or. -/
def execXor (c a b : RegIdx) (s : State) : Result := regOp (fun u v => u ^^^ v) c a b s

/-- `nor rC, rA, rB` (R156): the complement of bitwise or. -/
def execNor (c a b : RegIdx) (s : State) : Result := regOp (fun u v => ~~~(u ||| v)) c a b s

/-! ### Compares -/

/-- `cmpeq rC, rA, rB` (R157): 1 when equal, else 0. -/
def execCmpeq (c a b : RegIdx) (s : State) : Result := regOp (fun u v => truthWord (u = v)) c a b s

/-- `cmpne rC, rA, rB` (R158): 1 when not equal, else 0. -/
def execCmpne (c a b : RegIdx) (s : State) : Result := regOp (fun u v => truthWord (u ≠ v)) c a b s

/-- `cmpge rC, rA, rB` (R159): 1 when `rA >= rB` signed, else 0. -/
def execCmpge (c a b : RegIdx) (s : State) : Result := regOp (fun u v => truthWord (geS u v)) c a b s

/-- `cmpgeu rC, rA, rB` (R160): 1 when `rA >= rB` unsigned, else 0. -/
def execCmpgeu (c a b : RegIdx) (s : State) : Result := regOp (fun u v => truthWord (geU u v)) c a b s

/-- `cmplt rC, rA, rB` (R161): 1 when `rA < rB` signed, else 0. -/
def execCmplt (c a b : RegIdx) (s : State) : Result := regOp (fun u v => truthWord (ltS u v)) c a b s

/-- `cmpltu rC, rA, rB` (R162): 1 when `rA < rB` unsigned, else 0. -/
def execCmpltu (c a b : RegIdx) (s : State) : Result := regOp (fun u v => truthWord (ltU u v)) c a b s

/-! ### Shifts and rotates -/

/-- `sll rC, rA, rB` (R163): shift left by `x[B][4:0]`, zero fill. -/
def execSll (c a b : RegIdx) (s : State) : Result := regOp (fun u v => u <<< regCount v) c a b s

/-- `slli rC, rA, IMM5` (R164): shift left by `IMM5`, zero fill. -/
def execSlli (c a : RegIdx) (imm5 : BitVec 5) (s : State) : Result :=
  writeBack c (s.x a <<< immCount imm5) s

/-- `srl rC, rA, rB` (R165): logical shift right by `x[B][4:0]`. -/
def execSrl (c a b : RegIdx) (s : State) : Result := regOp (fun u v => u >>> regCount v) c a b s

/-- `srli rC, rA, IMM5` (R166): logical shift right by `IMM5`. -/
def execSrli (c a : RegIdx) (imm5 : BitVec 5) (s : State) : Result :=
  writeBack c (s.x a >>> immCount imm5) s

/-- `sra rC, rA, rB` (R167): arithmetic shift right by `x[B][4:0]`: vacated bits copy bit 31. -/
def execSra (c a b : RegIdx) (s : State) : Result := regOp (fun u v => u.sshiftRight (regCount v)) c a b s

/-- `srai rC, rA, IMM5` (R168): arithmetic shift right by `IMM5`. -/
def execSrai (c a : RegIdx) (imm5 : BitVec 5) (s : State) : Result :=
  writeBack c ((s.x a).sshiftRight (immCount imm5)) s

/-- `rol rC, rA, rB` (R169): rotate left by `x[B][4:0]`. -/
def execRol (c a b : RegIdx) (s : State) : Result := regOp (fun u v => rotateLeft u (regCount v)) c a b s

/-- `roli rC, rA, IMM5` (R170): rotate left by `IMM5`. -/
def execRoli (c a : RegIdx) (imm5 : BitVec 5) (s : State) : Result :=
  writeBack c (rotateLeft (s.x a) (immCount imm5)) s

/-- `ror rC, rA, rB` (R171): rotate right by `x[B][4:0]`. -/
def execRor (c a b : RegIdx) (s : State) : Result := regOp (fun u v => rotateRight u (regCount v)) c a b s

end Sys2Proof.Machine
end

