-- ==== Sys2Proof/Machine/Control.lean ====
section
/-! DEFINITION. Control transfer (spec/46_control_transfer.md). No delay slot; a computed target that is not a multiple of 4 stops the
instruction and nothing changes, no link register either (R230). -/

namespace Sys2Proof.Machine

/-- `br label` (R231): always taken. -/
def execBr (imm16 : BitVec 16) (s : State) : Result := jumpTo (s.branchTarget imm16) s

/-- `beq rA, rB, label` (R232): taken when equal. -/
def execBeq (a b : RegIdx) (imm16 : BitVec 16) (s : State) : Result :=
  branchIf (s.x a = s.x b) imm16 s

/-- `bne rA, rB, label` (R233): taken when not equal. -/
def execBne (a b : RegIdx) (imm16 : BitVec 16) (s : State) : Result :=
  branchIf (s.x a ≠ s.x b) imm16 s

/-- `bge rA, rB, label` (R234): taken when `rA >= rB`, signed. -/
def execBge (a b : RegIdx) (imm16 : BitVec 16) (s : State) : Result :=
  branchIf (geS (s.x a) (s.x b)) imm16 s

/-- `bgeu rA, rB, label` (R235): taken when `rA >= rB`, unsigned. -/
def execBgeu (a b : RegIdx) (imm16 : BitVec 16) (s : State) : Result :=
  branchIf (geU (s.x a) (s.x b)) imm16 s

/-- `blt rA, rB, label` (R236): taken when `rA < rB`, signed. -/
def execBlt (a b : RegIdx) (imm16 : BitVec 16) (s : State) : Result :=
  branchIf (ltS (s.x a) (s.x b)) imm16 s

/-- `bltu rA, rB, label` (R237): taken when `rA < rB`, unsigned. -/
def execBltu (a b : RegIdx) (imm16 : BitVec 16) (s : State) : Result :=
  branchIf (ltU (s.x a) (s.x b)) imm16 s

/-- `call label` (R238): `r31 <- pc + 4`, then to `{pc[31:28], IMM26, 00}`, which is always aligned. -/
def execCall (imm26 : BitVec 26) (s : State) : Result :=
  .next ((s.setX raIdx s.nextPc).setPc (s.callTarget imm26))

/-- `jmpi label` (R239): to `{pc[31:28], IMM26, 00}`, no link. -/
def execJmpi (imm26 : BitVec 26) (s : State) : Result := .next (s.setPc (s.callTarget imm26))

/-- `jmp rA` (R240). -/
def execJmp (a : RegIdx) (s : State) : Result := jumpTo (s.x a) s

/-- `callr rA` (R241): the old `rA` is the target, also when `rA` is `r31`; a misaligned one writes no link. -/
def execCallr (a : RegIdx) (s : State) : Result :=
  if wordAligned (s.x a) then .next ((s.setX raIdx s.nextPc).setPc (s.x a))
  else stopWith .misalignedDestinationAddress s

/-- `ret` (R242): to `r31`. -/
def execRet (s : State) : Result := jumpTo (s.x raIdx) s

/-- `nextpc rC` (R243): `x[C] <- pc + 4`; no transfer. -/
def execNextpc (c : RegIdx) (s : State) : Result := writeBack c s.nextPc s

end Sys2Proof.Machine
end

