-- ==== Sys2Proof/Machine/Imm.lean ====
section
/-! DEFINITION. Immediate arithmetic, logic and compare (spec/44_immediate.md), without `ori`, whose encoding with A = B = 0 is
the syscall trigger and which stands with the system instructions. No instruction of this file can stop (R190). -/

namespace Sys2Proof.Machine

/-- `addi rB, rA, IMM16` (R191): the sum with the sign-extended immediate. -/
def execAddi (b a : RegIdx) (imm16 : BitVec 16) (s : State) : Result :=
  immOp (fun u v => u + v) b a (immS imm16) s

/-- `andi rB, rA, IMM16` (R192): and with the zero-extended immediate. -/
def execAndi (b a : RegIdx) (imm16 : BitVec 16) (s : State) : Result :=
  immOp (fun u v => u &&& v) b a (immU imm16) s

/-- `xori rB, rA, IMM16` (R194): exclusive or with the zero-extended immediate. -/
def execXori (b a : RegIdx) (imm16 : BitVec 16) (s : State) : Result :=
  immOp (fun u v => u ^^^ v) b a (immU imm16) s

/-- `andhi rB, rA, IMM16` (R195): and with the immediate in the high half. -/
def execAndhi (b a : RegIdx) (imm16 : BitVec 16) (s : State) : Result :=
  immOp (fun u v => u &&& v) b a (immHigh imm16) s

/-- `orhi rB, rA, IMM16` (R196): or with the immediate in the high half. -/
def execOrhi (b a : RegIdx) (imm16 : BitVec 16) (s : State) : Result :=
  immOp (fun u v => u ||| v) b a (immHigh imm16) s

/-- `xorhi rB, rA, IMM16` (R197): exclusive or with the immediate in the high half. -/
def execXorhi (b a : RegIdx) (imm16 : BitVec 16) (s : State) : Result :=
  immOp (fun u v => u ^^^ v) b a (immHigh imm16) s

/-- `cmpeqi rB, rA, IMM16` (R198): 1 when equal to the sign-extended immediate, else 0. -/
def execCmpeqi (b a : RegIdx) (imm16 : BitVec 16) (s : State) : Result :=
  immOp (fun u v => truthWord (u = v)) b a (immS imm16) s

/-- `cmpnei rB, rA, IMM16` (R199): 1 when not equal to the sign-extended immediate, else 0. -/
def execCmpnei (b a : RegIdx) (imm16 : BitVec 16) (s : State) : Result :=
  immOp (fun u v => truthWord (u ≠ v)) b a (immS imm16) s

/-- `cmpgei rB, rA, IMM16` (R200): 1 when at least the sign-extended immediate, signed, else 0. -/
def execCmpgei (b a : RegIdx) (imm16 : BitVec 16) (s : State) : Result :=
  immOp (fun u v => truthWord (geS u v)) b a (immS imm16) s

/-- `cmplti rB, rA, IMM16` (R201): 1 when less than the sign-extended immediate, signed, else 0. -/
def execCmplti (b a : RegIdx) (imm16 : BitVec 16) (s : State) : Result :=
  immOp (fun u v => truthWord (ltS u v)) b a (immS imm16) s

/-- `cmpgeui rB, rA, IMM16` (R202): 1 when at least the zero-extended immediate, unsigned, else 0. -/
def execCmpgeui (b a : RegIdx) (imm16 : BitVec 16) (s : State) : Result :=
  immOp (fun u v => truthWord (geU u v)) b a (immU imm16) s

/-- `cmpltui rB, rA, IMM16` (R203): 1 when less than the zero-extended immediate, unsigned, else 0. -/
def execCmpltui (b a : RegIdx) (imm16 : BitVec 16) (s : State) : Result :=
  immOp (fun u v => truthWord (ltU u v)) b a (immU imm16) s

end Sys2Proof.Machine
end

