-- ==== Sys2Proof/Machine/LoadStore.lean ====
section
/-! DEFINITION. Loads and stores and their io variants (spec/45_load_store.md), each one the procedure of R212 or R213 with its
width, its extension and its access class. -/

namespace Sys2Proof.Machine

/-! ### Loads and stores -/

/-- `ldb rB, IMM16(rA)` (R214): one byte, sign-extended. -/
def execLdb (b a : RegIdx) (imm16 : BitVec 16) (s : State) : Result := load 1 true dataAccess b a imm16 s

/-- `ldbu rB, IMM16(rA)` (R215): one byte, zero-extended. -/
def execLdbu (b a : RegIdx) (imm16 : BitVec 16) (s : State) : Result := load 1 false dataAccess b a imm16 s

/-- `ldh rB, IMM16(rA)` (R216): two bytes, sign-extended. -/
def execLdh (b a : RegIdx) (imm16 : BitVec 16) (s : State) : Result := load 2 true dataAccess b a imm16 s

/-- `ldhu rB, IMM16(rA)` (R217): two bytes, zero-extended. -/
def execLdhu (b a : RegIdx) (imm16 : BitVec 16) (s : State) : Result := load 2 false dataAccess b a imm16 s

/-- `ldw rB, IMM16(rA)` (R218): four bytes. -/
def execLdw (b a : RegIdx) (imm16 : BitVec 16) (s : State) : Result := load 4 false dataAccess b a imm16 s

/-- `stb rB, IMM16(rA)` (R219): the low byte of `rB`. -/
def execStb (b a : RegIdx) (imm16 : BitVec 16) (s : State) : Result := store 1 dataAccess b a imm16 s

/-- `sth rB, IMM16(rA)` (R220): the low halfword of `rB`. -/
def execSth (b a : RegIdx) (imm16 : BitVec 16) (s : State) : Result := store 2 dataAccess b a imm16 s

/-- `stw rB, IMM16(rA)` (R221): all of `rB`. -/
def execStw (b a : RegIdx) (imm16 : BitVec 16) (s : State) : Result := store 4 dataAccess b a imm16 s

/-! ### The io variants -/

/-- `ldbio rB, IMM16(rA)` (R222): one byte, sign-extended past the cache. -/
def execLdbio (b a : RegIdx) (imm16 : BitVec 16) (s : State) : Result := load 1 true ioAccess b a imm16 s

/-- `ldbuio rB, IMM16(rA)` (R223): one byte, zero-extended past the cache. -/
def execLdbuio (b a : RegIdx) (imm16 : BitVec 16) (s : State) : Result := load 1 false ioAccess b a imm16 s

/-- `ldhio rB, IMM16(rA)` (R224): two bytes, sign-extended past the cache. -/
def execLdhio (b a : RegIdx) (imm16 : BitVec 16) (s : State) : Result := load 2 true ioAccess b a imm16 s

/-- `ldhuio rB, IMM16(rA)` (R225): two bytes, zero-extended past the cache. -/
def execLdhuio (b a : RegIdx) (imm16 : BitVec 16) (s : State) : Result := load 2 false ioAccess b a imm16 s

/-- `ldwio rB, IMM16(rA)` (R226): four bytes past the cache. -/
def execLdwio (b a : RegIdx) (imm16 : BitVec 16) (s : State) : Result := load 4 false ioAccess b a imm16 s

/-- `stbio rB, IMM16(rA)` (R227): the low byte of `rB` past the cache. -/
def execStbio (b a : RegIdx) (imm16 : BitVec 16) (s : State) : Result := store 1 ioAccess b a imm16 s

/-- `sthio rB, IMM16(rA)` (R228): the low halfword of `rB` past the cache. -/
def execSthio (b a : RegIdx) (imm16 : BitVec 16) (s : State) : Result := store 2 ioAccess b a imm16 s

/-- `stwio rB, IMM16(rA)` (R229): all of `rB` past the cache. -/
def execStwio (b a : RegIdx) (imm16 : BitVec 16) (s : State) : Result := store 4 ioAccess b a imm16 s

end Sys2Proof.Machine
end

