-- ==== Sys2Proof/Machine/MulDiv.lean ====
section
/-! DEFINITION. Multiply and divide (spec/43_multiply_divide.md). Each instruction is gated by a feature flag (R180); with the
flag set it completes, whatever its operands: there is no divide stop. Products and quotients are taken over the
integers and then cut to 32 bits (R7 `word`). -/

namespace Sys2Proof.Machine

/-- `word(u(x) * u(y))`, the low 32 bits of the product (R181). -/
def mulLow (u v : Word) : Word := BitVec.ofNat 32 (u.toNat * v.toNat)

/-- Bits 63..32 of the signed product: floor division by 2^32 (R183). -/
def mulHighSS (u v : Word) : Word := BitVec.ofInt 32 ((u.toInt * v.toInt).fdiv (2 ^ 32))

/-- Bits 63..32 of the product of a signed and an unsigned word (R184). -/
def mulHighSU (u v : Word) : Word := BitVec.ofInt 32 ((u.toInt * (v.toNat : Int)).fdiv (2 ^ 32))

/-- Bits 63..32 of the unsigned product (R185). -/
def mulHighUU (u v : Word) : Word := BitVec.ofNat 32 (u.toNat * v.toNat / 2 ^ 32)

/-- Signed division with the two special results, else the quotient rounded toward zero (R186;
spec/90_conflicts.md C1). -/
def divSigned (u v : Word) : Word :=
  if v = 0 then 0x80000000#32
  else if u = 0x80000000#32 && v = 0xFFFFFFFF#32 then 0x7FFFFFFF#32
  else BitVec.ofInt 32 (u.toInt.tdiv v.toInt)

/-- Unsigned division; by zero it gives 0xFFFFFFFF (R187). -/
def divUnsigned (u v : Word) : Word :=
  if v = 0 then 0xFFFFFFFF#32 else BitVec.ofNat 32 (u.toNat / v.toNat)

/-- `mul rC, rA, rB` (R181): the low word of the product. -/
def execMul (c a b : RegIdx) (s : State) : Result := gated .mul s (regOp mulLow c a b s)

/-- `muli rB, rA, IMM16` (R182): the low word of the product with the sign-extended immediate. -/
def execMuli (b a : RegIdx) (imm16 : BitVec 16) (s : State) : Result :=
  gated .muli s (immOp (fun u v => BitVec.ofInt 32 (u.toInt * v.toInt)) b a (immS imm16) s)

/-- `mulxss rC, rA, rB` (R183): the high word of the signed product. -/
def execMulxss (c a b : RegIdx) (s : State) : Result := gated .mulxss s (regOp mulHighSS c a b s)

/-- `mulxsu rC, rA, rB` (R184): the high word of the product of `rA` signed and `rB` unsigned. -/
def execMulxsu (c a b : RegIdx) (s : State) : Result := gated .mulxsu s (regOp mulHighSU c a b s)

/-- `mulxuu rC, rA, rB` (R185): the high word of the unsigned product. -/
def execMulxuu (c a b : RegIdx) (s : State) : Result := gated .mulxuu s (regOp mulHighUU c a b s)

/-- `div rC, rA, rB` (R186): signed quotient. -/
def execDiv (c a b : RegIdx) (s : State) : Result := gated .div s (regOp divSigned c a b s)

/-- `divu rC, rA, rB` (R187): unsigned quotient. -/
def execDivu (c a b : RegIdx) (s : State) : Result := gated .divu s (regOp divUnsigned c a b s)

end Sys2Proof.Machine
end

