-- ==== Sys2Proof/Machine/System.lean ====
section
/-! DEFINITION. System instructions, debug stops, control-register access and the syscall trigger (spec/47_system.md). -/

namespace Sys2Proof.Machine

/-- `break IMM5` (R251): the stop `Breakpoint`; `IMM5` is ignored and nothing is written. -/
def execBrk (_imm5 : BitVec 5) (s : State) : Result := stopWith .breakpoint s

/-- `trap IMM5` (R252): the same stop. -/
def execTrap (_imm5 : BitVec 5) (s : State) : Result := stopWith .breakpoint s

/-- `eret` (R254): return to `r29` (`ea`) with `status <- estatus`. -/
def execEret (s : State) : Result := returnTo (s.x eaIdx) 1 s

/-- `bret` (R255): return to `r30` (`ba`) with `status <- bstatus`. -/
def execBret (s : State) : Result := returnTo (s.x baIdx) 2 s

/-- `rdctl rC, ctlN` (R256). An index of 16 or more names no register and is an illegal format (R86, R91): no word
decodes to one. -/
def execRdctl (c : RegIdx) (n : BitVec 5) (s : State) : Result :=
  if h : n.toNat < 16 then supervisorOnly s (writeBack c (s.ctlReg ⟨n.toNat, h⟩) s)
  else stopWith .illegalInstructionFormat s

/-- `wrctl ctlN, rA` (R257): writes to `ipending` (4) and `cpuid` (5) are ignored and the instruction completes. -/
def execWrctl (n : BitVec 5) (a : RegIdx) (s : State) : Result :=
  if h : n.toNat < 16 then
    supervisorOnly s (complete (if n = 4 || n = 5 then s else s.setCtl ⟨n.toNat, h⟩ (s.x a)))
  else stopWith .illegalInstructionFormat s

/-- The `write` syscall (R258): `fd`, `ptr`, `len` in `r4`, `r5`, `r6`; a short read stops and outputs nothing; only
the file descriptors 1 and 2 output. -/
def syscallWrite (s : State) : Result :=
  let len := (s.x 6).toNat
  let bs := s.memRead (s.x 5) len dataAccess
  if bs.length < len then stopWith .dataAccessFault s
  else if s.x 4 = 1 || s.x 4 = 2 then complete { s with out := s.out ++ [(s.x 4, bs)] }
  else complete s

/-- The syscall trigger `ori r0, r0, IMM16` (R258): `_exit`, `write`, or a no-operation. -/
def syscall (imm16 : BitVec 16) (s : State) : Result :=
  if imm16 = Config.magicExit then exitWith ((s.x 4).setWidth 8) s
  else if imm16 = s.cfg.magicWrite then syscallWrite s
  else complete s

/-- `ori rB, rA, IMM16` (spec/44_immediate.md R193): the syscall trigger when A = B = 0, else or with the zero-extended
immediate. -/
def execOri (b a : RegIdx) (imm16 : BitVec 16) (s : State) : Result :=
  if a = 0 && b = 0 then syscall imm16 s else immOp (fun u v => u ||| v) b a (immU imm16) s

end Sys2Proof.Machine
end

