-- ==== Sys2Proof/Machine/Dispatch.lean ====
section
/-! DEFINITION. One arm per instruction, in the order of spec/opcode_table.json. -/

namespace Sys2Proof.Machine

def exec (i : Instr) (s : State) : Host.Outcome State Fault Refusal :=
  match i with
  | .call imm26 => Sys2Proof.Machine.execCall imm26 s
  | .jmpi imm26 => Sys2Proof.Machine.execJmpi imm26 s
  | .ldbu b a imm16 => Sys2Proof.Machine.execLdbu b a imm16 s
  | .stb b a imm16 => Sys2Proof.Machine.execStb b a imm16 s
  | .ldb b a imm16 => Sys2Proof.Machine.execLdb b a imm16 s
  | .ldhu b a imm16 => Sys2Proof.Machine.execLdhu b a imm16 s
  | .sth b a imm16 => Sys2Proof.Machine.execSth b a imm16 s
  | .ldh b a imm16 => Sys2Proof.Machine.execLdh b a imm16 s
  | .stw b a imm16 => Sys2Proof.Machine.execStw b a imm16 s
  | .ldw b a imm16 => Sys2Proof.Machine.execLdw b a imm16 s
  | .ldbuio b a imm16 => Sys2Proof.Machine.execLdbuio b a imm16 s
  | .stbio b a imm16 => Sys2Proof.Machine.execStbio b a imm16 s
  | .ldbio b a imm16 => Sys2Proof.Machine.execLdbio b a imm16 s
  | .ldhuio b a imm16 => Sys2Proof.Machine.execLdhuio b a imm16 s
  | .sthio b a imm16 => Sys2Proof.Machine.execSthio b a imm16 s
  | .ldhio b a imm16 => Sys2Proof.Machine.execLdhio b a imm16 s
  | .stwio b a imm16 => Sys2Proof.Machine.execStwio b a imm16 s
  | .ldwio b a imm16 => Sys2Proof.Machine.execLdwio b a imm16 s
  | .addi b a imm16 => Sys2Proof.Machine.execAddi b a imm16 s
  | .andi b a imm16 => Sys2Proof.Machine.execAndi b a imm16 s
  | .ori b a imm16 => Sys2Proof.Machine.execOri b a imm16 s
  | .xori b a imm16 => Sys2Proof.Machine.execXori b a imm16 s
  | .andhi b a imm16 => Sys2Proof.Machine.execAndhi b a imm16 s
  | .orhi b a imm16 => Sys2Proof.Machine.execOrhi b a imm16 s
  | .xorhi b a imm16 => Sys2Proof.Machine.execXorhi b a imm16 s
  | .cmpeqi b a imm16 => Sys2Proof.Machine.execCmpeqi b a imm16 s
  | .cmpnei b a imm16 => Sys2Proof.Machine.execCmpnei b a imm16 s
  | .cmpgei b a imm16 => Sys2Proof.Machine.execCmpgei b a imm16 s
  | .cmplti b a imm16 => Sys2Proof.Machine.execCmplti b a imm16 s
  | .cmpgeui b a imm16 => Sys2Proof.Machine.execCmpgeui b a imm16 s
  | .cmpltui b a imm16 => Sys2Proof.Machine.execCmpltui b a imm16 s
  | .muli b a imm16 => Sys2Proof.Machine.execMuli b a imm16 s
  | .br imm16 => Sys2Proof.Machine.execBr imm16 s
  | .beq a b imm16 => Sys2Proof.Machine.execBeq a b imm16 s
  | .bne a b imm16 => Sys2Proof.Machine.execBne a b imm16 s
  | .bge a b imm16 => Sys2Proof.Machine.execBge a b imm16 s
  | .bgeu a b imm16 => Sys2Proof.Machine.execBgeu a b imm16 s
  | .blt a b imm16 => Sys2Proof.Machine.execBlt a b imm16 s
  | .bltu a b imm16 => Sys2Proof.Machine.execBltu a b imm16 s
  | .add c a b => Sys2Proof.Machine.execAdd c a b s
  | .sub c a b => Sys2Proof.Machine.execSub c a b s
  | .and c a b => Sys2Proof.Machine.execAnd c a b s
  | .or c a b => Sys2Proof.Machine.execOr c a b s
  | .xor c a b => Sys2Proof.Machine.execXor c a b s
  | .nor c a b => Sys2Proof.Machine.execNor c a b s
  | .cmpeq c a b => Sys2Proof.Machine.execCmpeq c a b s
  | .cmpne c a b => Sys2Proof.Machine.execCmpne c a b s
  | .cmpge c a b => Sys2Proof.Machine.execCmpge c a b s
  | .cmpgeu c a b => Sys2Proof.Machine.execCmpgeu c a b s
  | .cmplt c a b => Sys2Proof.Machine.execCmplt c a b s
  | .cmpltu c a b => Sys2Proof.Machine.execCmpltu c a b s
  | .sll c a b => Sys2Proof.Machine.execSll c a b s
  | .srl c a b => Sys2Proof.Machine.execSrl c a b s
  | .sra c a b => Sys2Proof.Machine.execSra c a b s
  | .rol c a b => Sys2Proof.Machine.execRol c a b s
  | .ror c a b => Sys2Proof.Machine.execRor c a b s
  | .mul c a b => Sys2Proof.Machine.execMul c a b s
  | .mulxss c a b => Sys2Proof.Machine.execMulxss c a b s
  | .mulxsu c a b => Sys2Proof.Machine.execMulxsu c a b s
  | .mulxuu c a b => Sys2Proof.Machine.execMulxuu c a b s
  | .div c a b => Sys2Proof.Machine.execDiv c a b s
  | .divu c a b => Sys2Proof.Machine.execDivu c a b s
  | .slli c a imm5 => Sys2Proof.Machine.execSlli c a imm5 s
  | .srli c a imm5 => Sys2Proof.Machine.execSrli c a imm5 s
  | .srai c a imm5 => Sys2Proof.Machine.execSrai c a imm5 s
  | .roli c a imm5 => Sys2Proof.Machine.execRoli c a imm5 s
  | .jmp a => Sys2Proof.Machine.execJmp a s
  | .callr a => Sys2Proof.Machine.execCallr a s
  | .ret => Sys2Proof.Machine.execRet s
  | .nextpc c => Sys2Proof.Machine.execNextpc c s
  | .brk imm5 => Sys2Proof.Machine.execBrk imm5 s
  | .trap imm5 => Sys2Proof.Machine.execTrap imm5 s
  | .eret => Sys2Proof.Machine.execEret s
  | .bret => Sys2Proof.Machine.execBret s
  | .rdctl c n => Sys2Proof.Machine.execRdctl c n s
  | .wrctl n a => Sys2Proof.Machine.execWrctl n a s

end Sys2Proof.Machine
end

