-- ==== Sys2Proof/Machine/Loop.lean ====
section
/-! DEFINITION. The one-instruction `Step` (spec/41_interpreter_step.md R133) and one iteration of the run loop (R131,
R132). -/

namespace Sys2Proof.Machine

/-- Points 3 to 7 of `Step` for a word of the base variant: an unrecognised word is unimplemented (R136); a recognised
word of the wrong format is illegal (R137), but for a feature-gated instruction without its feature, whose gate comes
first (R133 points 4 and 5); else the instruction's rule (which opens with its own gate). -/
def runBase (w : Word) (s : State) : Result :=
  match decode w with
  | .unrecognised    => stopWith .unimplementedInstruction s
  | .illegalFormat o => gated o s (stopWith .illegalInstructionFormat s)
  | .instr i         => exec i s

/-- Points 3 to 7 of `Step` for a word of the dpx variant (R142): recognition, gate and format check with the rows of
`Cfg.DPX_OPTABLE`. `break` and `trap` need no operand and stop (spec/47_system.md R253); every other instruction is
refused, its operands being in no source (log 7). -/
def runDpx (w : Word) (s : State) : Result :=
  match dpxClassify s.cfg w with
  | none   => stopWith .unimplementedInstruction s
  | some r =>
    gated r.mnemonic s
      (if dpxFormatOk r w then
        match r.mnemonic with
        | .brk  => exec (.brk 0) s
        | .trap => exec (.trap 0) s
        | o     => .refused (.dpxInstruction o)
      else stopWith .illegalInstructionFormat s)

/-- `Step()` (R133): the alignment of `pc`, the fetch, then the word. Points 1 and 2 do not depend on the variant. -/
def stepInstr (s : State) : Result :=
  if wordAligned s.pc then
    match s.fetch with
    | none   => stopWith .instructionAccessFault s
    | some w =>
      match s.cfg.variant with
      | .base => runBase w s
      | .dpx  => runDpx w s
  else stopWith .misalignedDestinationAddress s

/-- The entry of `step_or_run` when the machine is stopped: the reason is cleared and `es` is `running` (R131). A
machine that is already running stays as it is. -/
def enter (s : State) : State :=
  match s.es with
  | .stopped => { s with es := .running, sr := none }
  | .running => s
  | .exited  => s

/-- The end of an iteration: after an instruction that left the machine running, a single step stops with
`StepComplete` (R132). -/
def finishStep (s : State) : State :=
  if s.es = .running && s.singleStep then s.raiseStop .stepComplete else s

/-- The same on the answer of an instruction. -/
def finishResult : Result → Result
  | .next s    => .next (finishStep s)
  | .fault r   => .fault r
  | .refused r => .refused r

/-- One iteration of the run loop: `hirq` is sampled and cleared first (R132), else one `Step`. -/
def loopBody (s : State) : Result :=
  if s.hirq then .next ({ s with hirq := false }.raiseStop .interrupted)
  else finishResult (stepInstr s)

/-- One iteration, entering `step_or_run` first where the machine is stopped; on an exited machine the call returns at
once and changes nothing (R131). Log 5. -/
def iteration (s : State) : Result :=
  match s.es with
  | .exited  => .next s
  | .running => loopBody s
  | .stopped => loopBody (enter s)

/-- A section of four bytes with flag `I` alone, for the word that `withFetchWord` places. -/
def fetchSection (p : Nat) : Section :=
  { name := "fetch", base := p, limit := p + 4,
    flags := { instr := true, data := false, noCache := false, readOnly := false }, stamp := 0 }

/-- The state with the word of `w` placed where the next step fetches and runs it. Where the four bytes at `pc` can
be fetched already, only they change; else a four-byte section with flag `I` takes the place of any section that meets
them. `pc` is rounded down to a word; an exited machine is made stopped, a pending `hirq` is dropped and the variant
is `base`, so that the very next step runs the word. Log 10. -/
def placeFetchWord (s : State) (w : Word) : State :=
  let pc := s.pc &&& 0xFFFFFFFC#32
  let p := lookupAddr pc
  let t : State :=
    { s with
      pc   := pc
      es   := if s.es = .exited then .stopped else s.es
      hirq := false
      cfg  := { s.cfg with variant := .base } }
  if (s.memRead pc 4 fetchAccess).length = 4 then { t with mem := Memory.setBytes s.mem p (bytesLe w 4) }
  else
    let kept := sectionsOutside s.sections p (p + 4)
    { t with
      sections := insertSection (fetchSection p) kept
      mem := Memory.setBytes (s.mem.filter (fun c => kept.any (fun u => u.covers c.1))) p (bytesLe w 4) }

end Sys2Proof.Machine
end

