-- ==== Sys2Proof/Machine/Step.lean ====
section
/-! DEFINITION. The machine's step: one iteration of the run loop of spec/41_interpreter_step.md R132 (log 5). -/

namespace Sys2Proof.Machine

/-- One step. -/
def step (s : State) : Host.Outcome State Fault Refusal := iteration s

/-- The state with an instruction stored where `step` fetches next: the low `nbits` bits of `w`, numbered as
spec/opcode_table.json numbers them, every bit above them 0. -/
def State.withFetchWord (s : State) (nbits w : Nat) : State :=
  placeFetchWord s (BitVec.ofNat 32 (w % 2 ^ nbits))

end Sys2Proof.Machine
end

