-- ==== Sys2Proof/Machine/HostInterface.lean ====
section
/-! DEFINITION. The host's operations (spec/20_memory.md R53, R54, R63; spec/10_state.md R34 to R36;
spec/41_interpreter_step.md R131, R132; spec/70_reset_and_hazards.md R300). They are no instructions: the host calls
them between runs. `none` is a refused call, which changes nothing (R35, spec/93_implementation_defined.md U8); a call
while `es = running`, which one control thread cannot make, is refused too (log 13). -/

namespace Sys2Proof.Machine

/-- The host has control (R63). -/
def State.hostHasControl (s : State) : Bool := s.es ≠ .running

/-- `reset()` (R300, R36): every register and the execution state as after reset, the sections freed (R302). The
configuration and the model's own fields stay. -/
def hostReset (s : State) : Option State :=
  if s.hostHasControl then some (State.resetOf s.cfg s.singleStep s.freeCtr) else none

/-- A section shares at least one byte address with `lo` up to `hi` (R52). -/
def Section.meets (t : Section) (lo hi : Nat) : Bool := max t.base lo < min t.limit hi

/-- `add_memory(name, base, flags, optional_initial_bytes, length)` (R53): refused when the length is 0 or the range
passes 2^32 (R54), or when it shares a byte with a section; else the section is added with its initial bytes, and the
bytes not given are free values under a new stamp (log 4). Initial bytes past the length are not used (log 9). -/
def addMemory (s : State) (name : String) (base : Nat) (flags : SectionFlags) (initial : List Byte)
    (length : Nat) : Option State :=
  if s.hostHasControl && length ≠ 0 && base + length ≤ 2 ^ 32
      && !s.sections.any (fun t => t.meets base (base + length)) then
    some { s with
      sections := insertSection ⟨name, base, base + length, flags, s.freeCtr⟩ s.sections
      mem      := Memory.setBytes (Memory.eraseRange s.mem base (base + length)) base (initial.take length)
      freeCtr  := s.freeCtr + 1 }
  else none

/-- Host memory read: the primitive of R57 with the class the host asks for (R63). -/
def hostRead (s : State) (addr : Word) (n : Nat) (acc : Access) : Option (List Byte) :=
  if s.hostHasControl then some (s.memRead addr n acc) else none

/-- Host memory write: the primitive of R58, and its count (R63). -/
def hostWrite (s : State) (addr : Word) (data : List Byte) (acc : Access) : Option (State × Nat) :=
  if s.hostHasControl then some (s.memWrite addr data acc) else none

/-- Where register-file index `i` of the base variant lives (R21), and of the dpx variant, whose places of `pc` and of
the control registers are parameters (R30, log 8). -/
inductive RegPlace where
  | zero
  | general (i : RegIdx)
  | pc
  | ctl (n : Fin 16)
  | dpx (i : Fin 129)
deriving DecidableEq, Repr

/-- The place of a register-file index, or `none` outside `0..NUM_REGS-1` (R21, R30, R35). Of the dpx variant only index
0 has a place in the spec (R30). DESIGN CHOICE (log 8): where the layout's two parameters clash, index 0 is the zero
register first, then `pcIndex` is `pc`, then the run from `ctlBase` holds the control registers; what a parameter puts at
index 0 or past 128, or a control register that `pcIndex` covers, has no index. -/
def regPlace (c : Cfg) (i : Nat) : Option RegPlace :=
  match c.variant with
  | .base =>
    if i = 0 then some .zero
    else if i < 32 then some (.general (BitVec.ofNat 5 i))
    else if i = 32 then some .pc
    else if h : i - 33 < 16 then some (.ctl ⟨i - 33, h⟩)
    else none
  | .dpx =>
    if i = 0 then some .zero
    else if h : i < 129 then
      if i = c.dpxLayout.pcIndex then some .pc
      else if h' : c.dpxLayout.ctlBase ≤ i ∧ i - c.dpxLayout.ctlBase < 16 then
        some (.ctl ⟨i - c.dpxLayout.ctlBase, h'.2⟩)
      else some (.dpx ⟨i, h⟩)
    else none

/-- What a place holds; an entry of the dpx file reads as a free value (R30, log 8). -/
def State.readPlace (s : State) : RegPlace → Word
  | .zero      => 0
  | .general i => s.x i
  | .pc        => s.pc
  | .ctl n     => s.ctlReg n
  | .dpx i     => Config.dpxRead s.cfg.dpxRegmap i.val s.dpxRegs

/-- Write a place, with no check of any kind; the zero register discards (R35); a write of
a dpx entry leaves the dpx file free (R30, log 8). -/
def State.writePlace (s : State) (v : Word) : RegPlace → State
  | .zero      => s
  | .general i => s.setX i v
  | .pc        => s.setPc v
  | .ctl n     => s.setCtl n v
  | .dpx i     => { s with dpxRegs := Config.dpxWrite s.cfg.dpxRegmap i.val v s.dpxRegs }

/-- `read_register(i)` (R35). -/
def readRegister (s : State) (i : Int) : Option Word :=
  if s.hostHasControl && 0 ≤ i then (regPlace s.cfg i.toNat).map s.readPlace else none

/-- `write_register(i, v)` (R35). -/
def writeRegister (s : State) (i : Int) (v : Word) : Option State :=
  if s.hostHasControl && 0 ≤ i then (regPlace s.cfg i.toNat).map (s.writePlace v) else none

/-- `fetch_register()`: `read_register(0)` to `read_register(NUM_REGS - 1)` (R35). -/
def fetchRegister (s : State) : Option (List Word) :=
  (List.range (Config.numRegs s.cfg.variant)).mapM (fun i => readRegister s i)

/-- The host sets the interrupt request, at any time (R34); the run loop sees it at its next iteration (R281). -/
def requestInterrupt (s : State) : State := { s with hirq := true }

/-- The rest of a call of `step_or_run` that is under way: steps while `es = running`, at most `fuel` of them. With the
fuel used up the answer is a state that is still running: the call has not returned (R132, R140). -/
def continueRun : Nat → State → Result
  | 0,        s => .next s
  | fuel + 1, s =>
    match s.es with
    | .stopped => .next s
    | .exited  => .next s
    | .running =>
      match step s with
      | .next t    => continueRun fuel t
      | .fault r   => .fault r
      | .refused r => .refused r

/-- `step_or_run(single_step)` (R131, R132): on an exited machine it returns at once and changes nothing; on a stopped
one, one step enters the call and the rest follows. A call while the machine runs, which cannot occur (R63,
spec/93_implementation_defined.md U8), is refused (log 13); the call under way goes on by `continueRun`. -/
def stepOrRun (single : Bool) (fuel : Nat) (s : State) : Option Result :=
  match s.es with
  | .running => none
  | .exited  => some (.next s)
  | .stopped =>
    some (match step { s with singleStep := single } with
      | .next t    => continueRun fuel t
      | .fault r   => .fault r
      | .refused r => .refused r)

end Sys2Proof.Machine
end

