-- ==== Sys2Proof/Safety.lean ====
section
/-! DEFINITION. The terms in which statements are written: the invariant of well-formed states, what an instruction
leaves unchanged (its frame), the shapes that a completing and a stopping instruction have, and how a word runs. -/

namespace Sys2Proof.Machine

/-! ### Well-formed states (spec/20_memory.md R50, R52, R54) -/

/-- The section collection: sorted by base and pairwise disjoint (R52), no section empty, none past 2^32 (R50, R54). -/
abbrev sectionsWf (ts : List Section) : Prop :=
  ts.Pairwise (fun t u => t.limit ≤ u.base) ∧ ∀ t ∈ ts, t.base < t.limit ∧ t.limit ≤ 2 ^ 32

/-- The invariant: the collection of R52, memory in its canonical form, and every listed byte inside a section. -/
abbrev State.wf (s : State) : Prop :=
  sectionsWf s.sections ∧ Memory.wf s.mem ∧ ∀ c ∈ s.mem, ∃ t ∈ s.sections, t.covers c.1 = true

/-- No stop reason is pending while the machine runs (spec/10_state.md R31). -/
abbrev State.noReasonRunning (s : State) : Prop := s.es = .running → s.sr = none

/-- `pc` is a multiple of 4. -/
abbrev State.pcAligned (s : State) : Prop := s.pc.toNat % 4 = 0

/-! ### Frames: what is the same in two states, each through the model's own read -/

/-- Every general register reads the same. -/
abbrev SameRegs (s t : State) : Prop := ∀ i : RegIdx, t.x i = s.x i

/-- Every general register but one reads the same. -/
abbrev SameRegsBut (d : RegIdx) (s t : State) : Prop := ∀ i : RegIdx, i ≠ d → t.x i = s.x i

/-- Every control register reads the same. -/
abbrev SameCtl (s t : State) : Prop := ∀ n : Fin 16, t.ctlReg n = s.ctlReg n

/-- Every control register but one reads the same. -/
abbrev SameCtlBut (d : Fin 16) (s t : State) : Prop := ∀ n : Fin 16, n ≠ d → t.ctlReg n = s.ctlReg n

/-- Every byte of memory reads the same. -/
abbrev SameMem (s t : State) : Prop := ∀ p : Nat, t.peek p = s.peek p

/-- The execution state, the stop reason and the exit code are the same. -/
abbrev SameRun (s t : State) : Prop := t.es = s.es ∧ t.sr = s.sr ∧ t.ec = s.ec

/-- What no instruction of the base variant changes: the section collection, the host interrupt request, the
configuration, the dpx register file, and the model's own two fields. -/
abbrev SameBlock (s t : State) : Prop :=
  t.sections = s.sections ∧ t.hirq = s.hirq ∧ t.cfg = s.cfg ∧ t.dpxRegs = s.dpxRegs ∧
    t.singleStep = s.singleStep ∧ t.freeCtr = s.freeCtr

/-! ### What an instruction did -/

/-- Nothing but `pc`, which is now `p`. -/
structure Moved (p : Word) (s t : State) : Prop where
  pc    : t.pc = p
  regs  : SameRegs s t
  ctl   : SameCtl s t
  mem   : SameMem s t
  out   : t.out = s.out
  run   : SameRun s t
  block : SameBlock s t

/-- General register `d` reads `v` (register 0 still reads 0), `pc` is `p`, and nothing else changed. -/
structure Wrote (d : RegIdx) (v p : Word) (s t : State) : Prop where
  dest  : t.x d = if d = 0 then 0 else v
  pc    : t.pc = p
  regs  : SameRegsBut d s t
  ctl   : SameCtl s t
  mem   : SameMem s t
  out   : t.out = s.out
  run   : SameRun s t
  block : SameBlock s t

/-- Control register `n` reads `v`, `pc` is `p`, and nothing else changed. -/
structure WroteCtl (n : Fin 16) (v p : Word) (s t : State) : Prop where
  dest  : t.ctlReg n = v
  pc    : t.pc = p
  regs  : SameRegs s t
  ctl   : SameCtlBut n s t
  mem   : SameMem s t
  out   : t.out = s.out
  run   : SameRun s t
  block : SameBlock s t

/-- The first `n` bytes of `v`, the least significant first, stand at the lookup addresses from `lo` on; every other
byte of memory is as before. -/
abbrev StoredAt (lo n : Nat) (v : Word) (s t : State) : Prop :=
  (∀ j < n, t.peek (lo + j) = some (v.extractLsb' (8 * j) 8)) ∧
    ∀ p : Nat, (p < lo ∨ lo + n ≤ p) → t.peek p = s.peek p

/-- The first `n` bytes of `v` were stored at `lo`, `pc` is `p`, and nothing else changed. -/
structure Stored (lo n : Nat) (v p : Word) (s t : State) : Prop where
  mem   : StoredAt lo n v s t
  pc    : t.pc = p
  regs  : SameRegs s t
  ctl   : SameCtl s t
  out   : t.out = s.out
  run   : SameRun s t
  block : SameBlock s t

/-- The machine stopped for a reason and nothing else changed (spec/60_exceptions.md R273). -/
structure Stopped (r : StopReason) (s t : State) : Prop where
  es    : t.es = .stopped
  sr    : t.sr = some r
  ec    : t.ec = s.ec
  pc    : t.pc = s.pc
  regs  : SameRegs s t
  ctl   : SameCtl s t
  mem   : SameMem s t
  out   : t.out = s.out
  block : SameBlock s t

/-- A store that faulted part-way: the stop, with the first `n` bytes of `v` written and nothing else changed
(R274; spec/45_load_store.md R213). -/
structure StoppedAfter (lo n : Nat) (v : Word) (r : StopReason) (s t : State) : Prop where
  es    : t.es = .stopped
  sr    : t.sr = some r
  ec    : t.ec = s.ec
  pc    : t.pc = s.pc
  regs  : SameRegs s t
  ctl   : SameCtl s t
  mem   : StoredAt lo n v s t
  out   : t.out = s.out
  block : SameBlock s t

/-- The pairs `l` were appended to the host output trace, `pc` is `p`, and nothing else changed. -/
structure Output (l : List (Word × List Byte)) (p : Word) (s t : State) : Prop where
  out   : t.out = s.out ++ l
  pc    : t.pc = p
  regs  : SameRegs s t
  ctl   : SameCtl s t
  mem   : SameMem s t
  run   : SameRun s t
  block : SameBlock s t

/-- The machine exited with a code and nothing else changed (spec/41_interpreter_step.md R134(c)). -/
structure Exited (code : BitVec 8) (s t : State) : Prop where
  es    : t.es = .exited
  ec    : t.ec = code
  sr    : t.sr = s.sr
  pc    : t.pc = s.pc
  regs  : SameRegs s t
  ctl   : SameCtl s t
  mem   : SameMem s t
  out   : t.out = s.out
  block : SameBlock s t

/-! ### The shapes of whole instructions -/

/-- An instruction that stores. -/
def isStore : Instr → Bool
  | .stb _ _ _ | .sth _ _ _ | .stw _ _ _ | .stbio _ _ _ | .sthio _ _ _ | .stwio _ _ _ => true
  | .call _ | .jmpi _ | .ldbu _ _ _ | .ldb _ _ _ | .ldhu _ _ _ | .ldh _ _ _ | .ldw _ _ _ | .ldbuio _ _ _
  | .ldbio _ _ _ | .ldhuio _ _ _ | .ldhio _ _ _ | .ldwio _ _ _ | .addi _ _ _ | .andi _ _ _ | .ori _ _ _
  | .xori _ _ _ | .andhi _ _ _ | .orhi _ _ _ | .xorhi _ _ _ | .cmpeqi _ _ _ | .cmpnei _ _ _
  | .cmpgei _ _ _ | .cmplti _ _ _ | .cmpgeui _ _ _ | .cmpltui _ _ _ | .muli _ _ _ | .br _ | .beq _ _ _
  | .bne _ _ _ | .bge _ _ _ | .bgeu _ _ _ | .blt _ _ _ | .bltu _ _ _ | .add _ _ _ | .sub _ _ _
  | .and _ _ _ | .or _ _ _ | .xor _ _ _ | .nor _ _ _ | .cmpeq _ _ _ | .cmpne _ _ _ | .cmpge _ _ _
  | .cmpgeu _ _ _ | .cmplt _ _ _ | .cmpltu _ _ _ | .sll _ _ _ | .srl _ _ _ | .sra _ _ _ | .rol _ _ _
  | .ror _ _ _ | .mul _ _ _ | .mulxss _ _ _ | .mulxsu _ _ _ | .mulxuu _ _ _ | .div _ _ _ | .divu _ _ _
  | .slli _ _ _ | .srli _ _ _ | .srai _ _ _ | .roli _ _ _ | .jmp _ | .callr _ | .ret | .nextpc _
  | .brk _ | .trap _ | .eret | .bret | .rdctl _ _ | .wrctl _ _ => false

/-- The instruction completes: register `d` reads `v` and `pc` is the next address. -/
abbrev CompletesWith (i : Instr) (d : RegIdx) (v : Word) (s : State) : Prop :=
  ∃ t, exec i s = .next t ∧ Wrote d v (s.pc + 4) s t

/-- The instruction stops with a reason. -/
abbrev StopsWith (i : Instr) (r : StopReason) (s : State) : Prop := ∃ t, exec i s = .next t ∧ Stopped r s t

/-- The instruction goes to `p`: it moves there when `p` is a multiple of 4, else it stops
(spec/46_control_transfer.md R230). -/
abbrev GoesTo (i : Instr) (p : Word) (s : State) : Prop :=
  (p.toNat % 4 = 0 → ∃ t, exec i s = .next t ∧ Moved p s t) ∧
    (p.toNat % 4 ≠ 0 → StopsWith i .misalignedDestinationAddress s)

/-- The target of a branch over the integers: `pc + 4 + IMM16`, signed, modulo 2^32. -/
abbrev branchGoal (s : State) (imm16 : BitVec 16) : Word := BitVec.ofInt 32 (s.pc.toNat + 4 + imm16.toInt)

/-- A conditional branch: it goes to its target when the condition holds, else to the next address. -/
abbrev BranchesWhen (i : Instr) (taken : Prop) (imm16 : BitVec 16) (s : State) : Prop :=
  (taken → GoesTo i (branchGoal s imm16) s) ∧
    (¬ taken → ∃ t, exec i s = .next t ∧ Moved (s.pc + 4) s t)

/-- The effective address over the integers, `rA` plus the signed immediate modulo 2^32 (spec/45_load_store.md R210), and
its lookup address, bit 31 masked (spec/20_memory.md R55). -/
abbrev AddressIs (a : RegIdx) (imm16 : BitVec 16) (s : State) : Prop :=
  s.ea a imm16 = BitVec.ofInt 32 ((s.x a).toNat + imm16.toInt) ∧
    lookupAddr (s.ea a imm16) = (s.ea a imm16).toNat % 2 ^ 31

/-- The word fetched at `pc` decodes to a store. -/
abbrev State.fetchesStore (s : State) : Prop :=
  ∃ w i, s.fetch = some w ∧ decode w = .instr i ∧ isStore i = true

/-- A store of `n` bytes of `rB` completes: the bytes stand at the effective address and nothing else changed. -/
abbrev StoresBytes (i : Instr) (n : Nat) (b a : RegIdx) (imm16 : BitVec 16) (s : State) : Prop :=
  ∃ t, exec i s = .next t ∧ Stored (lookupAddr (s.ea a imm16)) n (s.x b) (s.pc + 4) s t

/-! ### How a word runs -/

/-- Points 3 to 7 of `Step` on a word of an ungated row: its instruction when the format is legal, else the stop. -/
abbrev RunsAs (w : Word) (legal : Prop) (i : Instr) (s : State) : Prop :=
  (legal → runBase w s = exec i s) ∧
    (¬ legal → ∃ t, runBase w s = .next t ∧ Stopped .illegalInstructionFormat s t)

/-- The same for a row with a feature flag, whose gate comes before the format check
(spec/43_multiply_divide.md R180). -/
abbrev RunsGated (w : Word) (feature legal : Prop) (i : Instr) (s : State) : Prop :=
  (¬ feature → ∃ t, runBase w s = .next t ∧ Stopped .unimplementedInstruction s t) ∧
    (feature → RunsAs w legal i s)

/-- The machine is about to fetch: it has not exited, the host has not asked for an interrupt, and `pc` is aligned. -/
abbrev State.fetches (s : State) : Prop := s.es ≠ .exited ∧ s.hirq = false ∧ s.pcAligned

/-- The next step fetches the word `w` and runs it as a word of the base variant. -/
abbrev State.fetchesWord (s : State) (w : Word) : Prop :=
  s.fetches ∧ s.fetch = some w ∧ s.cfg.variant = .base

/-- The bytes `bs` stand at the lookup addresses from `p` on and the access class may read each of them. -/
abbrev State.reads (s : State) (acc : Access) (p : Nat) (bs : List Byte) : Prop :=
  ∀ j (hj : j < bs.length), s.readableByte acc (p + j) = some bs[j]

/-- The access class may write each of the `n` bytes at the lookup addresses from `p` on. -/
abbrev State.writes (s : State) (acc : Access) (p n : Nat) : Prop := ∀ j < n, s.writable acc (p + j) = true

/-- A byte of a section that the access class may read, found in the collection (R56, R57). -/
abbrev State.sectionByte (s : State) (acc : Access) (p : Nat) (v : Byte) : Prop :=
  p < 2 ^ 31 ∧ ∃ t ∈ s.sections, t.covers p = true ∧ permits acc t.flags = true ∧ s.byteOf t p = v

/-- A byte of a section that the access class may write: the section is not read-only (R58). -/
abbrev State.sectionWritable (s : State) (acc : Access) (p : Nat) : Prop :=
  p < 2 ^ 31 ∧ ∃ t ∈ s.sections, t.covers p = true ∧ permits acc t.flags = true ∧ t.flags.readOnly = false

end Sys2Proof.Machine
end

