-- ==== Sys2Proof/Certificates/Slice0/Obligations.lean ====
section
/-! DEFINITION. The statements for the provers, in the order of OBLIGATIONS.json: encoding, the step and the whole machine,
the instructions family by family, memory, the host. -/

open Sys2Proof Sys2Proof.Machine

/-! ### Encoding (spec/30_encoding.md, spec/40_decoder.md) -/

/-- Decoding the word of a well-formed instruction gives the instruction back, with every operand. -/
def Obligations.DecodeInvertsEncode : Prop :=
  ∀ i : Instr, WellFormed i → decode (encode i) = .instr i

/-- A word that decodes is the word of the well-formed instruction it decodes to: no bit of it is ignored. -/
def Obligations.EncodeInvertsDecode : Prop :=
  ∀ (w : Word) (i : Instr), decode w = .instr i → WellFormed i ∧ encode i = w

/-- Recognition is the match and mask of the opcode table, and the rows are disjoint (R90, R122). -/
def Obligations.RecognitionIsTheOpcodeTable : Prop :=
  ∀ w : Word, (∀ o : Opcode, classify w = some o ↔ w &&& o.mask = o.pattern) ∧
    (classify w = none ↔ ∀ o : Opcode, w &&& o.mask ≠ o.pattern)

/-- The format check is the legal mask of the opcode table (R91). -/
def Obligations.FormatCheckIsTheLegalMask : Prop :=
  ∀ (w : Word) (o : Opcode), formatOk o w = true ↔ w &&& o.legalMask = o.legalMatch

/-- The accessors as arithmetic on the value of the word (R111 to R118). -/
def Obligations.AccessorsReadTheirBits : Prop :=
  ∀ w : Word,
    (fieldOp w).toNat = w.toNat % 64 ∧
    (fieldOpx w).toNat = w.toNat / 2 ^ 11 % 64 ∧
    (fieldA w).toNat = w.toNat / 2 ^ 27 ∧
    (fieldB w).toNat = w.toNat / 2 ^ 22 % 32 ∧
    (fieldC w).toNat = w.toNat / 2 ^ 17 % 32 ∧
    (imm16u w).toNat = w.toNat / 2 ^ 6 % 65536 ∧
    (imm16s w).toInt =
      (if w.toNat / 2 ^ 6 % 65536 < 32768 then (w.toNat / 2 ^ 6 % 65536 : Int)
        else (w.toNat / 2 ^ 6 % 65536 : Int) - 65536) ∧
    (fieldImm5 w).toNat = w.toNat / 2 ^ 6 % 32 ∧
    ctlidx w = fieldImm5 w ∧
    (fieldImm26 w).toNat = w.toNat / 2 ^ 6

/-- The encoder packs the fields by shift and or, and the accessors read them back (R124); a word that matches a row
has the row's primary opcode and extension (R123). -/
def Obligations.EncoderPacksTheFields : Prop :=
  (∀ (op : BitVec 6) (a b : RegIdx) (imm16 : BitVec 16),
    let w := encodeI op.toNat a b imm16
    w = a.setWidth 32 <<< 27 ||| b.setWidth 32 <<< 22 ||| imm16.setWidth 32 <<< 6 ||| op.setWidth 32 ∧
      fieldOp w = op ∧ fieldA w = a ∧ fieldB w = b ∧ imm16u w = imm16.setWidth 32) ∧
  (∀ (opx : BitVec 6) (a b c : RegIdx) (imm5 : BitVec 5),
    let w := encodeR opx.toNat a b c imm5
    w = a.setWidth 32 <<< 27 ||| b.setWidth 32 <<< 22 ||| c.setWidth 32 <<< 17 ||| opx.setWidth 32 <<< 11
        ||| imm5.setWidth 32 <<< 6 ||| 0x3A#32 ∧
      fieldOp w = 0x3A#6 ∧ fieldOpx w = opx ∧ fieldA w = a ∧ fieldB w = b ∧ fieldC w = c ∧ fieldImm5 w = imm5) ∧
  (∀ (op : BitVec 6) (imm26 : BitVec 26),
    let w := encodeJ op.toNat imm26
    w = imm26.setWidth 32 <<< 6 ||| op.setWidth 32 ∧ fieldOp w = op ∧ fieldImm26 w = imm26) ∧
  (∀ (o : Opcode) (w : Word), w &&& o.mask = o.pattern →
    fieldOp w = fieldOp o.pattern ∧ (fieldOp o.pattern = 0x3A#6 → fieldOpx w = fieldOpx o.pattern))

/-- Words written out from the spec's examples decode to the instructions they stand for. -/
def Obligations.SampleWordsDecode : Prop :=
  decode 0xDEC00104#32 = .instr (.addi 27 27 4) ∧
  decode 0x0001883A#32 = .instr (.add 0 0 0) ∧
  decode 0x08C00117#32 = .instr (.ldw 3 1 4) ∧
  decode 0x08C00105#32 = .instr (.stb 3 1 4) ∧
  decode 0x08C00127#32 = .instr (.ldbio 3 1 4) ∧
  decode 0x08BFFD1E#32 = .instr (.bne 1 2 0xFFF4) ∧
  decode 0x00010000#32 = .instr (.call 0x400) ∧
  decode 0x083EE83A#32 = .instr (.callr 1) ∧
  decode 0x0806913A#32 = .instr (.slli 3 1 4) ∧
  decode 0x0887283A#32 = .instr (.div 3 1 2) ∧
  decode 0x003DA7FA#32 = .instr (.brk 31) ∧
  decode 0x0007317A#32 = .instr (.rdctl 3 5) ∧
  decode 0x0801707A#32 = .instr (.wrctl 1 1) ∧
  decode 0xEF80083A#32 = .instr .eret ∧
  decode 0x0001A03A#32 = .illegalFormat .brk ∧
  decode 0x00000013#32 = .unrecognised

/-! ### The step and the whole machine (spec/41_interpreter_step.md, spec/60_exceptions.md) -/

/-- A step whose fetched word decodes to an instruction is `exec` of it in the entered state, with the end of the
iteration around it. That one Lean step is one iteration with the entry of `step_or_run` before it is the model's choice
(log 5). -/
def Obligations.StepRunsTheDecodedInstruction : Prop :=
  ∀ (s : State) (w : Word) (i : Instr), s.fetchesWord w → decode w = .instr i →
    step s = finishResult (exec i (enter s))

/-- What stands around `exec` in a step: entering clears the reason and starts the machine, and nothing else; at the end
a machine that still runs stops with `StepComplete` when the host asked for a single step, and nothing else changes.
The grouping and `singleStep` are the model's choice (log 5). -/
def Obligations.EnterAndFinishOfAStep : Prop :=
  ∀ s : State,
    (s.es = .stopped → (enter s).es = .running ∧ (enter s).sr = none) ∧
    (s.es ≠ .stopped → enter s = s) ∧
    (enter s).ec = s.ec ∧ (enter s).pc = s.pc ∧ SameRegs s (enter s) ∧ SameCtl s (enter s) ∧ SameMem s (enter s) ∧
    (enter s).out = s.out ∧ SameBlock s (enter s) ∧
    (s.es = .running → s.singleStep = true → Stopped .stepComplete s (finishStep s)) ∧
    (s.es ≠ .running ∨ s.singleStep = false → finishStep s = s)

/-- The fetch (R135): a misaligned `pc` and an unreadable byte stop; else the word is the four bytes, little-endian. -/
def Obligations.FetchRule : Prop :=
  ∀ s : State, s.es ≠ .exited → s.hirq = false →
    (s.pc.toNat % 4 ≠ 0 → ∃ t, step s = .next t ∧ Stopped .misalignedDestinationAddress s t) ∧
    (s.pc.toNat % 4 = 0 → (∃ j < 4, s.readableByte fetchAccess (s.pc.toNat % 2 ^ 31 + j) = none) →
      ∃ t, step s = .next t ∧ Stopped .instructionAccessFault s t) ∧
    (∀ b0 b1 b2 b3 : Byte, s.reads fetchAccess (s.pc.toNat % 2 ^ 31) [b0, b1, b2, b3] →
      ∃ w, s.fetch = some w ∧
        w.toNat = b0.toNat + 256 * b1.toNat + 65536 * b2.toNat + 16777216 * b3.toNat)

/-- The decode stops and their order: not recognised, then the feature gate, then the format (R92, R136, R137). -/
def Obligations.DecodeStopsInOrder : Prop :=
  ∀ (s : State) (w : Word), s.fetchesWord w →
    (classify w = none → ∃ t, step s = .next t ∧ Stopped .unimplementedInstruction s t) ∧
    (∀ o, classify w = some o → featurePresent s.cfg o = false →
      ∃ t, step s = .next t ∧ Stopped .unimplementedInstruction s t) ∧
    (∀ o, classify w = some o → featurePresent s.cfg o = true → w &&& o.legalMask ≠ o.legalMatch →
      ∃ t, step s = .next t ∧ Stopped .illegalInstructionFormat s t)

/-- The host interrupt request is taken before anything else, cleared, and changes nothing of the program's state. -/
def Obligations.InterruptRequestStops : Prop :=
  ∀ s : State, s.es ≠ .exited → s.hirq = true →
    ∃ t, step s = .next t ∧ t.es = .stopped ∧ t.sr = some .interrupted ∧ t.hirq = false ∧ t.ec = s.ec ∧
      t.pc = s.pc ∧ SameRegs s t ∧ SameCtl s t ∧ SameMem s t ∧ t.out = s.out ∧ t.sections = s.sections ∧
      t.cfg = s.cfg ∧ t.dpxRegs = s.dpxRegs

/-- An exited machine stays as it is, whatever the host's step or run asks (R131, R259); that `step` answers it itself is
the model's choice (log 5). -/
def Obligations.ExitIsFinal : Prop :=
  ∀ (s : State) (single : Bool) (fuel : Nat), s.es = .exited →
    step s = .next s ∧ stepOrRun single fuel s = some (.next s)

/-- A single step ends with the machine not running; a step that is none never ends with `StepComplete`, from any state
that meets the invariant of R31 (`RunningHasNoReason`). `singleStep` is the model's form of the host's argument (log 5). -/
def Obligations.SingleStepEndsTheRun : Prop :=
  ∀ s t : State, s.noReasonRunning → step s = .next t → s.es ≠ .exited →
    (s.singleStep = true → t.es ≠ .running) ∧ (s.singleStep = false → t.sr ≠ some .stepComplete)

/-- Stops are precise (R274): every stop but `StepComplete` leaves `pc` at the instruction, and every register, the
output and the sections as they were; memory too, but for a store that stopped with `DataAccessFault`. -/
def Obligations.StopsArePrecise : Prop :=
  ∀ (s t : State) (r : StopReason), step s = .next t → t.es = .stopped → t.sr = some r → r ≠ .stepComplete →
    t.pc = s.pc ∧ SameRegs s t ∧ SameCtl s t ∧ t.out = s.out ∧ t.ec = s.ec ∧ t.sections = s.sections ∧
      t.cfg = s.cfg ∧ t.dpxRegs = s.dpxRegs ∧ (¬ (r = .dataAccessFault ∧ s.fetchesStore) → SameMem s t)

/-- Resuming a stopped machine at the same instruction stops again with the same reason (R275). -/
def Obligations.ResumingStopsAgain : Prop :=
  ∀ (s t : State) (r : StopReason), s.es = .stopped → s.hirq = false → step s = .next t → t.es = .stopped →
    t.sr = some r → r ≠ .stepComplete → r ≠ .dataAccessFault → step t = .next t

/-- Every step keeps the invariant of the memory and the section collection (R52, R54; the canonical form). -/
def Obligations.StepKeepsMemoryWellFormed : Prop :=
  ∀ s t : State, s.wf → step s = .next t → t.wf

/-- The invariant holds right after reset, under every configuration; `pc` is aligned when the reset address is.
The configuration in `State.reset` is the model's choice (log 3). -/
def Obligations.ResetIsWellFormed : Prop :=
  State.reset.wf ∧ State.reset.pcAligned ∧ State.reset.noReasonRunning ∧
    ∀ (cfg : Cfg) (single : Bool) (n : Nat), (State.resetOf cfg single n).wf ∧ (State.resetOf cfg single n).noReasonRunning ∧
      (cfg.resetAddr.toNat % 4 = 0 → (State.resetOf cfg single n).pcAligned)

/-- Every step keeps `pc` a multiple of 4 (R25: a misaligned `pc` can arise only from a host write). -/
def Obligations.StepKeepsPcAligned : Prop :=
  ∀ s t : State, s.pcAligned → step s = .next t → t.pcAligned

/-- Once in user mode the program cannot leave it: no step in user mode changes a control register (R283, R284). -/
def Obligations.UserModeIsNeverLeft : Prop :=
  ∀ s t : State, (s.ctlReg 0).getLsbD 1 = true → step s = .next t →
    (t.ctlReg 0).getLsbD 1 = true ∧ SameCtl s t

/-- No step changes `ipending`, `cpuid`, the sections, the configuration, or the dpx register file; the exit code changes
only at an exit. -/
def Obligations.StepKeepsFixedState : Prop :=
  ∀ s t : State, step s = .next t →
    t.ctlReg 4 = s.ctlReg 4 ∧ t.ctlReg 5 = s.ctlReg 5 ∧ t.sections = s.sections ∧ t.cfg = s.cfg ∧
      t.dpxRegs = s.dpxRegs ∧ (t.es ≠ .exited → t.ec = s.ec)

/-- A byte of memory changes only by a store instruction, and only in a data section that is not read-only. -/
def Obligations.OnlyStoresChangeMemory : Prop :=
  ∀ (s t : State) (p : Nat), step s = .next t → t.peek p ≠ s.peek p →
    s.fetchesStore ∧
      ∃ u ∈ s.sections, u.covers p = true ∧ u.flags.data = true ∧ u.flags.readOnly = false

/-- In the base variant every step has a next state: every stop is data in the state (R141). -/
def Obligations.BaseVariantAlwaysSteps : Prop :=
  ∀ s : State, s.cfg.variant = .base → ∃ t, step s = .next t

/-- The output trace only grows, and only by the `write` syscall; the machine exits only by the `_exit` syscall, with
the low 8 bits of `r4`. -/
def Obligations.OutputAndExitOnlyBySyscall : Prop :=
  ∀ s t : State, step s = .next t →
    (∃ l, t.out = s.out ++ l ∧
      (l ≠ [] → s.fetch = some (encode (.ori 0 0 s.cfg.magicWrite)) ∧ (s.x 4 = 1 ∨ s.x 4 = 2))) ∧
    (s.es ≠ .exited → t.es = .exited →
      s.fetch = some 0x00000414#32 ∧ t.ec = (s.x 4).extractLsb' 0 8 ∧ t.pc = s.pc)

/-! ### Register arithmetic, logic, compare, shift, rotate (spec/42_alu_register.md) -/

/-- `add` and `sub` are exact over the integers, modulo 2^32. -/
def Obligations.AddAndSub : Prop :=
  ∀ (c a b : RegIdx) (imm5 : BitVec 5) (s : State),
    CompletesWith (.add c a b) c (BitVec.ofNat 32 (((s.x a).toNat + (s.x b).toNat) % 2 ^ 32)) s ∧
    RunsAs (encodeR 0x31 a b c imm5) (imm5 = 0) (.add c a b) s ∧
    CompletesWith (.sub c a b) c (BitVec.ofInt 32 ((s.x a).toInt - (s.x b).toInt)) s ∧
    RunsAs (encodeR 0x39 a b c imm5) (imm5 = 0) (.sub c a b) s

/-- The bitwise operations, bit by bit. -/
def Obligations.BitwiseLogic : Prop :=
  ∀ (c a b : RegIdx) (imm5 : BitVec 5) (s : State),
    (∃ v : Word, (∀ k < 32, v.getLsbD k = ((s.x a).getLsbD k && (s.x b).getLsbD k)) ∧
      CompletesWith (.and c a b) c v s) ∧
    RunsAs (encodeR 0x0E a b c imm5) (imm5 = 0) (.and c a b) s ∧
    (∃ v : Word, (∀ k < 32, v.getLsbD k = ((s.x a).getLsbD k || (s.x b).getLsbD k)) ∧
      CompletesWith (.or c a b) c v s) ∧
    RunsAs (encodeR 0x16 a b c imm5) (imm5 = 0) (.or c a b) s ∧
    (∃ v : Word, (∀ k < 32, v.getLsbD k = ((s.x a).getLsbD k != (s.x b).getLsbD k)) ∧
      CompletesWith (.xor c a b) c v s) ∧
    RunsAs (encodeR 0x1E a b c imm5) (imm5 = 0) (.xor c a b) s ∧
    (∃ v : Word, (∀ k < 32, v.getLsbD k = !((s.x a).getLsbD k || (s.x b).getLsbD k)) ∧
      CompletesWith (.nor c a b) c v s) ∧
    RunsAs (encodeR 0x06 a b c imm5) (imm5 = 0) (.nor c a b) s

/-- The register compares: 1 when the relation holds of the signed or unsigned values, else 0. -/
def Obligations.RegisterCompares : Prop :=
  ∀ (c a b : RegIdx) (imm5 : BitVec 5) (s : State),
    CompletesWith (.cmpeq c a b) c (if (s.x a).toNat = (s.x b).toNat then 1 else 0) s ∧
    RunsAs (encodeR 0x20 a b c imm5) (imm5 = 0) (.cmpeq c a b) s ∧
    CompletesWith (.cmpne c a b) c (if (s.x a).toNat = (s.x b).toNat then 0 else 1) s ∧
    RunsAs (encodeR 0x18 a b c imm5) (imm5 = 0) (.cmpne c a b) s ∧
    CompletesWith (.cmpge c a b) c (if (s.x a).toInt < (s.x b).toInt then 0 else 1) s ∧
    RunsAs (encodeR 0x08 a b c imm5) (imm5 = 0) (.cmpge c a b) s ∧
    CompletesWith (.cmpgeu c a b) c (if (s.x a).toNat < (s.x b).toNat then 0 else 1) s ∧
    RunsAs (encodeR 0x28 a b c imm5) (imm5 = 0) (.cmpgeu c a b) s ∧
    CompletesWith (.cmplt c a b) c (if (s.x a).toInt < (s.x b).toInt then 1 else 0) s ∧
    RunsAs (encodeR 0x10 a b c imm5) (imm5 = 0) (.cmplt c a b) s ∧
    CompletesWith (.cmpltu c a b) c (if (s.x a).toNat < (s.x b).toNat then 1 else 0) s ∧
    RunsAs (encodeR 0x30 a b c imm5) (imm5 = 0) (.cmpltu c a b) s

/-- The shifts by a register count: the count is the low five bits. -/
def Obligations.ShiftsByRegister : Prop :=
  ∀ (c a b : RegIdx) (imm5 : BitVec 5) (s : State),
    let n : Nat := (s.x b).toNat % 32
    (∃ v : Word, (∀ k < 32, v.getLsbD k = (decide (n ≤ k) && (s.x a).getLsbD (k - n))) ∧
      CompletesWith (.sll c a b) c v s) ∧
    RunsAs (encodeR 0x13 a b c imm5) (imm5 = 0) (.sll c a b) s ∧
    (∃ v : Word, (∀ k < 32, v.getLsbD k = (decide (k + n < 32) && (s.x a).getLsbD (k + n))) ∧
      CompletesWith (.srl c a b) c v s) ∧
    RunsAs (encodeR 0x1B a b c imm5) (imm5 = 0) (.srl c a b) s ∧
    (∃ v : Word, (∀ k < 32, v.getLsbD k = (s.x a).getLsbD (if k + n < 32 then k + n else 31)) ∧
      CompletesWith (.sra c a b) c v s) ∧
    RunsAs (encodeR 0x3B a b c imm5) (imm5 = 0) (.sra c a b) s

/-- The shifts by an immediate count. -/
def Obligations.ShiftsByImmediate : Prop :=
  ∀ (c a b : RegIdx) (imm5 : BitVec 5) (s : State),
    let n : Nat := imm5.toNat
    (∃ v : Word, (∀ k < 32, v.getLsbD k = (decide (n ≤ k) && (s.x a).getLsbD (k - n))) ∧
      CompletesWith (.slli c a imm5) c v s) ∧
    RunsAs (encodeR 0x12 a b c imm5) (b = 0) (.slli c a imm5) s ∧
    (∃ v : Word, (∀ k < 32, v.getLsbD k = (decide (k + n < 32) && (s.x a).getLsbD (k + n))) ∧
      CompletesWith (.srli c a imm5) c v s) ∧
    RunsAs (encodeR 0x1A a b c imm5) (b = 0) (.srli c a imm5) s ∧
    (∃ v : Word, (∀ k < 32, v.getLsbD k = (s.x a).getLsbD (if k + n < 32 then k + n else 31)) ∧
      CompletesWith (.srai c a imm5) c v s) ∧
    RunsAs (encodeR 0x3A a b c imm5) (b = 0) (.srai c a imm5) s

/-- The rotates: each bit moves by the count, around the end of the word. -/
def Obligations.Rotates : Prop :=
  ∀ (c a b : RegIdx) (imm5 : BitVec 5) (s : State),
    (∃ v : Word, (∀ k < 32, v.getLsbD ((k + (s.x b).toNat % 32) % 32) = (s.x a).getLsbD k) ∧
      CompletesWith (.rol c a b) c v s) ∧
    RunsAs (encodeR 0x03 a b c imm5) (imm5 = 0) (.rol c a b) s ∧
    (∃ v : Word, (∀ k < 32, v.getLsbD ((k + imm5.toNat) % 32) = (s.x a).getLsbD k) ∧
      CompletesWith (.roli c a imm5) c v s) ∧
    RunsAs (encodeR 0x02 a b c imm5) (b = 0) (.roli c a imm5) s ∧
    (∃ v : Word, (∀ k < 32, v.getLsbD k = (s.x a).getLsbD ((k + (s.x b).toNat % 32) % 32)) ∧
      CompletesWith (.ror c a b) c v s) ∧
    RunsAs (encodeR 0x0B a b c imm5) (imm5 = 0) (.ror c a b) s

/-! ### Multiply and divide (spec/43_multiply_divide.md) -/

/-- The feature gates (R180): without its flag, a word of the row stops before its format is checked. -/
def Obligations.FeatureGates : Prop :=
  ∀ (a b c : RegIdx) (imm5 : BitVec 5) (imm16 : BitVec 16) (s : State),
    (s.cfg.hasMul = false →
      (∃ t, runBase (encodeR 0x27 a b c imm5) s = .next t ∧ Stopped .unimplementedInstruction s t) ∧
      (∃ t, runBase (encodeI 0x24 a b imm16) s = .next t ∧ Stopped .unimplementedInstruction s t)) ∧
    (s.cfg.hasMulx = false →
      (∃ t, runBase (encodeR 0x1F a b c imm5) s = .next t ∧ Stopped .unimplementedInstruction s t) ∧
      (∃ t, runBase (encodeR 0x17 a b c imm5) s = .next t ∧ Stopped .unimplementedInstruction s t) ∧
      (∃ t, runBase (encodeR 0x07 a b c imm5) s = .next t ∧ Stopped .unimplementedInstruction s t)) ∧
    (s.cfg.hasDiv = false →
      (∃ t, runBase (encodeR 0x25 a b c imm5) s = .next t ∧ Stopped .unimplementedInstruction s t) ∧
      (∃ t, runBase (encodeR 0x24 a b c imm5) s = .next t ∧ Stopped .unimplementedInstruction s t))

/-- `mul` and `muli`: the low 32 bits of the product, the same for signed and unsigned operands. -/
def Obligations.MultiplyLow : Prop :=
  ∀ (c a b : RegIdx) (imm5 : BitVec 5) (imm16 : BitVec 16) (s : State),
    (s.cfg.hasMul = true →
      CompletesWith (.mul c a b) c (BitVec.ofNat 32 ((s.x a).toNat * (s.x b).toNat % 2 ^ 32)) s ∧
      CompletesWith (.mul c a b) c (BitVec.ofInt 32 ((s.x a).toInt * (s.x b).toInt)) s ∧
      CompletesWith (.muli b a imm16) b (BitVec.ofInt 32 ((s.x a).toInt * imm16.toInt)) s) ∧
    RunsGated (encodeR 0x27 a b c imm5) (s.cfg.hasMul = true) (imm5 = 0) (.mul c a b) s ∧
    RunsGated (encodeI 0x24 a b imm16) (s.cfg.hasMul = true) True (.muli b a imm16) s

/-- The extended multiplies: bits 63 to 32 of the 64-bit product. -/
def Obligations.MultiplyHigh : Prop :=
  ∀ (c a b : RegIdx) (imm5 : BitVec 5) (s : State),
    (s.cfg.hasMulx = true →
      CompletesWith (.mulxss c a b) c
        (((s.x a).signExtend 64 * (s.x b).signExtend 64).extractLsb' 32 32) s ∧
      CompletesWith (.mulxsu c a b) c
        (((s.x a).signExtend 64 * (s.x b).setWidth 64).extractLsb' 32 32) s ∧
      CompletesWith (.mulxuu c a b) c
        (((s.x a).setWidth 64 * (s.x b).setWidth 64).extractLsb' 32 32) s) ∧
    RunsGated (encodeR 0x1F a b c imm5) (s.cfg.hasMulx = true) (imm5 = 0) (.mulxss c a b) s ∧
    RunsGated (encodeR 0x17 a b c imm5) (s.cfg.hasMulx = true) (imm5 = 0) (.mulxsu c a b) s ∧
    RunsGated (encodeR 0x07 a b c imm5) (s.cfg.hasMulx = true) (imm5 = 0) (.mulxuu c a b) s

/-- `div` and `divu`: the two special results, division by zero, and the quotient rounded toward zero; never a stop. -/
def Obligations.Divide : Prop :=
  ∀ (c a b : RegIdx) (imm5 : BitVec 5) (s : State),
    (s.cfg.hasDiv = true →
      (s.x b = 0 → CompletesWith (.div c a b) c 0x80000000#32 s ∧ CompletesWith (.divu c a b) c 0xFFFFFFFF#32 s) ∧
      (s.x a = 0x80000000#32 → s.x b = 0xFFFFFFFF#32 → CompletesWith (.div c a b) c 0x7FFFFFFF#32 s) ∧
      (s.x b ≠ 0 → ¬ (s.x a = 0x80000000#32 ∧ s.x b = 0xFFFFFFFF#32) →
        ∃ v : Word, v.toInt = (s.x a).toInt.sign * (s.x b).toInt.sign *
            (((s.x a).toInt.natAbs / (s.x b).toInt.natAbs : Nat) : Int) ∧
          CompletesWith (.div c a b) c v s) ∧
      (s.x b ≠ 0 → ∃ v : Word, v.toNat = (s.x a).toNat / (s.x b).toNat ∧ CompletesWith (.divu c a b) c v s)) ∧
    RunsGated (encodeR 0x25 a b c imm5) (s.cfg.hasDiv = true) (imm5 = 0) (.div c a b) s ∧
    RunsGated (encodeR 0x24 a b c imm5) (s.cfg.hasDiv = true) (imm5 = 0) (.divu c a b) s

/-! ### Immediate operations (spec/44_immediate.md) -/

/-- `addi` and the bitwise immediates, low and high half. -/
def Obligations.ImmediateArithmeticAndLogic : Prop :=
  ∀ (b a : RegIdx) (imm16 : BitVec 16) (s : State),
    CompletesWith (.addi b a imm16) b (BitVec.ofInt 32 ((s.x a).toInt + imm16.toInt)) s ∧
    runBase (encodeI 0x04 a b imm16) s = exec (.addi b a imm16) s ∧
    (∃ v : Word, (∀ k < 32, v.getLsbD k = ((s.x a).getLsbD k && imm16.getLsbD k)) ∧
      CompletesWith (.andi b a imm16) b v s) ∧
    runBase (encodeI 0x0C a b imm16) s = exec (.andi b a imm16) s ∧
    (∃ v : Word, (∀ k < 32, v.getLsbD k = ((s.x a).getLsbD k != imm16.getLsbD k)) ∧
      CompletesWith (.xori b a imm16) b v s) ∧
    runBase (encodeI 0x1C a b imm16) s = exec (.xori b a imm16) s ∧
    (∃ v : Word, (∀ k < 32, v.getLsbD k =
        ((s.x a).getLsbD k && (decide (16 ≤ k) && imm16.getLsbD (k - 16)))) ∧
      CompletesWith (.andhi b a imm16) b v s) ∧
    runBase (encodeI 0x2C a b imm16) s = exec (.andhi b a imm16) s ∧
    (∃ v : Word, (∀ k < 32, v.getLsbD k =
        ((s.x a).getLsbD k || (decide (16 ≤ k) && imm16.getLsbD (k - 16)))) ∧
      CompletesWith (.orhi b a imm16) b v s) ∧
    runBase (encodeI 0x34 a b imm16) s = exec (.orhi b a imm16) s ∧
    (∃ v : Word, (∀ k < 32, v.getLsbD k =
        ((s.x a).getLsbD k != (decide (16 ≤ k) && imm16.getLsbD (k - 16)))) ∧
      CompletesWith (.xorhi b a imm16) b v s) ∧
    runBase (encodeI 0x3C a b imm16) s = exec (.xorhi b a imm16) s

/-- The immediate compares: signed ones with the sign-extended, unsigned ones with the zero-extended immediate. -/
def Obligations.ImmediateCompares : Prop :=
  ∀ (b a : RegIdx) (imm16 : BitVec 16) (s : State),
    CompletesWith (.cmpeqi b a imm16) b (if (s.x a).toInt = imm16.toInt then 1 else 0) s ∧
    runBase (encodeI 0x20 a b imm16) s = exec (.cmpeqi b a imm16) s ∧
    CompletesWith (.cmpnei b a imm16) b (if (s.x a).toInt = imm16.toInt then 0 else 1) s ∧
    runBase (encodeI 0x18 a b imm16) s = exec (.cmpnei b a imm16) s ∧
    CompletesWith (.cmpgei b a imm16) b (if (s.x a).toInt < imm16.toInt then 0 else 1) s ∧
    runBase (encodeI 0x08 a b imm16) s = exec (.cmpgei b a imm16) s ∧
    CompletesWith (.cmplti b a imm16) b (if (s.x a).toInt < imm16.toInt then 1 else 0) s ∧
    runBase (encodeI 0x10 a b imm16) s = exec (.cmplti b a imm16) s ∧
    CompletesWith (.cmpgeui b a imm16) b (if (s.x a).toNat < imm16.toNat then 0 else 1) s ∧
    runBase (encodeI 0x28 a b imm16) s = exec (.cmpgeui b a imm16) s ∧
    CompletesWith (.cmpltui b a imm16) b (if (s.x a).toNat < imm16.toNat then 1 else 0) s ∧
    runBase (encodeI 0x30 a b imm16) s = exec (.cmpltui b a imm16) s

/-- `ori`: the ordinary form, and with A = B = 0 the syscall trigger with its two syscalls and its no-operation
(R193, spec/47_system.md R258). That an exit leaves `sr` as it was is the model's reading (log 2). -/
def Obligations.OriAndSyscalls : Prop :=
  ∀ (b a : RegIdx) (imm16 : BitVec 16) (s : State),
    runBase (encodeI 0x14 a b imm16) s = exec (.ori b a imm16) s ∧
    (¬ (a = 0 ∧ b = 0) →
      ∃ v : Word, (∀ k < 32, v.getLsbD k = ((s.x a).getLsbD k || imm16.getLsbD k)) ∧
        CompletesWith (.ori b a imm16) b v s) ∧
    (∃ t, exec (.ori 0 0 0x0010#16) s = .next t ∧ Exited ((s.x 4).extractLsb' 0 8) s t) ∧
    (s.cfg.valid →
      (∀ bs : List Byte, bs.length = (s.x 6).toNat → s.reads dataAccess ((s.x 5).toNat % 2 ^ 31) bs →
        (s.x 4 = 1 ∨ s.x 4 = 2 →
          ∃ t, exec (.ori 0 0 s.cfg.magicWrite) s = .next t ∧ Output [(s.x 4, bs)] (s.pc + 4) s t) ∧
        (s.x 4 ≠ 1 ∧ s.x 4 ≠ 2 →
          ∃ t, exec (.ori 0 0 s.cfg.magicWrite) s = .next t ∧ Output [] (s.pc + 4) s t)) ∧
      ((∃ j < (s.x 6).toNat, s.readableByte dataAccess ((s.x 5).toNat % 2 ^ 31 + j) = none) →
        StopsWith (.ori 0 0 s.cfg.magicWrite) .dataAccessFault s)) ∧
    (imm16 ≠ 0x0010#16 → imm16 ≠ s.cfg.magicWrite →
      ∃ t, exec (.ori 0 0 imm16) s = .next t ∧ Moved (s.pc + 4) s t)

/-! ### Loads and stores (spec/45_load_store.md) -/

/-- The byte loads and their io twins, at the effective address of R210. -/
def Obligations.LoadBytes : Prop :=
  ∀ (b a : RegIdx) (imm16 : BitVec 16) (s : State) (b0 : Byte),
    AddressIs a imm16 s ∧
    (s.reads dataAccess (lookupAddr (s.ea a imm16)) [b0] →
      CompletesWith (.ldb b a imm16) b (BitVec.ofInt 32 b0.toInt) s ∧
      CompletesWith (.ldbu b a imm16) b (BitVec.ofNat 32 b0.toNat) s ∧
      CompletesWith (.ldbio b a imm16) b (BitVec.ofInt 32 b0.toInt) s ∧
      CompletesWith (.ldbuio b a imm16) b (BitVec.ofNat 32 b0.toNat) s) ∧
    (s.readableByte dataAccess (lookupAddr (s.ea a imm16)) = none →
      StopsWith (.ldb b a imm16) .dataAccessFault s ∧ StopsWith (.ldbu b a imm16) .dataAccessFault s ∧
      StopsWith (.ldbio b a imm16) .dataAccessFault s ∧ StopsWith (.ldbuio b a imm16) .dataAccessFault s) ∧
    runBase (encodeI 0x07 a b imm16) s = exec (.ldb b a imm16) s ∧
    runBase (encodeI 0x03 a b imm16) s = exec (.ldbu b a imm16) s ∧
    runBase (encodeI 0x27 a b imm16) s = exec (.ldbio b a imm16) s ∧
    runBase (encodeI 0x23 a b imm16) s = exec (.ldbuio b a imm16) s

/-- The halfword loads and their io twins: little-endian, sign- or zero-extended; misaligned or faulting, a stop. -/
def Obligations.LoadHalfwords : Prop :=
  ∀ (b a : RegIdx) (imm16 : BitVec 16) (s : State) (b0 b1 : Byte),
    AddressIs a imm16 s ∧
    ((s.ea a imm16).toNat % 2 = 0 → s.reads dataAccess (lookupAddr (s.ea a imm16)) [b0, b1] →
      CompletesWith (.ldh b a imm16) b (BitVec.ofInt 32 (b0.toNat + 256 * b1.toInt)) s ∧
      CompletesWith (.ldhu b a imm16) b (BitVec.ofNat 32 (b0.toNat + 256 * b1.toNat)) s ∧
      CompletesWith (.ldhio b a imm16) b (BitVec.ofInt 32 (b0.toNat + 256 * b1.toInt)) s ∧
      CompletesWith (.ldhuio b a imm16) b (BitVec.ofNat 32 (b0.toNat + 256 * b1.toNat)) s) ∧
    (∀ i ∈ [Instr.ldh b a imm16, .ldhu b a imm16, .ldhio b a imm16, .ldhuio b a imm16],
      ((s.ea a imm16).toNat % 2 ≠ 0 → StopsWith i .misalignedDataAddress s) ∧
      ((s.ea a imm16).toNat % 2 = 0 →
        (∃ j < 2, s.readableByte dataAccess (lookupAddr (s.ea a imm16) + j) = none) →
        StopsWith i .dataAccessFault s)) ∧
    runBase (encodeI 0x0F a b imm16) s = exec (.ldh b a imm16) s ∧
    runBase (encodeI 0x0B a b imm16) s = exec (.ldhu b a imm16) s ∧
    runBase (encodeI 0x2F a b imm16) s = exec (.ldhio b a imm16) s ∧
    runBase (encodeI 0x2B a b imm16) s = exec (.ldhuio b a imm16) s

/-- The word loads. -/
def Obligations.LoadWords : Prop :=
  ∀ (b a : RegIdx) (imm16 : BitVec 16) (s : State) (b0 b1 b2 b3 : Byte),
    AddressIs a imm16 s ∧
    ((s.ea a imm16).toNat % 4 = 0 → s.reads dataAccess (lookupAddr (s.ea a imm16)) [b0, b1, b2, b3] →
      CompletesWith (.ldw b a imm16) b (b3 ++ b2 ++ b1 ++ b0) s ∧
      CompletesWith (.ldwio b a imm16) b (b3 ++ b2 ++ b1 ++ b0) s) ∧
    (∀ i ∈ [Instr.ldw b a imm16, .ldwio b a imm16],
      ((s.ea a imm16).toNat % 4 ≠ 0 → StopsWith i .misalignedDataAddress s) ∧
      ((s.ea a imm16).toNat % 4 = 0 →
        (∃ j < 4, s.readableByte dataAccess (lookupAddr (s.ea a imm16) + j) = none) →
        StopsWith i .dataAccessFault s)) ∧
    runBase (encodeI 0x17 a b imm16) s = exec (.ldw b a imm16) s ∧
    runBase (encodeI 0x37 a b imm16) s = exec (.ldwio b a imm16) s

/-- The stores complete: exactly the low bytes of `rB` at the effective address. -/
def Obligations.StoresComplete : Prop :=
  ∀ (b a : RegIdx) (imm16 : BitVec 16) (s : State),
    AddressIs a imm16 s ∧
    (s.writes dataAccess (lookupAddr (s.ea a imm16)) 1 →
      StoresBytes (.stb b a imm16) 1 b a imm16 s ∧ StoresBytes (.stbio b a imm16) 1 b a imm16 s) ∧
    ((s.ea a imm16).toNat % 2 = 0 → s.writes dataAccess (lookupAddr (s.ea a imm16)) 2 →
      StoresBytes (.sth b a imm16) 2 b a imm16 s ∧ StoresBytes (.sthio b a imm16) 2 b a imm16 s) ∧
    ((s.ea a imm16).toNat % 4 = 0 → s.writes dataAccess (lookupAddr (s.ea a imm16)) 4 →
      StoresBytes (.stw b a imm16) 4 b a imm16 s ∧ StoresBytes (.stwio b a imm16) 4 b a imm16 s) ∧
    runBase (encodeI 0x05 a b imm16) s = exec (.stb b a imm16) s ∧
    runBase (encodeI 0x25 a b imm16) s = exec (.stbio b a imm16) s ∧
    runBase (encodeI 0x0D a b imm16) s = exec (.sth b a imm16) s ∧
    runBase (encodeI 0x2D a b imm16) s = exec (.sthio b a imm16) s ∧
    runBase (encodeI 0x15 a b imm16) s = exec (.stw b a imm16) s ∧
    runBase (encodeI 0x35 a b imm16) s = exec (.stwio b a imm16) s

/-- The stores stop: misaligned with nothing written, or at the first byte that cannot be written, with the bytes before
it written and nothing else changed. -/
def Obligations.StoresStop : Prop :=
  ∀ (b a : RegIdx) (imm16 : BitVec 16) (s : State),
    AddressIs a imm16 s ∧
    ∀ p ∈ [(Instr.stb b a imm16, 1), (.stbio b a imm16, 1), (.sth b a imm16, 2), (.sthio b a imm16, 2),
        (.stw b a imm16, 4), (.stwio b a imm16, 4)],
      ((s.ea a imm16).toNat % p.2 ≠ 0 → StopsWith p.1 .misalignedDataAddress s) ∧
      (∀ k < p.2, (s.ea a imm16).toNat % p.2 = 0 → s.writes dataAccess (lookupAddr (s.ea a imm16)) k →
        s.writable dataAccess (lookupAddr (s.ea a imm16) + k) = false →
        ∃ t, exec p.1 s = .next t ∧
          StoppedAfter (lookupAddr (s.ea a imm16)) k (s.x b) .dataAccessFault s t)

/-- Every io variant does exactly what its twin does, in every state (R211). -/
def Obligations.IoVariantsEqualTheirTwins : Prop :=
  ∀ (b a : RegIdx) (imm16 : BitVec 16) (s : State),
    exec (.ldbio b a imm16) s = exec (.ldb b a imm16) s ∧
    exec (.ldbuio b a imm16) s = exec (.ldbu b a imm16) s ∧
    exec (.ldhio b a imm16) s = exec (.ldh b a imm16) s ∧
    exec (.ldhuio b a imm16) s = exec (.ldhu b a imm16) s ∧
    exec (.ldwio b a imm16) s = exec (.ldw b a imm16) s ∧
    exec (.stbio b a imm16) s = exec (.stb b a imm16) s ∧
    exec (.sthio b a imm16) s = exec (.sth b a imm16) s ∧
    exec (.stwio b a imm16) s = exec (.stw b a imm16) s

/-! ### Control transfer (spec/46_control_transfer.md) -/

/-- The conditional branches: taken to an aligned target, stopped at a misaligned one, or not taken. -/
def Obligations.ConditionalBranches : Prop :=
  ∀ (a b : RegIdx) (imm16 : BitVec 16) (s : State),
    BranchesWhen (.beq a b imm16) ((s.x a).toNat = (s.x b).toNat) imm16 s ∧
    BranchesWhen (.bne a b imm16) ((s.x a).toNat ≠ (s.x b).toNat) imm16 s ∧
    BranchesWhen (.bge a b imm16) ((s.x b).toInt ≤ (s.x a).toInt) imm16 s ∧
    BranchesWhen (.bgeu a b imm16) ((s.x b).toNat ≤ (s.x a).toNat) imm16 s ∧
    BranchesWhen (.blt a b imm16) ((s.x a).toInt < (s.x b).toInt) imm16 s ∧
    BranchesWhen (.bltu a b imm16) ((s.x a).toNat < (s.x b).toNat) imm16 s ∧
    runBase (encodeI 0x26 a b imm16) s = exec (.beq a b imm16) s ∧
    runBase (encodeI 0x1E a b imm16) s = exec (.bne a b imm16) s ∧
    runBase (encodeI 0x0E a b imm16) s = exec (.bge a b imm16) s ∧
    runBase (encodeI 0x2E a b imm16) s = exec (.bgeu a b imm16) s ∧
    runBase (encodeI 0x16 a b imm16) s = exec (.blt a b imm16) s ∧
    runBase (encodeI 0x36 a b imm16) s = exec (.bltu a b imm16) s

/-- `br`, `jmp` and `ret`: to the target when it is aligned, else a stop with nothing changed. -/
def Obligations.UnlinkedTransfers : Prop :=
  ∀ (a b c : RegIdx) (imm5 : BitVec 5) (imm16 : BitVec 16) (s : State),
    GoesTo (.br imm16) (branchGoal s imm16) s ∧
    RunsAs (encodeI 0x06 a b imm16) (a = 0 ∧ b = 0) (.br imm16) s ∧
    GoesTo (.jmp a) (s.x a) s ∧
    RunsAs (encodeR 0x0D a b c imm5) (b = 0 ∧ c = 0 ∧ imm5 = 0) (.jmp a) s ∧
    GoesTo .ret (s.x 31) s ∧
    RunsAs (encodeR 0x05 a b c imm5) (a = 31 ∧ b = 0 ∧ c = 0 ∧ imm5 = 0) .ret s

/-- `call`, `jmpi` and `callr`: the link register holds the next address; a misaligned `callr` writes no link. -/
def Obligations.CallsAndJumps : Prop :=
  ∀ (a b c : RegIdx) (imm5 : BitVec 5) (imm26 : BitVec 26) (s : State) (target : Word),
    target.toNat = s.pc.toNat / 2 ^ 28 * 2 ^ 28 + 4 * imm26.toNat →
    (∃ t, exec (.call imm26) s = .next t ∧ Wrote 31 (s.pc + 4) target s t) ∧
    runBase (encodeJ 0x00 imm26) s = exec (.call imm26) s ∧
    (∃ t, exec (.jmpi imm26) s = .next t ∧ Moved target s t) ∧
    runBase (encodeJ 0x01 imm26) s = exec (.jmpi imm26) s ∧
    ((s.x a).toNat % 4 = 0 → ∃ t, exec (.callr a) s = .next t ∧ Wrote 31 (s.pc + 4) (s.x a) s t) ∧
    ((s.x a).toNat % 4 ≠ 0 → StopsWith (.callr a) .misalignedDestinationAddress s) ∧
    RunsAs (encodeR 0x1D a b c imm5) (b = 0 ∧ c = 31 ∧ imm5 = 0) (.callr a) s

/-- `nextpc` (R243). -/
def Obligations.NextPc : Prop :=
  ∀ (a b c : RegIdx) (imm5 : BitVec 5) (s : State),
    CompletesWith (.nextpc c) c (BitVec.ofNat 32 ((s.pc.toNat + 4) % 2 ^ 32)) s ∧
    RunsAs (encodeR 0x1C a b c imm5) (a = 0 ∧ b = 0 ∧ imm5 = 0) (.nextpc c) s

/-! ### System instructions (spec/47_system.md) -/

/-- `break` and `trap` stop with `Breakpoint`, whatever their immediate, and change nothing else (R251, R252). -/
def Obligations.BreakAndTrap : Prop :=
  ∀ (a b c : RegIdx) (imm5 : BitVec 5) (s : State),
    StopsWith (.brk imm5) .breakpoint s ∧
    RunsAs (encodeR 0x34 a b c imm5) (a = 0 ∧ b = 0 ∧ c = 30) (.brk imm5) s ∧
    StopsWith (.trap imm5) .breakpoint s ∧
    RunsAs (encodeR 0x2D a b c imm5) (a = 0 ∧ b = 0 ∧ c = 29) (.trap imm5) s

/-- `eret` and `bret`: the checks in their order, then `status` takes the saved copy and `pc` the return address. -/
def Obligations.Returns : Prop :=
  ∀ (a b c : RegIdx) (imm5 : BitVec 5) (s : State),
    ((s.x 29).toNat % 4 = 0 → (s.ctlReg 0).getLsbD 1 = false →
      ∃ t, exec .eret s = .next t ∧ WroteCtl 0 (s.ctlReg 1) (s.x 29) s t) ∧
    ((s.x 29).toNat % 4 = 0 → (s.ctlReg 0).getLsbD 1 = true → StopsWith .eret .supervisorOnlyInstruction s) ∧
    ((s.x 29).toNat % 4 ≠ 0 → StopsWith .eret .misalignedDestinationAddress s) ∧
    RunsAs (encodeR 0x01 a b c imm5) (a = 29 ∧ b = 30 ∧ c = 0 ∧ imm5 = 0) .eret s ∧
    ((s.x 30).toNat % 4 = 0 → (s.ctlReg 0).getLsbD 1 = false →
      ∃ t, exec .bret s = .next t ∧ WroteCtl 0 (s.ctlReg 2) (s.x 30) s t) ∧
    ((s.x 30).toNat % 4 = 0 → (s.ctlReg 0).getLsbD 1 = true → StopsWith .bret .supervisorOnlyInstruction s) ∧
    ((s.x 30).toNat % 4 ≠ 0 → StopsWith .bret .misalignedDestinationAddress s) ∧
    RunsAs (encodeR 0x09 a b c imm5) (a = 30 ∧ b = 0 ∧ c = 30 ∧ imm5 = 0) .bret s

/-- `rdctl` and `wrctl`: supervisor only; `ipending` and `cpuid` are not written (R256, R257). -/
def Obligations.ControlRegisterAccess : Prop :=
  ∀ (a b c : RegIdx) (imm5 : BitVec 5) (s : State),
    (∀ n : Fin 16,
      ((s.ctlReg 0).getLsbD 1 = false → CompletesWith (.rdctl c (BitVec.ofNat 5 n)) c (s.ctlReg n) s) ∧
      ((s.ctlReg 0).getLsbD 1 = false → n ≠ 4 → n ≠ 5 →
        ∃ t, exec (.wrctl (BitVec.ofNat 5 n) a) s = .next t ∧ WroteCtl n (s.x a) (s.pc + 4) s t) ∧
      ((s.ctlReg 0).getLsbD 1 = false → n = 4 ∨ n = 5 →
        ∃ t, exec (.wrctl (BitVec.ofNat 5 n) a) s = .next t ∧ Moved (s.pc + 4) s t) ∧
      ((s.ctlReg 0).getLsbD 1 = true →
        StopsWith (.rdctl c (BitVec.ofNat 5 n)) .supervisorOnlyInstruction s ∧
        StopsWith (.wrctl (BitVec.ofNat 5 n) a) .supervisorOnlyInstruction s)) ∧
    RunsAs (encodeR 0x26 a b c imm5) (a = 0 ∧ b = 0 ∧ imm5.toNat < 16) (.rdctl c imm5) s ∧
    RunsAs (encodeR 0x2E a b c imm5) (b = 0 ∧ c = 0 ∧ imm5.toNat < 16) (.wrctl imm5 a) s

/-! ### Memory (spec/20_memory.md) -/

/-- `MemRead` and `MemWrite` against the section collection: bytes move up to the first gap, section of the wrong class
or, for a write, read-only section, and no further (R57, R58). A byte that nothing gave a value reads as the model's free
value (log 4). -/
def Obligations.MemoryPrimitives : Prop :=
  ∀ (s : State) (addr : Word) (acc : Access), s.wf →
    (∀ (n : Nat) (bs : List Byte), bs = s.memRead addr n acc →
      bs.length ≤ n ∧
      (∀ j (h : j < bs.length), s.sectionByte acc (addr.toNat % 2 ^ 31 + j) bs[j]) ∧
      (bs.length < n → ¬ ∃ v, s.sectionByte acc (addr.toNat % 2 ^ 31 + bs.length) v)) ∧
    (∀ (data : List Byte) (t : State) (k : Nat), (t, k) = s.memWrite addr data acc →
      k ≤ data.length ∧
      (∀ j < k, s.sectionWritable acc (addr.toNat % 2 ^ 31 + j)) ∧
      (k < data.length → ¬ s.sectionWritable acc (addr.toNat % 2 ^ 31 + k)) ∧
      (∀ j (h : j < data.length), j < k → t.peek (addr.toNat % 2 ^ 31 + j) = some data[j]) ∧
      (∀ p, p < addr.toNat % 2 ^ 31 ∨ addr.toNat % 2 ^ 31 + k ≤ p → t.peek p = s.peek p) ∧
      t.pc = s.pc ∧ SameRegs s t ∧ SameCtl s t ∧ t.out = s.out ∧ SameRun s t ∧ SameBlock s t)

/-- Addresses `2^31 + k` and `k` name the same byte, for every access, and no section covers a lookup address of 2^31 or
more (R55). -/
def Obligations.UpperHalfIsAnAlias : Prop :=
  ∀ (s : State) (k : Nat) (acc : Access), k < 2 ^ 31 →
    (∀ n, s.memRead (BitVec.ofNat 32 (2 ^ 31 + k)) n acc = s.memRead (BitVec.ofNat 32 k) n acc) ∧
    (∀ data, s.memWrite (BitVec.ofNat 32 (2 ^ 31 + k)) data acc = s.memWrite (BitVec.ofNat 32 k) data acc) ∧
    (∀ p, 2 ^ 31 ≤ p → s.peek p = none ∧ s.readableByte acc p = none ∧ s.writable acc p = false)

/-- The byte order (R60): the value of a byte list, its inverse, and the bytes of a stored word at their own addresses. -/
def Obligations.LittleEndian : Prop :=
  (∀ (b : Byte) (bs : List Byte), leNat (b :: bs) = b.toNat + 256 * leNat bs) ∧
  (∀ (v : Word) (n j : Nat) (h : j < (bytesLe v n).length), (bytesLe v n)[j] = v.extractLsb' (8 * j) 8) ∧
  (∀ v : Word, wordOfBytes (bytesLe v 4) = v) ∧
  (∀ (s : State) (addr v : Word) (j : Nat), addr.toNat % 4 = 0 → j < 4 →
    s.writes dataAccess (lookupAddr addr) 4 →
    (s.memWrite addr (bytesLe v 4) dataAccess).1.memRead (addr + BitVec.ofNat 32 j) 1 dataAccess
      = [v.extractLsb' (8 * j) 8])

/-- A word stored to a section that is also instruction-accessible is what the next fetch there reads, with no cache
operation between (R70). -/
def Obligations.FetchSeesTheStore : Prop :=
  ∀ (b a : RegIdx) (imm16 : BitVec 16) (s : State), (s.ea a imm16).toNat % 4 = 0 →
    s.writes dataAccess (lookupAddr (s.ea a imm16)) 4 →
    (∀ j < 4, (s.readableByte fetchAccess (lookupAddr (s.ea a imm16) + j)).isSome = true) →
    ∃ t, exec (.stw b a imm16) s = .next t ∧
      ∀ u : State, u.sections = t.sections → u.mem = t.mem → u.pc = s.ea a imm16 → u.fetch = some (s.x b)

/-! ### The host (spec/10_state.md R35, R36; spec/20_memory.md R53, R54) -/

/-- Host register access in the base variant (R21, R35): the index map, no check on a write, and a refusal outside it. -/
def Obligations.HostRegisterAccess : Prop :=
  ∀ (s : State) (v : Word), s.cfg.variant = .base → s.es ≠ .running →
    (∀ i : RegIdx, readRegister s i.toNat = some (s.x i)) ∧
    readRegister s 32 = some s.pc ∧
    (∀ n : Fin 16, readRegister s (33 + n.val) = some (s.ctlReg n)) ∧
    (∀ i : Int, i < 0 ∨ 49 ≤ i → readRegister s i = none ∧ writeRegister s i v = none) ∧
    writeRegister s 0 v = some s ∧
    (∀ i : RegIdx, ∃ t, writeRegister s i.toNat v = some t ∧ Wrote i v s.pc s t) ∧
    (∃ t, writeRegister s 32 v = some t ∧ Moved v s t) ∧
    (∀ n : Fin 16, ∃ t, writeRegister s (33 + n.val) v = some t ∧ WroteCtl n v s.pc s t)

/-- `add_memory` (R53, R54): when it is refused, and what it adds; the invariant stays. The stamp is the model's own
(log 4); that initial bytes past the length are accepted and not used (log 9), and that a name may be used twice (log 16),
are the model's choice and reading. -/
def Obligations.AddMemory : Prop :=
  ∀ (s : State) (name : String) (base : Nat) (flags : SectionFlags) (initial : List Byte) (length : Nat),
    s.es ≠ .running → s.wf →
    (addMemory s name base flags initial length = none ↔
      length = 0 ∨ 2 ^ 32 < base + length ∨
        ∃ u ∈ s.sections, ∃ p, u.covers p = true ∧ base ≤ p ∧ p < base + length) ∧
    (∀ t, addMemory s name base flags initial length = some t →
      t.wf ∧ (∃ stamp, ∀ u, u ∈ t.sections ↔ u ∈ s.sections ∨ u = ⟨name, base, base + length, flags, stamp⟩) ∧
      (∀ j (h : j < initial.length), j < length → base + j < 2 ^ 31 → t.peek (base + j) = some initial[j]) ∧
      (∀ p, p < base ∨ base + length ≤ p → t.peek p = s.peek p) ∧
      t.pc = s.pc ∧ SameRegs s t ∧ SameCtl s t ∧ t.out = s.out ∧ SameRun s t ∧ t.hirq = s.hirq ∧ t.cfg = s.cfg ∧
      t.dpxRegs = s.dpxRegs ∧ t.singleStep = s.singleStep)

/-- `reset()` (R36, R300 to R302): refused while running (the model's choice, log 13), else every value that
the spec gives, with no memory; the step made then stops at the fetch. -/
def Obligations.HostReset : Prop :=
  ∀ s : State, (s.es = .running → hostReset s = none) ∧
    (s.es ≠ .running → ∃ t, hostReset s = some t ∧
      t.x 0 = 0 ∧ t.pc = s.cfg.resetAddr ∧ t.ctlReg 0 = 0 ∧ t.ctlReg 3 = 0 ∧ t.ctlReg 4 = 0 ∧
      t.ctlReg 5 = s.cfg.cpuid ∧ t.es = .stopped ∧ t.sr = none ∧ t.sections = [] ∧ t.out = [] ∧ t.hirq = false ∧
      t.cfg = s.cfg ∧ (∀ p, t.peek p = none) ∧
      (∃ u, step t = .next u ∧
        Stopped (if s.cfg.resetAddr.toNat % 4 = 0 then .instructionAccessFault else .misalignedDestinationAddress)
          t u))

/-! ### Added after review -/

/-- No stop reason is pending while the machine runs: every step keeps it (R31; spec/41_interpreter_step.md R132). -/
def Obligations.RunningHasNoReason : Prop :=
  ∀ s t : State, s.noReasonRunning → step s = .next t → t.noReasonRunning

/-- The dpx decoder on its open parameters (R119 to R122). An accessor reads the bits of its place in the word's format,
as an unsigned or a two's-complement number, the ranges of a place concatenated; and where the rows of the table are
disjoint (log 18), recognition is match and mask, row by row. -/
def Obligations.DpxDecoding : Prop :=
  (∀ (l : DpxLayout) (k : DpxField) (w : Word) (r : BitRange), r.lo ≤ r.hi →
    (dpxPosition l (dpxFormat l w) k = ⟨[r], false⟩ →
      (dpxField l k w).toNat = w.toNat / 2 ^ r.lo.val % 2 ^ r.width) ∧
    (dpxPosition l (dpxFormat l w) k = ⟨[r], true⟩ →
      (dpxField l k w).toInt =
        if w.toNat / 2 ^ r.lo.val % 2 ^ r.width < 2 ^ (r.width - 1)
        then ((w.toNat / 2 ^ r.lo.val % 2 ^ r.width : Nat) : Int)
        else ((w.toNat / 2 ^ r.lo.val % 2 ^ r.width : Nat) : Int) - 2 ^ r.width) ∧
    (∀ q : BitRange, q.lo ≤ q.hi → r.width + q.width ≤ 32 → dpxPosition l (dpxFormat l w) k = ⟨[r, q], false⟩ →
      (dpxField l k w).toNat =
        w.toNat / 2 ^ r.lo.val % 2 ^ r.width * 2 ^ q.width + w.toNat / 2 ^ q.lo.val % 2 ^ q.width)) ∧
  (∀ (c : Cfg) (w : Word) (r : DpxRow), c.dpxRowsDisjoint →
    (dpxClassify c w = some r ↔ r ∈ c.dpxOptable ∧ w &&& r.mask = r.pattern))
end

