-- ==== Sys2Proof/Laws/Encoding.lean ====
section
/-! SUPPORT. The fields of an encoded word (spec/40_decoder.md R124: the encoder is the inverse of the accessors). -/

namespace Sys2Proof

/-! ### The value of an encoded word -/

theorem encodeI_toNat (op : Nat) (a b : RegIdx) (imm16 : BitVec 16) (h : op < 64) :
    (encodeI op a b imm16).toNat = a.toNat * 2 ^ 27 + b.toNat * 2 ^ 22 + imm16.toNat * 2 ^ 6 + op := by
  unfold encodeI
  rw [BitVec.toNat_ofNat]
  have := a.isLt; have := b.isLt; have := imm16.isLt
  omega

theorem encodeR_toNat (opx : Nat) (a b c : RegIdx) (imm5 : BitVec 5) (h : opx < 64) :
    (encodeR opx a b c imm5).toNat
      = a.toNat * 2 ^ 27 + b.toNat * 2 ^ 22 + c.toNat * 2 ^ 17 + opx * 2 ^ 11 + imm5.toNat * 2 ^ 6 + 0x3A := by
  unfold encodeR
  rw [BitVec.toNat_ofNat]
  have := a.isLt; have := b.isLt; have := c.isLt; have := imm5.isLt
  omega

theorem encodeJ_toNat (op : Nat) (imm26 : BitVec 26) (h : op < 64) :
    (encodeJ op imm26).toNat = imm26.toNat * 2 ^ 6 + op := by
  unfold encodeJ
  rw [BitVec.toNat_ofNat]
  have := imm26.isLt
  omega

/-! ### The accessors as arithmetic on the value (R111 to R118) -/

theorem extract_toNat (w : Word) (lo n : Nat) : (w.extractLsb' lo n).toNat = w.toNat / 2 ^ lo % 2 ^ n := by
  rw [BitVec.extractLsb'_toNat, Nat.shiftRight_eq_div_pow]

theorem fieldOp_toNat (w : Word) : (fieldOp w).toNat = w.toNat % 64 := by
  unfold fieldOp; rw [extract_toNat]; simp

theorem fieldOpx_toNat (w : Word) : (fieldOpx w).toNat = w.toNat / 2 ^ 11 % 64 := extract_toNat w 11 6

theorem fieldA_toNat (w : Word) : (fieldA w).toNat = w.toNat / 2 ^ 27 % 32 := extract_toNat w 27 5

theorem fieldB_toNat (w : Word) : (fieldB w).toNat = w.toNat / 2 ^ 22 % 32 := extract_toNat w 22 5

theorem fieldC_toNat (w : Word) : (fieldC w).toNat = w.toNat / 2 ^ 17 % 32 := extract_toNat w 17 5

theorem fieldImm16_toNat (w : Word) : (fieldImm16 w).toNat = w.toNat / 2 ^ 6 % 65536 := extract_toNat w 6 16

theorem fieldImm5_toNat (w : Word) : (fieldImm5 w).toNat = w.toNat / 2 ^ 6 % 32 := extract_toNat w 6 5

theorem ctlidx_toNat (w : Word) : (ctlidx w).toNat = w.toNat / 2 ^ 6 % 32 := extract_toNat w 6 5

theorem fieldImm26_toNat (w : Word) : (fieldImm26 w).toNat = w.toNat / 2 ^ 6 % 67108864 := extract_toNat w 6 26

/-! ### Fields of an I-type word -/

section
variable (op : Nat) (a b : RegIdx) (imm16 : BitVec 16) (h : op < 64)
include h

@[simp] theorem fieldOp_encodeI : fieldOp (encodeI op a b imm16) = BitVec.ofNat 6 op := by
  apply BitVec.eq_of_toNat_eq; rw [fieldOp_toNat, encodeI_toNat op a b imm16 h, BitVec.toNat_ofNat]; omega

@[simp] theorem fieldA_encodeI : fieldA (encodeI op a b imm16) = a := by
  apply BitVec.eq_of_toNat_eq; rw [fieldA_toNat, encodeI_toNat op a b imm16 h]
  have := a.isLt; have := b.isLt; have := imm16.isLt; omega

@[simp] theorem fieldB_encodeI : fieldB (encodeI op a b imm16) = b := by
  apply BitVec.eq_of_toNat_eq; rw [fieldB_toNat, encodeI_toNat op a b imm16 h]
  have := a.isLt; have := b.isLt; have := imm16.isLt; omega

@[simp] theorem fieldImm16_encodeI : fieldImm16 (encodeI op a b imm16) = imm16 := by
  apply BitVec.eq_of_toNat_eq; rw [fieldImm16_toNat, encodeI_toNat op a b imm16 h]
  have := a.isLt; have := b.isLt; have := imm16.isLt; omega

end

/-! ### Fields of an R-type word -/

section
variable (opx : Nat) (a b c : RegIdx) (imm5 : BitVec 5) (h : opx < 64)
include h

@[simp] theorem fieldOp_encodeR : fieldOp (encodeR opx a b c imm5) = 0x3A#6 := by
  apply BitVec.eq_of_toNat_eq; rw [fieldOp_toNat, encodeR_toNat opx a b c imm5 h]
  show _ = 58
  omega

@[simp] theorem fieldOpx_encodeR : fieldOpx (encodeR opx a b c imm5) = BitVec.ofNat 6 opx := by
  apply BitVec.eq_of_toNat_eq; rw [fieldOpx_toNat, encodeR_toNat opx a b c imm5 h, BitVec.toNat_ofNat]
  have := imm5.isLt; omega

@[simp] theorem fieldA_encodeR : fieldA (encodeR opx a b c imm5) = a := by
  apply BitVec.eq_of_toNat_eq; rw [fieldA_toNat, encodeR_toNat opx a b c imm5 h]
  have := a.isLt; have := b.isLt; have := c.isLt; have := imm5.isLt; omega

@[simp] theorem fieldB_encodeR : fieldB (encodeR opx a b c imm5) = b := by
  apply BitVec.eq_of_toNat_eq; rw [fieldB_toNat, encodeR_toNat opx a b c imm5 h]
  have := a.isLt; have := b.isLt; have := c.isLt; have := imm5.isLt; omega

@[simp] theorem fieldC_encodeR : fieldC (encodeR opx a b c imm5) = c := by
  apply BitVec.eq_of_toNat_eq; rw [fieldC_toNat, encodeR_toNat opx a b c imm5 h]
  have := a.isLt; have := b.isLt; have := c.isLt; have := imm5.isLt; omega

@[simp] theorem fieldImm5_encodeR : fieldImm5 (encodeR opx a b c imm5) = imm5 := by
  apply BitVec.eq_of_toNat_eq; rw [fieldImm5_toNat, encodeR_toNat opx a b c imm5 h]
  have := a.isLt; have := b.isLt; have := c.isLt; have := imm5.isLt; omega

@[simp] theorem ctlidx_encodeR : ctlidx (encodeR opx a b c imm5) = imm5 := fieldImm5_encodeR opx a b c imm5 h

end

/-! ### Fields of a J-type word -/

section
variable (op : Nat) (imm26 : BitVec 26) (h : op < 64)
include h

@[simp] theorem fieldOp_encodeJ : fieldOp (encodeJ op imm26) = BitVec.ofNat 6 op := by
  apply BitVec.eq_of_toNat_eq; rw [fieldOp_toNat, encodeJ_toNat op imm26 h, BitVec.toNat_ofNat]; omega

@[simp] theorem fieldImm26_encodeJ : fieldImm26 (encodeJ op imm26) = imm26 := by
  apply BitVec.eq_of_toNat_eq; rw [fieldImm26_toNat, encodeJ_toNat op imm26 h]
  have := imm26.isLt; omega

end

/-! ### Recognition of an encoded word -/

theorem classify_encodeI (op : Nat) (a b : RegIdx) (imm16 : BitVec 16) (h : op < 64) (h' : op ≠ 0x3A) :
    classify (encodeI op a b imm16) = classifyOp op := by
  unfold classify
  rw [fieldOp_encodeI op a b imm16 h, if_neg, BitVec.toNat_ofNat, Nat.mod_eq_of_lt h]
  intro e
  have := congrArg BitVec.toNat e
  rw [BitVec.toNat_ofNat, Nat.mod_eq_of_lt h] at this
  exact h' this

theorem classify_encodeR (opx : Nat) (a b c : RegIdx) (imm5 : BitVec 5) (h : opx < 64) :
    classify (encodeR opx a b c imm5) = classifyOpx opx := by
  unfold classify
  rw [fieldOp_encodeR opx a b c imm5 h, if_pos rfl, fieldOpx_encodeR opx a b c imm5 h, BitVec.toNat_ofNat,
    Nat.mod_eq_of_lt h]

theorem classify_encodeJ (op : Nat) (imm26 : BitVec 26) (h : op < 64) (h' : op ≠ 0x3A) :
    classify (encodeJ op imm26) = classifyOp op := by
  unfold classify
  rw [fieldOp_encodeJ op imm26 h, if_neg, BitVec.toNat_ofNat, Nat.mod_eq_of_lt h]
  intro e
  have := congrArg BitVec.toNat e
  rw [BitVec.toNat_ofNat, Nat.mod_eq_of_lt h] at this
  exact h' this

/-! ### A word is packed from its fields, and a recognised and legal word decodes to its operands -/

theorem packI (w : Word) : encodeI (fieldOp w).toNat (fieldA w) (fieldB w) (fieldImm16 w) = w := by
  apply BitVec.eq_of_toNat_eq
  rw [encodeI_toNat _ _ _ _ (fieldOp w).isLt, fieldOp_toNat, fieldA_toNat, fieldB_toNat, fieldImm16_toNat]
  have := w.isLt; omega

theorem packR (w : Word) (h : fieldOp w = 0x3A#6) :
    encodeR (fieldOpx w).toNat (fieldA w) (fieldB w) (fieldC w) (fieldImm5 w) = w := by
  apply BitVec.eq_of_toNat_eq
  have h' := congrArg BitVec.toNat h
  rw [fieldOp_toNat] at h'
  have h'' : w.toNat % 64 = 58 := h'
  rw [encodeR_toNat _ _ _ _ _ (fieldOpx w).isLt, fieldOpx_toNat, fieldA_toNat, fieldB_toNat, fieldC_toNat,
    fieldImm5_toNat]
  have := w.isLt; omega

theorem packJ (w : Word) : encodeJ (fieldOp w).toNat (fieldImm26 w) = w := by
  apply BitVec.eq_of_toNat_eq
  rw [encodeJ_toNat _ _ (fieldOp w).isLt, fieldOp_toNat, fieldImm26_toNat]
  have := w.isLt; omega

theorem decode_of_classify {w : Word} {o : Opcode} (h : classify w = some o) (hf : formatOk o w = true) :
    decode w = .instr (operands o w) := by
  unfold decode; rw [h]; simp [hf]

theorem decode_illegal {w : Word} {o : Opcode} (h : classify w = some o) (hf : formatOk o w = false) :
    decode w = .illegalFormat o := by
  unfold decode; rw [h]; simp [hf]

theorem decode_unrecognised {w : Word} (h : classify w = none) : decode w = .unrecognised := by
  unfold decode; rw [h]

end Sys2Proof
end

