-- ==== Sys2Proof/Laws/State.lean ====
section
/-! SUPPORT. One lemma for each field under each named update of the state, and the reads through an update, so that no
proof unfolds a record update. -/

namespace Sys2Proof.Machine

/-! ### `setX` -/

@[simp] theorem State.setX_pc (s : State) (i : RegIdx) (v : Word) : (s.setX i v).pc = s.pc := by unfold State.setX; split <;> rfl
@[simp] theorem State.setX_ctl (s : State) (i : RegIdx) (v : Word) : (s.setX i v).ctl = s.ctl := by unfold State.setX; split <;> rfl
@[simp] theorem State.setX_dpxRegs (s : State) (i : RegIdx) (v : Word) : (s.setX i v).dpxRegs = s.dpxRegs := by unfold State.setX; split <;> rfl
@[simp] theorem State.setX_es (s : State) (i : RegIdx) (v : Word) : (s.setX i v).es = s.es := by unfold State.setX; split <;> rfl
@[simp] theorem State.setX_sr (s : State) (i : RegIdx) (v : Word) : (s.setX i v).sr = s.sr := by unfold State.setX; split <;> rfl
@[simp] theorem State.setX_ec (s : State) (i : RegIdx) (v : Word) : (s.setX i v).ec = s.ec := by unfold State.setX; split <;> rfl
@[simp] theorem State.setX_sections (s : State) (i : RegIdx) (v : Word) : (s.setX i v).sections = s.sections := by unfold State.setX; split <;> rfl
@[simp] theorem State.setX_mem (s : State) (i : RegIdx) (v : Word) : (s.setX i v).mem = s.mem := by unfold State.setX; split <;> rfl
@[simp] theorem State.setX_out (s : State) (i : RegIdx) (v : Word) : (s.setX i v).out = s.out := by unfold State.setX; split <;> rfl
@[simp] theorem State.setX_hirq (s : State) (i : RegIdx) (v : Word) : (s.setX i v).hirq = s.hirq := by unfold State.setX; split <;> rfl
@[simp] theorem State.setX_cfg (s : State) (i : RegIdx) (v : Word) : (s.setX i v).cfg = s.cfg := by unfold State.setX; split <;> rfl
@[simp] theorem State.setX_singleStep (s : State) (i : RegIdx) (v : Word) : (s.setX i v).singleStep = s.singleStep := by unfold State.setX; split <;> rfl
@[simp] theorem State.setX_freeCtr (s : State) (i : RegIdx) (v : Word) : (s.setX i v).freeCtr = s.freeCtr := by unfold State.setX; split <;> rfl

/-! ### `setPc` -/

@[simp] theorem State.setPc_regs (s : State) (t : Word) : (s.setPc t).regs = s.regs := rfl
@[simp] theorem State.setPc_ctl (s : State) (t : Word) : (s.setPc t).ctl = s.ctl := rfl
@[simp] theorem State.setPc_dpxRegs (s : State) (t : Word) : (s.setPc t).dpxRegs = s.dpxRegs := rfl
@[simp] theorem State.setPc_es (s : State) (t : Word) : (s.setPc t).es = s.es := rfl
@[simp] theorem State.setPc_sr (s : State) (t : Word) : (s.setPc t).sr = s.sr := rfl
@[simp] theorem State.setPc_ec (s : State) (t : Word) : (s.setPc t).ec = s.ec := rfl
@[simp] theorem State.setPc_sections (s : State) (t : Word) : (s.setPc t).sections = s.sections := rfl
@[simp] theorem State.setPc_mem (s : State) (t : Word) : (s.setPc t).mem = s.mem := rfl
@[simp] theorem State.setPc_out (s : State) (t : Word) : (s.setPc t).out = s.out := rfl
@[simp] theorem State.setPc_hirq (s : State) (t : Word) : (s.setPc t).hirq = s.hirq := rfl
@[simp] theorem State.setPc_cfg (s : State) (t : Word) : (s.setPc t).cfg = s.cfg := rfl
@[simp] theorem State.setPc_singleStep (s : State) (t : Word) : (s.setPc t).singleStep = s.singleStep := rfl
@[simp] theorem State.setPc_freeCtr (s : State) (t : Word) : (s.setPc t).freeCtr = s.freeCtr := rfl

/-! ### `setCtl` -/

@[simp] theorem State.setCtl_regs (s : State) (n : Fin 16) (v : Word) : (s.setCtl n v).regs = s.regs := rfl
@[simp] theorem State.setCtl_pc (s : State) (n : Fin 16) (v : Word) : (s.setCtl n v).pc = s.pc := rfl
@[simp] theorem State.setCtl_dpxRegs (s : State) (n : Fin 16) (v : Word) : (s.setCtl n v).dpxRegs = s.dpxRegs := rfl
@[simp] theorem State.setCtl_es (s : State) (n : Fin 16) (v : Word) : (s.setCtl n v).es = s.es := rfl
@[simp] theorem State.setCtl_sr (s : State) (n : Fin 16) (v : Word) : (s.setCtl n v).sr = s.sr := rfl
@[simp] theorem State.setCtl_ec (s : State) (n : Fin 16) (v : Word) : (s.setCtl n v).ec = s.ec := rfl
@[simp] theorem State.setCtl_sections (s : State) (n : Fin 16) (v : Word) : (s.setCtl n v).sections = s.sections := rfl
@[simp] theorem State.setCtl_mem (s : State) (n : Fin 16) (v : Word) : (s.setCtl n v).mem = s.mem := rfl
@[simp] theorem State.setCtl_out (s : State) (n : Fin 16) (v : Word) : (s.setCtl n v).out = s.out := rfl
@[simp] theorem State.setCtl_hirq (s : State) (n : Fin 16) (v : Word) : (s.setCtl n v).hirq = s.hirq := rfl
@[simp] theorem State.setCtl_cfg (s : State) (n : Fin 16) (v : Word) : (s.setCtl n v).cfg = s.cfg := rfl
@[simp] theorem State.setCtl_singleStep (s : State) (n : Fin 16) (v : Word) : (s.setCtl n v).singleStep = s.singleStep := rfl
@[simp] theorem State.setCtl_freeCtr (s : State) (n : Fin 16) (v : Word) : (s.setCtl n v).freeCtr = s.freeCtr := rfl

/-! ### `raiseStop` -/

@[simp] theorem State.raiseStop_regs (s : State) (r : StopReason) : (s.raiseStop r).regs = s.regs := rfl
@[simp] theorem State.raiseStop_pc (s : State) (r : StopReason) : (s.raiseStop r).pc = s.pc := rfl
@[simp] theorem State.raiseStop_ctl (s : State) (r : StopReason) : (s.raiseStop r).ctl = s.ctl := rfl
@[simp] theorem State.raiseStop_dpxRegs (s : State) (r : StopReason) : (s.raiseStop r).dpxRegs = s.dpxRegs := rfl
@[simp] theorem State.raiseStop_ec (s : State) (r : StopReason) : (s.raiseStop r).ec = s.ec := rfl
@[simp] theorem State.raiseStop_sections (s : State) (r : StopReason) : (s.raiseStop r).sections = s.sections := rfl
@[simp] theorem State.raiseStop_mem (s : State) (r : StopReason) : (s.raiseStop r).mem = s.mem := rfl
@[simp] theorem State.raiseStop_out (s : State) (r : StopReason) : (s.raiseStop r).out = s.out := rfl
@[simp] theorem State.raiseStop_hirq (s : State) (r : StopReason) : (s.raiseStop r).hirq = s.hirq := rfl
@[simp] theorem State.raiseStop_cfg (s : State) (r : StopReason) : (s.raiseStop r).cfg = s.cfg := rfl
@[simp] theorem State.raiseStop_singleStep (s : State) (r : StopReason) : (s.raiseStop r).singleStep = s.singleStep := rfl
@[simp] theorem State.raiseStop_freeCtr (s : State) (r : StopReason) : (s.raiseStop r).freeCtr = s.freeCtr := rfl

/-! ### `setByte` -/

@[simp] theorem State.setByte_regs (s : State) (p : Nat) (b : Byte) : (s.setByte p b).regs = s.regs := rfl
@[simp] theorem State.setByte_pc (s : State) (p : Nat) (b : Byte) : (s.setByte p b).pc = s.pc := rfl
@[simp] theorem State.setByte_ctl (s : State) (p : Nat) (b : Byte) : (s.setByte p b).ctl = s.ctl := rfl
@[simp] theorem State.setByte_dpxRegs (s : State) (p : Nat) (b : Byte) : (s.setByte p b).dpxRegs = s.dpxRegs := rfl
@[simp] theorem State.setByte_es (s : State) (p : Nat) (b : Byte) : (s.setByte p b).es = s.es := rfl
@[simp] theorem State.setByte_sr (s : State) (p : Nat) (b : Byte) : (s.setByte p b).sr = s.sr := rfl
@[simp] theorem State.setByte_ec (s : State) (p : Nat) (b : Byte) : (s.setByte p b).ec = s.ec := rfl
@[simp] theorem State.setByte_sections (s : State) (p : Nat) (b : Byte) : (s.setByte p b).sections = s.sections := rfl
@[simp] theorem State.setByte_out (s : State) (p : Nat) (b : Byte) : (s.setByte p b).out = s.out := rfl
@[simp] theorem State.setByte_hirq (s : State) (p : Nat) (b : Byte) : (s.setByte p b).hirq = s.hirq := rfl
@[simp] theorem State.setByte_cfg (s : State) (p : Nat) (b : Byte) : (s.setByte p b).cfg = s.cfg := rfl
@[simp] theorem State.setByte_singleStep (s : State) (p : Nat) (b : Byte) : (s.setByte p b).singleStep = s.singleStep := rfl
@[simp] theorem State.setByte_freeCtr (s : State) (p : Nat) (b : Byte) : (s.setByte p b).freeCtr = s.freeCtr := rfl

/-! ### The fields that an update sets -/

@[simp] theorem State.setPc_pc (s : State) (t : Word) : (s.setPc t).pc = t := rfl
@[simp] theorem State.raiseStop_es (s : State) (r : StopReason) : (s.raiseStop r).es = .stopped := rfl
@[simp] theorem State.raiseStop_sr (s : State) (r : StopReason) : (s.raiseStop r).sr = some r := rfl
@[simp] theorem State.setByte_mem (s : State) (p : Nat) (b : Byte) :
    (s.setByte p b).mem = Memory.set s.mem p b := rfl
@[simp] theorem State.setX_zero (s : State) (v : Word) : s.setX 0#5 v = s := rfl

/-! ### Registers through an update -/

@[simp] theorem State.x_zero (s : State) : s.x 0#5 = 0#32 := rfl

/-- Reading a general register after writing one (R22, R23). -/
theorem State.x_setX (s : State) (d : RegIdx) (v : Word) (i : RegIdx) :
    (s.setX d v).x i = if i = d then (if d = 0 then 0 else v) else s.x i := by
  unfold State.x State.setX
  by_cases hd : d = 0
  · by_cases hi : i = d
    · rw [if_pos hd, if_pos hi, if_pos hd, if_pos (hi.trans hd)]
    · rw [if_pos hd, if_neg hi]
  · rw [if_neg hd]
    by_cases hi : i = d
    · rw [if_neg (fun e => hd (hi.symm.trans e)), if_pos hi, if_neg hd]
      subst hi; simp
    · rw [if_neg hi]
      have h' : d.toNat ≠ i.toNat := fun e => hi (BitVec.eq_of_toNat_eq e.symm)
      simp [h']

@[simp] theorem State.x_setX_self (s : State) (d : RegIdx) (v : Word) :
    (s.setX d v).x d = if d = 0 then 0 else v := by simp [State.x_setX]

theorem State.x_setX_of_ne (s : State) {d i : RegIdx} (v : Word) (h : i ≠ d) : (s.setX d v).x i = s.x i := by
  simp [State.x_setX, h]

@[simp] theorem State.ctlReg_setX (s : State) (i : RegIdx) (v : Word) (k : Fin 16) : (s.setX i v).ctlReg k = s.ctlReg k := by
  unfold State.ctlReg; rw [State.setX_ctl]
@[simp] theorem State.x_setPc (s : State) (t : Word) (i : RegIdx) : (s.setPc t).x i = s.x i := rfl
@[simp] theorem State.ctlReg_setPc (s : State) (t : Word) (k : Fin 16) : (s.setPc t).ctlReg k = s.ctlReg k := rfl
@[simp] theorem State.x_setCtl (s : State) (n : Fin 16) (v : Word) (i : RegIdx) : (s.setCtl n v).x i = s.x i := rfl
@[simp] theorem State.x_raiseStop (s : State) (r : StopReason) (i : RegIdx) : (s.raiseStop r).x i = s.x i := rfl
@[simp] theorem State.ctlReg_raiseStop (s : State) (r : StopReason) (k : Fin 16) : (s.raiseStop r).ctlReg k = s.ctlReg k := rfl
@[simp] theorem State.x_setByte (s : State) (p : Nat) (b : Byte) (i : RegIdx) : (s.setByte p b).x i = s.x i := rfl
@[simp] theorem State.ctlReg_setByte (s : State) (p : Nat) (b : Byte) (k : Fin 16) : (s.setByte p b).ctlReg k = s.ctlReg k := rfl

/-- Reading a control register after writing one (R27, R28). -/
theorem State.ctlReg_setCtl (s : State) (d : Fin 16) (v : Word) (n : Fin 16) :
    (s.setCtl d v).ctlReg n = if n = d then v else s.ctlReg n := by
  unfold State.ctlReg State.setCtl
  by_cases h : n = d
  · subst h; simp
  · have h' : d.val ≠ n.val := fun e => h (Fin.ext e.symm)
    simp [h, h']

@[simp] theorem State.ctlReg_setCtl_self (s : State) (d : Fin 16) (v : Word) : (s.setCtl d v).ctlReg d = v := by
  simp [State.ctlReg_setCtl]

/-! ### Memory through an update that leaves `sections` and `mem` alone -/

/-- Two states with the same sections and the same listed bytes read the same memory. -/
theorem State.peek_congr {s t : State} (hs : t.sections = s.sections) (hm : t.mem = s.mem) (p : Nat) :
    t.peek p = s.peek p := by
  unfold State.peek State.sectAt State.byteOf; rw [hs, hm]

theorem State.sectAt_congr {s t : State} (hs : t.sections = s.sections) (p : Nat) : t.sectAt p = s.sectAt p := by
  unfold State.sectAt; rw [hs]

theorem State.readableByte_congr {s t : State} (hs : t.sections = s.sections) (hm : t.mem = s.mem) (acc : Access)
    (p : Nat) : t.readableByte acc p = s.readableByte acc p := by
  unfold State.readableByte State.byteOf; rw [State.sectAt_congr hs p, hm]

theorem State.readFrom_congr {s t : State} (hs : t.sections = s.sections) (hm : t.mem = s.mem) (acc : Access)
    (n p : Nat) : t.readFrom acc p n = s.readFrom acc p n := by
  induction n generalizing p with
  | zero => rfl
  | succ n ih => unfold State.readFrom; rw [State.readableByte_congr hs hm acc p, ih (p + 1)]

theorem State.memRead_congr {s t : State} (hs : t.sections = s.sections) (hm : t.mem = s.mem) (addr : Word) (n : Nat)
    (acc : Access) : t.memRead addr n acc = s.memRead addr n acc := State.readFrom_congr hs hm _ n _

theorem State.writable_congr {s t : State} (hs : t.sections = s.sections) (acc : Access) (p : Nat) :
    t.writable acc p = s.writable acc p := by
  unfold State.writable; rw [State.sectAt_congr hs p]

theorem State.fetch_congr {s t : State} (hs : t.sections = s.sections) (hm : t.mem = s.mem) (hp : t.pc = s.pc) :
    t.fetch = s.fetch := by
  unfold State.fetch; rw [hp, State.memRead_congr hs hm]

@[simp] theorem State.peek_setX (s : State) (i : RegIdx) (v : Word) (q : Nat) : (s.setX i v).peek q = s.peek q :=
  State.peek_congr (by simp) (by simp) q
@[simp] theorem State.peek_setPc (s : State) (t : Word) (q : Nat) : (s.setPc t).peek q = s.peek q :=
  State.peek_congr (by simp) (by simp) q
@[simp] theorem State.peek_setCtl (s : State) (n : Fin 16) (v : Word) (q : Nat) : (s.setCtl n v).peek q = s.peek q :=
  State.peek_congr (by simp) (by simp) q
@[simp] theorem State.peek_raiseStop (s : State) (r : StopReason) (q : Nat) : (s.raiseStop r).peek q = s.peek q :=
  State.peek_congr (by simp) (by simp) q

end Sys2Proof.Machine
end

