-- ==== Sys2Proof/Laws/Memory.lean ====
section
/-! SUPPORT. The laws of memory: read after write, the canonical form kept by every operation, and the loops of
`MemRead` and `MemWrite` (spec/20_memory.md R57, R58). -/

namespace Sys2Proof.Machine

/-! ### Cells -/

theorem Memory.get?_set (m : Memory) (a p : Nat) (b : Byte) :
    Memory.get? (Memory.set m a b) p = if p = a then some b else Memory.get? m p := by
  induction m with
  | nil => by_cases h : a = p <;> simp [Memory.set, Memory.get?, h, eq_comm]
  | cons c m ih =>
    unfold Memory.set
    by_cases h1 : a < c.1
    · rw [if_pos h1]
      by_cases h : a = p <;> simp [Memory.get?, h, eq_comm]
    · by_cases h2 : a = c.1
      · subst h2
        by_cases h : c.1 = p
        · simp [Memory.get?, h]
        · simp [Memory.get?, h, Ne.symm h]
      · simp only [h1, h2, if_false, Memory.get?, ih]
        by_cases h : c.1 = p
        · have : p ≠ a := fun e => h2 (e.symm.trans h.symm)
          simp [h, this]
        · simp [h]

theorem Memory.mem_set {m : Memory} {a : Nat} {b : Byte} {c : Host.Cell} (h : c ∈ Memory.set m a b) :
    c = (a, b) ∨ c ∈ m := by
  induction m with
  | nil => simpa [Memory.set] using h
  | cons d m ih =>
    unfold Memory.set at h
    split at h
    · simpa using h
    · split at h
      · simp only [List.mem_cons] at h ⊢; tauto
      · simp only [List.mem_cons] at h ⊢
        rcases h with h | h
        · tauto
        · rcases ih h with h | h <;> tauto

theorem Memory.set_wf {m : Memory} (a : Nat) (b : Byte) (h : Memory.wf m) : Memory.wf (Memory.set m a b) := by
  induction m with
  | nil => simp [Memory.set, Memory.wf]
  | cons c m ih =>
    have hc := List.pairwise_cons.1 h
    unfold Memory.set
    split
    · rename_i h1
      refine List.pairwise_cons.2 ⟨fun d hd => ?_, h⟩
      rcases List.mem_cons.1 hd with rfl | hd
      · exact h1
      · exact Nat.lt_trans h1 (hc.1 d hd)
    · split
      · rename_i h2
        exact List.pairwise_cons.2 ⟨fun d hd => by rw [h2]; exact hc.1 d hd, hc.2⟩
      · rename_i h1 h2
        refine List.pairwise_cons.2 ⟨fun d hd => ?_, ih hc.2⟩
        rcases Memory.mem_set hd with rfl | hd
        · exact Nat.lt_of_le_of_ne (Nat.le_of_not_lt h1) (Ne.symm h2)
        · exact hc.1 d hd

theorem Memory.setBytes_wf {m : Memory} (a : Nat) (bs : List Byte) (h : Memory.wf m) :
    Memory.wf (Memory.setBytes m a bs) := by
  induction bs generalizing m a with
  | nil => exact h
  | cons b bs ih => exact ih _ (Memory.set_wf a b h)

theorem Memory.filter_wf {m : Memory} (p : Host.Cell → Bool) (h : Memory.wf m) : Memory.wf (m.filter p) :=
  List.Pairwise.filter p h

theorem Memory.eraseRange_wf {m : Memory} (lo hi : Nat) (h : Memory.wf m) : Memory.wf (m.eraseRange lo hi) :=
  Memory.filter_wf _ h

/-- The bytes listed after `setBytes`: the new ones inside the range, the old ones outside it. -/
theorem Memory.get?_setBytes (m : Memory) (a : Nat) (bs : List Byte) (p : Nat) :
    Memory.get? (Memory.setBytes m a bs) p
      = if a ≤ p ∧ p < a + bs.length then bs[p - a]? else Memory.get? m p := by
  induction bs generalizing m a with
  | nil =>
    have : ¬ (a ≤ p ∧ p < a + ([] : List Byte).length) := by simp
    rw [if_neg this]; rfl
  | cons b bs ih =>
    simp only [Memory.setBytes, ih, Memory.get?_set, List.length_cons]
    by_cases h : p = a
    · subst h; simp
    · by_cases h1 : a + 1 ≤ p ∧ p < a + 1 + bs.length
      · have h2 : a ≤ p ∧ p < a + (bs.length + 1) := by omega
        rw [if_pos h1, if_pos h2]
        have : p - a = (p - (a + 1)) + 1 := by omega
        rw [this, List.getElem?_cons_succ]
      · have h2 : ¬ (a ≤ p ∧ p < a + (bs.length + 1)) := by omega
        rw [if_neg h1, if_neg h, if_neg h2]

theorem Memory.mem_setBytes {m : Memory} {a : Nat} {bs : List Byte} {c : Host.Cell}
    (h : c ∈ Memory.setBytes m a bs) : (a ≤ c.1 ∧ c.1 < a + bs.length) ∨ c ∈ m := by
  induction bs generalizing m a with
  | nil => exact Or.inr h
  | cons b bs ih =>
    rcases ih h with h | h
    · exact Or.inl (by simp only [List.length_cons]; omega)
    · rcases Memory.mem_set h with rfl | h
      · exact Or.inl (by simp)
      · exact Or.inr h

/-! ### One byte through a byte write -/

@[simp] theorem State.sectAt_setByte (s : State) (q : Nat) (b : Byte) (p : Nat) :
    (s.setByte q b).sectAt p = s.sectAt p := rfl

@[simp] theorem State.writable_setByte (s : State) (q : Nat) (b : Byte) (acc : Access) (p : Nat) :
    (s.setByte q b).writable acc p = s.writable acc p := rfl

theorem State.byteOf_setByte (s : State) (q : Nat) (b : Byte) (t : Section) (p : Nat) :
    (s.setByte q b).byteOf t p = if p = q then b else s.byteOf t p := by
  unfold State.byteOf
  rw [State.setByte_mem, Memory.get?_set]
  split <;> rfl

theorem State.peek_setByte_of_ne (s : State) {q p : Nat} (b : Byte) (h : p ≠ q) :
    (s.setByte q b).peek p = s.peek p := by
  unfold State.peek
  rw [State.sectAt_setByte]
  cases s.sectAt p <;> simp [State.byteOf_setByte, h]

/-- Reading the byte that was written, where a section is. -/
theorem State.peek_setByte_self (s : State) {q : Nat} (b : Byte) {t : Section} (h : s.sectAt q = some t) :
    (s.setByte q b).peek q = some b := by
  unfold State.peek
  rw [State.sectAt_setByte, h]
  simp [State.byteOf_setByte]

/-- A writable byte lies in a section of the right class that is not read-only. -/
theorem State.writable_iff (s : State) (acc : Access) (p : Nat) :
    s.writable acc p = true ↔
      ∃ t, s.sectAt p = some t ∧ permits acc t.flags = true ∧ t.flags.readOnly = false := by
  unfold State.writable
  cases s.sectAt p <;> simp

/-- A readable byte lies in a section of the right class. -/
theorem State.readableByte_iff (s : State) (acc : Access) (p : Nat) (b : Byte) :
    s.readableByte acc p = some b ↔
      ∃ t, s.sectAt p = some t ∧ permits acc t.flags = true ∧ s.byteOf t p = b := by
  unfold State.readableByte
  cases s.sectAt p <;> simp

/-- The no-cache tag takes no part in either test (R66). -/
theorem State.readableByte_noCache (s : State) (c : AccessClass) (k k' : Bool) (p : Nat) :
    s.readableByte ⟨c, k⟩ p = s.readableByte ⟨c, k'⟩ p := rfl

theorem State.writable_noCache (s : State) (c : AccessClass) (k k' : Bool) (p : Nat) :
    s.writable ⟨c, k⟩ p = s.writable ⟨c, k'⟩ p := rfl

theorem State.readableByte_effective (s : State) (addr : Word) (acc : Access) (p : Nat) :
    s.readableByte (effectiveAccess addr acc) p = s.readableByte acc p := rfl

theorem State.writable_effective (s : State) (addr : Word) (acc : Access) (p : Nat) :
    s.writable (effectiveAccess addr acc) p = s.writable acc p := rfl

/-! ### `MemRead` (R57) -/

/-- What `readFrom` gives: at most `n` bytes, each readable, and the next one not when it gave fewer. -/
theorem State.readFrom_spec (s : State) (acc : Access) (p n : Nat) :
    (s.readFrom acc p n).length ≤ n ∧
      (∀ j (h : j < (s.readFrom acc p n).length), s.readableByte acc (p + j) = some (s.readFrom acc p n)[j]) ∧
      ((s.readFrom acc p n).length < n → s.readableByte acc (p + (s.readFrom acc p n).length) = none) := by
  induction n generalizing p with
  | zero => exact ⟨Nat.le_refl 0, fun j h => absurd h (Nat.not_lt_zero j), fun h => absurd h (Nat.lt_irrefl 0)⟩
  | succ n ih =>
    have hx : s.readFrom acc p (n + 1)
        = match s.readableByte acc p with
          | none => []
          | some b => b :: s.readFrom acc (p + 1) n := rfl
    cases hb : s.readableByte acc p with
    | none =>
      rw [hb] at hx; rw [hx]
      exact ⟨Nat.zero_le _, fun j h => absurd h (Nat.not_lt_zero j), fun _ => hb⟩
    | some b =>
      rw [hb] at hx; simp only at hx; rw [hx]
      obtain ⟨i1, i2, i3⟩ := ih (p + 1)
      refine ⟨Nat.succ_le_succ i1, ?_, ?_⟩
      · intro j hj
        cases j with
        | zero => exact hb
        | succ j =>
          have := i2 j (Nat.lt_of_succ_lt_succ hj)
          rw [show p + (j + 1) = p + 1 + j by omega]; simpa using this
      · intro h
        have := i3 (Nat.lt_of_succ_lt_succ h)
        rw [List.length_cons, show p + ((s.readFrom acc (p + 1) n).length + 1)
          = p + 1 + (s.readFrom acc (p + 1) n).length by omega]
        exact this

/-- When the bytes are all readable, `readFrom` gives them. -/
theorem State.readFrom_of_reads (s : State) (acc : Access) (p : Nat) (bs : List Byte)
    (h : ∀ j (hj : j < bs.length), s.readableByte acc (p + j) = some bs[j]) :
    s.readFrom acc p bs.length = bs := by
  induction bs generalizing p with
  | nil => rfl
  | cons b bs ih =>
    have h0 := h 0 (Nat.succ_pos _)
    have hs : s.readFrom acc (p + 1) bs.length = bs := by
      apply ih
      intro j hj
      have := h (j + 1) (Nat.succ_lt_succ hj)
      rw [show p + 1 + j = p + (j + 1) by omega]; simpa using this
    show s.readFrom acc p (bs.length + 1) = b :: bs
    unfold State.readFrom
    rw [show s.readableByte acc p = some b from h0]
    simp only [hs]

theorem State.memRead_of_reads (s : State) (addr : Word) (acc : Access) (bs : List Byte)
    (h : ∀ j (hj : j < bs.length), s.readableByte acc (lookupAddr addr + j) = some bs[j]) :
    s.memRead addr bs.length acc = bs :=
  State.readFrom_of_reads s (effectiveAccess addr acc) (lookupAddr addr) bs h

theorem State.memRead_spec (s : State) (addr : Word) (n : Nat) (acc : Access) :
    (s.memRead addr n acc).length ≤ n ∧
      (∀ j (h : j < (s.memRead addr n acc).length),
        s.readableByte acc (lookupAddr addr + j) = some (s.memRead addr n acc)[j]) ∧
      ((s.memRead addr n acc).length < n →
        s.readableByte acc (lookupAddr addr + (s.memRead addr n acc).length) = none) :=
  State.readFrom_spec s (effectiveAccess addr acc) (lookupAddr addr) n

/-! ### `MemWrite` (R58) -/

/-- What `writeFrom` does: it writes the leading bytes that can be written and nothing else. -/
structure WroteBytes (acc : Access) (p : Nat) (bs : List Byte) (s : State) (r : State × Nat) : Prop where
  count    : r.2 ≤ bs.length
  could    : ∀ j < r.2, s.writable acc (p + j) = true
  couldNot  : r.2 < bs.length → s.writable acc (p + r.2) = false
  only     : ∃ m, r.1 = { s with mem := m }
  written  : ∀ j (h : j < bs.length), j < r.2 → r.1.peek (p + j) = some bs[j]
  others   : ∀ q, (q < p ∨ p + r.2 ≤ q) → r.1.peek q = s.peek q
  wf       : Memory.wf s.mem → Memory.wf r.1.mem
  cells    : ∀ c ∈ r.1.mem, c ∈ s.mem ∨ ∃ t ∈ s.sections, t.covers c.1 = true

theorem State.sectAt_mem {s : State} {p : Nat} {t : Section} (h : s.sectAt p = some t) :
    p < 2 ^ 31 ∧ t ∈ s.sections ∧ t.covers p = true := by
  unfold State.sectAt at h
  split at h
  · rename_i hp
    exact ⟨hp, List.mem_of_find?_eq_some h, by simpa using List.find?_some h⟩
  · cases h

theorem State.writeFrom_spec (s : State) (acc : Access) (p : Nat) (bs : List Byte) :
    WroteBytes acc p bs s (s.writeFrom acc p bs) := by
  induction bs generalizing s p with
  | nil =>
    exact ⟨Nat.le_refl 0, fun j h => absurd h (Nat.not_lt_zero j), fun h => absurd h (Nat.lt_irrefl 0),
      ⟨s.mem, rfl⟩, fun j h => absurd h (Nat.not_lt_zero j), fun _ _ => rfl, id, fun c h => Or.inl h⟩
  | cons b bs ih =>
    cases hw : s.writable acc p with
    | false =>
      have hx : s.writeFrom acc p (b :: bs) = (s, 0) := by unfold State.writeFrom; simp [hw]
      rw [hx]
      exact ⟨Nat.zero_le _, fun j h => absurd h (Nat.not_lt_zero j), fun _ => hw, ⟨s.mem, rfl⟩,
        fun j _ h => absurd h (Nat.not_lt_zero j), fun _ _ => rfl, id, fun c h => Or.inl h⟩
    | true =>
      have hx : s.writeFrom acc p (b :: bs)
          = (((s.setByte p b).writeFrom acc (p + 1) bs).1, ((s.setByte p b).writeFrom acc (p + 1) bs).2 + 1) := by
        conv => lhs; unfold State.writeFrom
        simp [hw]
      rw [hx]
      have h := ih (s.setByte p b) (p + 1)
      generalize (s.setByte p b).writeFrom acc (p + 1) bs = r at h
      obtain ⟨t, ht, -, -⟩ := (State.writable_iff s acc p).1 hw
      refine ⟨Nat.succ_le_succ h.count, ?_, ?_, ?_, ?_, ?_, ?_, ?_⟩
      · intro j hj
        cases j with
        | zero => exact hw
        | succ j =>
          have := h.could j (Nat.lt_of_succ_lt_succ hj)
          rw [show p + (j + 1) = p + 1 + j by omega]; simpa using this
      · intro hl
        have := h.couldNot (Nat.lt_of_succ_lt_succ hl)
        rw [show p + (r.2 + 1) = p + 1 + r.2 by omega]; simpa using this
      · obtain ⟨m, hm⟩ := h.only
        exact ⟨m, hm⟩
      · intro j hj hjr
        cases j with
        | zero =>
          show r.1.peek (p + 0) = some b
          rw [Nat.add_zero, h.others p (Or.inl (Nat.lt_succ_self p))]
          exact State.peek_setByte_self s b ht
        | succ j =>
          have := h.written j (Nat.lt_of_succ_lt_succ hj) (Nat.lt_of_succ_lt_succ hjr)
          show r.1.peek (p + (j + 1)) = some (bs[j]'(Nat.lt_of_succ_lt_succ hj))
          rw [show p + (j + 1) = p + 1 + j by omega]; exact this
      · intro q hq
        have hq' : q < p ∨ p + (r.2 + 1) ≤ q := hq
        show r.1.peek q = s.peek q
        rw [h.others q (by omega)]
        exact State.peek_setByte_of_ne s b (by omega)
      · intro hwf
        exact h.wf (Memory.set_wf p b hwf)
      · intro c hc
        rcases h.cells c hc with hc | hc
        · rcases Memory.mem_set hc with rfl | hc
          · exact Or.inr ⟨t, (State.sectAt_mem ht).2⟩
          · exact Or.inl hc
        · exact Or.inr hc

theorem State.memWrite_spec (s : State) (addr : Word) (bs : List Byte) (acc : Access) :
    WroteBytes acc (lookupAddr addr) bs s (s.memWrite addr bs acc) := by
  have h := State.writeFrom_spec s (effectiveAccess addr acc) (lookupAddr addr) bs
  exact ⟨h.count, h.could, h.couldNot, h.only, h.written, h.others, h.wf, h.cells⟩

/-- When every byte can be written, all are. -/
theorem State.memWrite_count (s : State) (addr : Word) (bs : List Byte) (acc : Access)
    (h : ∀ j < bs.length, s.writable acc (lookupAddr addr + j) = true) :
    (s.memWrite addr bs acc).2 = bs.length := by
  have w := State.memWrite_spec s addr bs acc
  by_contra hne
  have hlt : (s.memWrite addr bs acc).2 < bs.length := Nat.lt_of_le_of_ne w.count hne
  have := w.couldNot hlt
  rw [h _ hlt] at this
  cases this

/-! ### Bytes of a word (R60) -/

@[simp] theorem bytesLe_length (v : Word) (n : Nat) : (bytesLe v n).length = n := by
  induction n generalizing v with
  | zero => rfl
  | succ n ih => simp [bytesLe, ih]

theorem bytesLe_getElem (v : Word) (n j : Nat) (h : j < (bytesLe v n).length) :
    (bytesLe v n)[j] = v.extractLsb' (8 * j) 8 := by
  induction n generalizing v j with
  | zero => exact absurd h (by simp)
  | succ n ih =>
    cases j with
    | zero =>
      show v.setWidth 8 = v.extractLsb' (8 * 0) 8
      apply BitVec.eq_of_getLsbD_eq
      intro i hi
      simp [hi]
    | succ j =>
      show (bytesLe (v >>> 8) n)[j]'_ = _
      rw [ih]
      apply BitVec.eq_of_getLsbD_eq
      intro i hi
      simp only [BitVec.getLsbD_extractLsb', BitVec.getLsbD_ushiftRight]
      rw [show 8 + (8 * j + i) = 8 * (j + 1) + i by omega]

/-! ### Reset (spec/10_state.md R36) -/

theorem State.resetOf_mem_wf (cfg : Cfg) (k : Bool) (n : Nat) : Memory.wf (State.resetOf cfg k n).mem :=
  List.Pairwise.nil

theorem State.reset_mem_wf : Memory.wf State.reset.mem := List.Pairwise.nil

end Sys2Proof.Machine
end

