-- ==== Sys2Proof/Laws/Ops.lean ====
section
/-! SUPPORT. For each shared operation, one lemma that says what it does in the terms of Sys2Proof/Safety.lean, so that no
proof about an instruction unfolds the operation. -/

namespace Sys2Proof.Machine

/-! ### Completion and stops -/

theorem stopWith_spec (r : StopReason) (s : State) : ∃ t, stopWith r s = .next t ∧ Stopped r s t :=
  ⟨s.raiseStop r, rfl, rfl, rfl, rfl, rfl, fun _ => rfl, fun _ => rfl, fun p => State.peek_raiseStop s r p, rfl,
    rfl, rfl, rfl, rfl, rfl, rfl⟩

theorem complete_spec (s : State) : ∃ t, complete s = .next t ∧ Moved (s.pc + 4) s t :=
  ⟨s.setPc s.nextPc, rfl, rfl, fun _ => rfl, fun _ => rfl, fun p => State.peek_setPc s _ p, rfl, ⟨rfl, rfl, rfl⟩,
    rfl, rfl, rfl, rfl, rfl, rfl⟩

/-- A register and `pc` written together. -/
theorem setX_setPc_spec (d : RegIdx) (v p : Word) (s : State) : Wrote d v p s ((s.setX d v).setPc p) :=
  ⟨by simp, rfl, fun i h => by simp [State.x_setX_of_ne s v h], fun n => by simp, fun q => by simp, by simp,
    ⟨by simp, by simp, by simp⟩, ⟨by simp, by simp, by simp, by simp, by simp, by simp⟩⟩

theorem writeBack_spec (d : RegIdx) (v : Word) (s : State) :
    ∃ t, writeBack d v s = .next t ∧ Wrote d v (s.pc + 4) s t := by
  refine ⟨(s.setX d v).setPc (s.pc + 4), ?_, setX_setPc_spec d v _ s⟩
  unfold writeBack complete State.nextPc
  rw [State.setX_pc]

/-! ### Transfers -/

theorem wordAligned_iff (t : Word) : wordAligned t = true ↔ t.toNat % 4 = 0 := by
  unfold wordAligned
  rw [decide_eq_true_iff, ← BitVec.toNat_inj]
  simp [BitVec.extractLsb'_toNat]

theorem setPc_spec (p : Word) (s : State) : Moved p s (s.setPc p) :=
  ⟨rfl, fun _ => rfl, fun _ => rfl, fun q => State.peek_setPc s p q, rfl, ⟨rfl, rfl, rfl⟩, rfl, rfl, rfl, rfl, rfl,
    rfl⟩

theorem jumpTo_spec (p : Word) (s : State) :
    (p.toNat % 4 = 0 → ∃ t, jumpTo p s = .next t ∧ Moved p s t) ∧
      (p.toNat % 4 ≠ 0 → ∃ t, jumpTo p s = .next t ∧ Stopped .misalignedDestinationAddress s t) := by
  unfold jumpTo
  constructor
  · intro h
    rw [if_pos ((wordAligned_iff p).2 h)]
    exact ⟨_, rfl, setPc_spec p s⟩
  · intro h
    rw [if_neg (fun e => h ((wordAligned_iff p).1 e))]
    exact stopWith_spec _ s

theorem branchIf_spec (c : Bool) (imm16 : BitVec 16) (s : State) :
    (c = false → ∃ t, branchIf c imm16 s = .next t ∧ Moved (s.pc + 4) s t) ∧
      (c = true → (s.branchTarget imm16).toNat % 4 = 0 →
        ∃ t, branchIf c imm16 s = .next t ∧ Moved (s.branchTarget imm16) s t) ∧
      (c = true → (s.branchTarget imm16).toNat % 4 ≠ 0 →
        ∃ t, branchIf c imm16 s = .next t ∧ Stopped .misalignedDestinationAddress s t) := by
  refine ⟨?_, ?_, ?_⟩
  · rintro rfl; exact complete_spec s
  · rintro rfl h; exact (jumpTo_spec _ s).1 h
  · rintro rfl h; exact (jumpTo_spec _ s).2 h

/-! ### Privilege and the returns -/

theorem supervisorOnly_spec (s : State) (r : Result) :
    (s.userMode = false → supervisorOnly s r = r) ∧
      (s.userMode = true → ∃ t, supervisorOnly s r = .next t ∧ Stopped .supervisorOnlyInstruction s t) := by
  unfold supervisorOnly
  constructor
  · intro h; simp [h]
  · intro h; rw [if_pos h]; exact stopWith_spec _ s

theorem setCtl_setPc_spec (n : Fin 16) (v p : Word) (s : State) : WroteCtl n v p s ((s.setCtl n v).setPc p) :=
  ⟨by simp, rfl, fun i => by simp, fun k h => by simp [State.ctlReg_setCtl, h], fun q => by simp, by simp,
    ⟨by simp, by simp, by simp⟩, ⟨by simp, by simp, by simp, by simp, by simp, by simp⟩⟩

theorem returnTo_spec (p : Word) (k : Fin 16) (s : State) :
    (p.toNat % 4 ≠ 0 → ∃ t, returnTo p k s = .next t ∧ Stopped .misalignedDestinationAddress s t) ∧
      (p.toNat % 4 = 0 → s.userMode = true →
        ∃ t, returnTo p k s = .next t ∧ Stopped .supervisorOnlyInstruction s t) ∧
      (p.toNat % 4 = 0 → s.userMode = false →
        ∃ t, returnTo p k s = .next t ∧ WroteCtl 0 (s.ctlReg k) p s t) := by
  unfold returnTo
  refine ⟨?_, ?_, ?_⟩
  · intro h
    rw [if_neg (fun e => h ((wordAligned_iff p).1 e))]
    exact stopWith_spec _ s
  · intro h hu
    rw [if_pos ((wordAligned_iff p).2 h)]
    exact (supervisorOnly_spec s _).2 hu
  · intro h hu
    rw [if_pos ((wordAligned_iff p).2 h), (supervisorOnly_spec s _).1 hu]
    exact ⟨_, rfl, setCtl_setPc_spec 0 _ p s⟩

/-! ### The feature gate -/

theorem gated_spec (o : Opcode) (s : State) (r : Result) :
    (featurePresent s.cfg o = true → gated o s r = r) ∧
      (featurePresent s.cfg o = false → ∃ t, gated o s r = .next t ∧ Stopped .unimplementedInstruction s t) := by
  unfold gated
  constructor
  · intro h; rw [if_pos h]
  · intro h; rw [if_neg (by simp [h])]; exact stopWith_spec _ s

/-! ### Loads and stores -/

theorem dataAligned_iff (ea : Word) (n : Nat) : dataAligned ea n = true ↔ ea.toNat % n = 0 := by
  unfold dataAligned; simp

/-- A load (R212): misaligned, a byte that cannot be read, or the value. -/
theorem load_spec (n : Nat) (signed : Bool) (acc : Access) (b a : RegIdx) (imm16 : BitVec 16) (s : State) :
    ((s.ea a imm16).toNat % n ≠ 0 →
        ∃ t, load n signed acc b a imm16 s = .next t ∧ Stopped .misalignedDataAddress s t) ∧
      ((s.ea a imm16).toNat % n = 0 →
        (∃ j < n, s.readableByte acc (lookupAddr (s.ea a imm16) + j) = none) →
        ∃ t, load n signed acc b a imm16 s = .next t ∧ Stopped .dataAccessFault s t) ∧
      (∀ bs : List Byte, bs.length = n → (s.ea a imm16).toNat % n = 0 →
        s.reads acc (lookupAddr (s.ea a imm16)) bs →
        ∃ t, load n signed acc b a imm16 s = .next t ∧ Wrote b (loadedValue n signed bs) (s.pc + 4) s t) := by
  unfold load
  refine ⟨?_, ?_, ?_⟩
  · intro h
    simp only [if_neg (fun e => h ((dataAligned_iff _ n).1 e))]
    exact stopWith_spec _ s
  · rintro h ⟨j, hj, hr⟩
    have hs := State.memRead_spec s (s.ea a imm16) n acc
    have hlt : (s.memRead (s.ea a imm16) n acc).length < n := by
      by_contra hge
      have := hs.2.1 j (by omega)
      rw [hr] at this; cases this
    simp only [if_pos ((dataAligned_iff _ n).2 h), if_pos hlt]
    exact stopWith_spec _ s
  · rintro bs rfl h hr
    have hm := State.memRead_of_reads s (s.ea a imm16) acc bs hr
    simp only [if_pos ((dataAligned_iff _ bs.length).2 h), hm, if_neg (Nat.lt_irrefl _)]
    exact writeBack_spec b _ s

/-- A store (R213): misaligned, a byte that cannot be written (the bytes before it are), or all bytes. -/
theorem store_spec (n : Nat) (acc : Access) (b a : RegIdx) (imm16 : BitVec 16) (s : State) :
    ((s.ea a imm16).toNat % n ≠ 0 →
        ∃ t, store n acc b a imm16 s = .next t ∧ Stopped .misalignedDataAddress s t) ∧
      (∀ k < n, (s.ea a imm16).toNat % n = 0 → s.writes acc (lookupAddr (s.ea a imm16)) k →
        s.writable acc (lookupAddr (s.ea a imm16) + k) = false →
        ∃ t, store n acc b a imm16 s = .next t ∧
          StoppedAfter (lookupAddr (s.ea a imm16)) k (s.x b) .dataAccessFault s t) ∧
      ((s.ea a imm16).toNat % n = 0 → s.writes acc (lookupAddr (s.ea a imm16)) n →
        ∃ t, store n acc b a imm16 s = .next t ∧
          Stored (lookupAddr (s.ea a imm16)) n (s.x b) (s.pc + 4) s t) := by
  have w := State.memWrite_spec s (s.ea a imm16) (bytesLe (s.x b) n) acc
  unfold store
  refine ⟨?_, ?_, ?_⟩
  · intro h
    simp only [if_neg (fun e => h ((dataAligned_iff _ n).1 e))]
    exact stopWith_spec _ s
  · intro k hk h hw hno
    have hcount : (s.memWrite (s.ea a imm16) (bytesLe (s.x b) n) acc).2 = k := by
      rcases Nat.lt_trichotomy (s.memWrite (s.ea a imm16) (bytesLe (s.x b) n) acc).2 k with hl | he | hg
      · have := w.couldNot (by rw [bytesLe_length]; omega)
        rw [hw _ hl] at this; cases this
      · exact he
      · have := w.could k hg
        rw [hno] at this; cases this
    obtain ⟨m, hm⟩ := w.only
    simp only [if_pos ((dataAligned_iff _ n).2 h), hcount, if_pos hk]
    refine ⟨_, rfl, rfl, rfl, ?_, ?_, ?_, ?_, ⟨?_, ?_⟩, ?_, ?_⟩
    · rw [hm]; rfl
    · rw [hm]; rfl
    · intro i; rw [hm]; rfl
    · intro i; rw [hm]; rfl
    · intro j hj
      rw [State.peek_raiseStop, w.written j (by rw [bytesLe_length]; omega) (by omega), bytesLe_getElem]
    · intro p hp
      rw [State.peek_raiseStop, w.others p (by omega)]
    · rw [hm]; rfl
    · rw [hm]; exact ⟨rfl, rfl, rfl, rfl, rfl, rfl⟩
  · intro h hw
    have hcount : (s.memWrite (s.ea a imm16) (bytesLe (s.x b) n) acc).2 = n := by
      have := State.memWrite_count s (s.ea a imm16) (bytesLe (s.x b) n) acc (by rw [bytesLe_length]; exact hw)
      rwa [bytesLe_length] at this
    obtain ⟨m, hm⟩ := w.only
    simp only [if_pos ((dataAligned_iff _ n).2 h), hcount, if_neg (Nat.lt_irrefl n)]
    refine ⟨_, rfl, ⟨?_, ?_⟩, ?_, ?_, ?_, ?_, ?_, ?_⟩
    · intro j hj
      rw [State.peek_setPc, w.written j (by rw [bytesLe_length]; omega) (by omega), bytesLe_getElem]
    · intro p hp
      rw [State.peek_setPc, w.others p (by omega)]
    · rw [hm]; rfl
    · intro i; rw [hm]; rfl
    · intro i; rw [hm]; rfl
    · rw [hm]; rfl
    · rw [hm]; exact ⟨rfl, rfl, rfl⟩
    · rw [hm]; exact ⟨rfl, rfl, rfl, rfl, rfl, rfl⟩

end Sys2Proof.Machine
end

