-- ==== Sys2Proof/Laws/Exec.lean ====
section
/-! SUPPORT. What an instruction can do, said once (`Effect`), and the lemma that every instruction does one of these things:
the invariants of a step are case analyses of it. -/

namespace Sys2Proof.Machine

/-- What `exec i s` can do to the state. -/
inductive Effect (i : Instr) (s : State) : State → Prop where
  /-- A stop of an instruction, with nothing else changed. -/
  | stop (r : StopReason) (h : r ≠ .stepComplete) (h' : r ≠ .interrupted) : Effect i s (s.raiseStop r)
  /-- A register and `pc` (register 0 for an instruction that writes none). -/
  | write (d : RegIdx) (v p : Word) (hp : s.pcAligned → p.toNat % 4 = 0) : Effect i s ((s.setX d v).setPc p)
  /-- A control register other than `ipending` and `cpuid`, in supervisor mode, and `pc`. -/
  | writeCtl (n : Fin 16) (v p : Word) (hn : n ≠ 4 ∧ n ≠ 5) (hu : s.userMode = false)
      (hp : s.pcAligned → p.toNat % 4 = 0) : Effect i s ((s.setCtl n v).setPc p)
  /-- Output of the `write` syscall. -/
  | output (bs : List Byte) (hi : i = .ori 0 0 s.cfg.magicWrite) (h4 : s.x 4 = 1 ∨ s.x 4 = 2) :
      Effect i s (State.setPc { s with out := s.out ++ [(s.x 4, bs)] } (s.pc + 4))
  /-- The `_exit` syscall. -/
  | exit (hi : i = .ori 0 0 Config.magicExit) :
      Effect i s { s with es := .exited, ec := (s.x 4).setWidth 8 }
  /-- A store that completed. -/
  | store (hi : isStore i = true) (acc : Access) (ha : acc.cls = .data) (lo : Nat) (bs : List Byte)
      (r : State × Nat) (w : WroteBytes acc lo bs s r) : Effect i s (r.1.setPc (s.pc + 4))
  /-- A store that faulted, its leading bytes written. -/
  | storeFault (hi : isStore i = true) (acc : Access) (ha : acc.cls = .data) (lo : Nat) (bs : List Byte)
      (r : State × Nat) (w : WroteBytes acc lo bs s r) : Effect i s (r.1.raiseStop .dataAccessFault)

/-- An instruction has a next state, and it is an effect. -/
abbrev Effects (i : Instr) (s : State) (r : Result) : Prop := ∃ t, r = .next t ∧ Effect i s t

theorem next_aligned (p : Word) (h : p.toNat % 4 = 0) : (p + 4).toNat % 4 = 0 := by
  rw [BitVec.toNat_add]
  have : (4 : Word).toNat = 4 := rfl
  omega

variable {i : Instr} {s : State}

theorem effects_stop (r : StopReason) (h : r ≠ .stepComplete) (h' : r ≠ .interrupted) :
    Effects i s (stopWith r s) := ⟨_, rfl, .stop r h h'⟩

theorem effects_complete : Effects i s (complete s) := by
  refine ⟨_, rfl, ?_⟩
  exact Effect.write (i := i) (s := s) 0 0 (s.pc + 4) (next_aligned s.pc)

theorem effects_writeBack (d : RegIdx) (v : Word) : Effects i s (writeBack d v s) := by
  refine ⟨_, rfl, ?_⟩
  have := Effect.write (i := i) (s := s) d v (s.pc + 4) (next_aligned s.pc)
  rwa [← State.setX_pc s d v] at this

theorem effects_regOp (f : Word → Word → Word) (c a b : RegIdx) : Effects i s (regOp f c a b s) :=
  effects_writeBack c _

theorem effects_immOp (f : Word → Word → Word) (d a : RegIdx) (v : Word) : Effects i s (immOp f d a v s) :=
  effects_writeBack d _

theorem effects_goTo (p : Word) (h : p.toNat % 4 = 0) : Effects i s (.next (s.setPc p)) := by
  refine ⟨_, rfl, ?_⟩
  exact Effect.write (i := i) (s := s) 0 0 p (fun _ => h)

theorem effects_jumpTo (p : Word) : Effects i s (jumpTo p s) := by
  unfold jumpTo
  split
  · rename_i h
    exact effects_goTo p ((wordAligned_iff p).1 h)
  · exact effects_stop _ (by decide) (by decide)

theorem effects_branchIf (c : Bool) (imm16 : BitVec 16) : Effects i s (branchIf c imm16 s) := by
  unfold branchIf
  split
  · exact effects_jumpTo _
  · exact effects_complete

theorem effects_gated (o : Opcode) (r : Result) (h : Effects i s r) : Effects i s (gated o s r) := by
  unfold gated
  split
  · exact h
  · exact effects_stop _ (by decide) (by decide)

theorem effects_supervisorOnly (r : Result) (h : s.userMode = false → Effects i s r) :
    Effects i s (supervisorOnly s r) := by
  unfold supervisorOnly
  split
  · exact effects_stop _ (by decide) (by decide)
  · rename_i hu
    exact h (by simpa using hu)

theorem effects_returnTo (p : Word) (k : Fin 16) : Effects i s (returnTo p k s) := by
  unfold returnTo
  split
  · rename_i h
    exact effects_supervisorOnly _ (fun hu =>
      ⟨_, rfl, .writeCtl 0 _ p (by decide) hu (fun _ => (wordAligned_iff p).1 h)⟩)
  · exact effects_stop _ (by decide) (by decide)

theorem effects_load (n : Nat) (signed : Bool) (acc : Access) (b a : RegIdx) (imm16 : BitVec 16) :
    Effects i s (load n signed acc b a imm16 s) := by
  unfold load
  dsimp only
  split
  · split
    · exact effects_stop _ (by decide) (by decide)
    · exact effects_writeBack b _
  · exact effects_stop _ (by decide) (by decide)

theorem effects_store (n : Nat) (acc : Access) (ha : acc.cls = .data) (b a : RegIdx) (imm16 : BitVec 16)
    (hi : isStore i = true) : Effects i s (store n acc b a imm16 s) := by
  have w := State.memWrite_spec s (s.ea a imm16) (bytesLe (s.x b) n) acc
  unfold store
  dsimp only
  split
  · split
    · exact ⟨_, rfl, .storeFault hi acc ha _ _ _ w⟩
    · refine ⟨_, rfl, ?_⟩
      have := Effect.store (i := i) hi acc ha _ _ _ w
      obtain ⟨m, hm⟩ := w.only
      have hpc : (s.memWrite (s.ea a imm16) (bytesLe (s.x b) n) acc).1.pc = s.pc := by rw [hm]
      rw [← hpc] at this
      exact this
  · exact effects_stop _ (by decide) (by decide)

theorem callTarget_aligned (s : State) (imm26 : BitVec 26) : (s.callTarget imm26).toNat % 4 = 0 := by
  rw [← wordAligned_iff]
  unfold wordAligned State.callTarget
  rw [decide_eq_true_iff]
  apply BitVec.eq_of_getLsbD_eq
  intro k hk
  have : k = 0 ∨ k = 1 := by omega
  rcases this with rfl | rfl <;> simp

theorem effects_syscallWrite (hi : i = .ori 0 0 s.cfg.magicWrite) : Effects i s (syscallWrite s) := by
  unfold syscallWrite
  dsimp only
  split
  · exact effects_stop _ (by decide) (by decide)
  · split
    · rename_i h4
      exact ⟨_, rfl, .output _ hi (by simpa using h4)⟩
    · exact effects_complete

theorem effects_ori (b a : RegIdx) (imm16 : BitVec 16) : Effects (.ori b a imm16) s (execOri b a imm16 s) := by
  unfold execOri
  split
  · rename_i h
    simp only [Bool.and_eq_true, decide_eq_true_eq] at h
    obtain ⟨rfl, rfl⟩ := h
    unfold syscall
    split
    · rename_i he
      exact ⟨_, rfl, .exit (by rw [he])⟩
    · split
      · rename_i hw
        exact effects_syscallWrite (by rw [hw])
      · exact effects_complete
  · exact effects_immOp _ b a _

/-- Every instruction in every state has a next state, and it is one of the effects. -/
theorem exec_effects (i : Instr) (s : State) : Effects i s (exec i s) := by
  cases i with
  | call imm26 =>
    show Effects _ s (execCall imm26 s)
    exact ⟨_, rfl, .write _ _ _ (fun _ => callTarget_aligned s imm26)⟩
  | jmpi imm26 =>
    show Effects _ s (execJmpi imm26 s)
    exact effects_goTo _ (callTarget_aligned s imm26)
  | ldbu b a imm16 =>
    show Effects _ s (execLdbu b a imm16 s)
    exact effects_load _ _ _ _ _ _
  | stb b a imm16 =>
    show Effects _ s (execStb b a imm16 s)
    exact effects_store _ _ rfl _ _ _ rfl
  | ldb b a imm16 =>
    show Effects _ s (execLdb b a imm16 s)
    exact effects_load _ _ _ _ _ _
  | ldhu b a imm16 =>
    show Effects _ s (execLdhu b a imm16 s)
    exact effects_load _ _ _ _ _ _
  | sth b a imm16 =>
    show Effects _ s (execSth b a imm16 s)
    exact effects_store _ _ rfl _ _ _ rfl
  | ldh b a imm16 =>
    show Effects _ s (execLdh b a imm16 s)
    exact effects_load _ _ _ _ _ _
  | stw b a imm16 =>
    show Effects _ s (execStw b a imm16 s)
    exact effects_store _ _ rfl _ _ _ rfl
  | ldw b a imm16 =>
    show Effects _ s (execLdw b a imm16 s)
    exact effects_load _ _ _ _ _ _
  | ldbuio b a imm16 =>
    show Effects _ s (execLdbuio b a imm16 s)
    exact effects_load _ _ _ _ _ _
  | stbio b a imm16 =>
    show Effects _ s (execStbio b a imm16 s)
    exact effects_store _ _ rfl _ _ _ rfl
  | ldbio b a imm16 =>
    show Effects _ s (execLdbio b a imm16 s)
    exact effects_load _ _ _ _ _ _
  | ldhuio b a imm16 =>
    show Effects _ s (execLdhuio b a imm16 s)
    exact effects_load _ _ _ _ _ _
  | sthio b a imm16 =>
    show Effects _ s (execSthio b a imm16 s)
    exact effects_store _ _ rfl _ _ _ rfl
  | ldhio b a imm16 =>
    show Effects _ s (execLdhio b a imm16 s)
    exact effects_load _ _ _ _ _ _
  | stwio b a imm16 =>
    show Effects _ s (execStwio b a imm16 s)
    exact effects_store _ _ rfl _ _ _ rfl
  | ldwio b a imm16 =>
    show Effects _ s (execLdwio b a imm16 s)
    exact effects_load _ _ _ _ _ _
  | addi b a imm16 =>
    show Effects _ s (execAddi b a imm16 s)
    exact effects_immOp _ _ _ _
  | andi b a imm16 =>
    show Effects _ s (execAndi b a imm16 s)
    exact effects_immOp _ _ _ _
  | ori b a imm16 =>
    show Effects _ s (execOri b a imm16 s)
    exact effects_ori _ _ _
  | xori b a imm16 =>
    show Effects _ s (execXori b a imm16 s)
    exact effects_immOp _ _ _ _
  | andhi b a imm16 =>
    show Effects _ s (execAndhi b a imm16 s)
    exact effects_immOp _ _ _ _
  | orhi b a imm16 =>
    show Effects _ s (execOrhi b a imm16 s)
    exact effects_immOp _ _ _ _
  | xorhi b a imm16 =>
    show Effects _ s (execXorhi b a imm16 s)
    exact effects_immOp _ _ _ _
  | cmpeqi b a imm16 =>
    show Effects _ s (execCmpeqi b a imm16 s)
    exact effects_immOp _ _ _ _
  | cmpnei b a imm16 =>
    show Effects _ s (execCmpnei b a imm16 s)
    exact effects_immOp _ _ _ _
  | cmpgei b a imm16 =>
    show Effects _ s (execCmpgei b a imm16 s)
    exact effects_immOp _ _ _ _
  | cmplti b a imm16 =>
    show Effects _ s (execCmplti b a imm16 s)
    exact effects_immOp _ _ _ _
  | cmpgeui b a imm16 =>
    show Effects _ s (execCmpgeui b a imm16 s)
    exact effects_immOp _ _ _ _
  | cmpltui b a imm16 =>
    show Effects _ s (execCmpltui b a imm16 s)
    exact effects_immOp _ _ _ _
  | muli b a imm16 =>
    show Effects _ s (execMuli b a imm16 s)
    exact effects_gated _ _ (effects_immOp _ _ _ _)
  | br imm16 =>
    show Effects _ s (execBr imm16 s)
    exact effects_jumpTo _
  | beq a b imm16 =>
    show Effects _ s (execBeq a b imm16 s)
    exact effects_branchIf _ _
  | bne a b imm16 =>
    show Effects _ s (execBne a b imm16 s)
    exact effects_branchIf _ _
  | bge a b imm16 =>
    show Effects _ s (execBge a b imm16 s)
    exact effects_branchIf _ _
  | bgeu a b imm16 =>
    show Effects _ s (execBgeu a b imm16 s)
    exact effects_branchIf _ _
  | blt a b imm16 =>
    show Effects _ s (execBlt a b imm16 s)
    exact effects_branchIf _ _
  | bltu a b imm16 =>
    show Effects _ s (execBltu a b imm16 s)
    exact effects_branchIf _ _
  | add c a b =>
    show Effects _ s (execAdd c a b s)
    exact effects_regOp _ _ _ _
  | sub c a b =>
    show Effects _ s (execSub c a b s)
    exact effects_regOp _ _ _ _
  | and c a b =>
    show Effects _ s (execAnd c a b s)
    exact effects_regOp _ _ _ _
  | or c a b =>
    show Effects _ s (execOr c a b s)
    exact effects_regOp _ _ _ _
  | xor c a b =>
    show Effects _ s (execXor c a b s)
    exact effects_regOp _ _ _ _
  | nor c a b =>
    show Effects _ s (execNor c a b s)
    exact effects_regOp _ _ _ _
  | cmpeq c a b =>
    show Effects _ s (execCmpeq c a b s)
    exact effects_regOp _ _ _ _
  | cmpne c a b =>
    show Effects _ s (execCmpne c a b s)
    exact effects_regOp _ _ _ _
  | cmpge c a b =>
    show Effects _ s (execCmpge c a b s)
    exact effects_regOp _ _ _ _
  | cmpgeu c a b =>
    show Effects _ s (execCmpgeu c a b s)
    exact effects_regOp _ _ _ _
  | cmplt c a b =>
    show Effects _ s (execCmplt c a b s)
    exact effects_regOp _ _ _ _
  | cmpltu c a b =>
    show Effects _ s (execCmpltu c a b s)
    exact effects_regOp _ _ _ _
  | sll c a b =>
    show Effects _ s (execSll c a b s)
    exact effects_regOp _ _ _ _
  | srl c a b =>
    show Effects _ s (execSrl c a b s)
    exact effects_regOp _ _ _ _
  | sra c a b =>
    show Effects _ s (execSra c a b s)
    exact effects_regOp _ _ _ _
  | rol c a b =>
    show Effects _ s (execRol c a b s)
    exact effects_regOp _ _ _ _
  | ror c a b =>
    show Effects _ s (execRor c a b s)
    exact effects_regOp _ _ _ _
  | mul c a b =>
    show Effects _ s (execMul c a b s)
    exact effects_gated _ _ (effects_regOp _ _ _ _)
  | mulxss c a b =>
    show Effects _ s (execMulxss c a b s)
    exact effects_gated _ _ (effects_regOp _ _ _ _)
  | mulxsu c a b =>
    show Effects _ s (execMulxsu c a b s)
    exact effects_gated _ _ (effects_regOp _ _ _ _)
  | mulxuu c a b =>
    show Effects _ s (execMulxuu c a b s)
    exact effects_gated _ _ (effects_regOp _ _ _ _)
  | div c a b =>
    show Effects _ s (execDiv c a b s)
    exact effects_gated _ _ (effects_regOp _ _ _ _)
  | divu c a b =>
    show Effects _ s (execDivu c a b s)
    exact effects_gated _ _ (effects_regOp _ _ _ _)
  | slli c a imm5 =>
    show Effects _ s (execSlli c a imm5 s)
    exact effects_writeBack _ _
  | srli c a imm5 =>
    show Effects _ s (execSrli c a imm5 s)
    exact effects_writeBack _ _
  | srai c a imm5 =>
    show Effects _ s (execSrai c a imm5 s)
    exact effects_writeBack _ _
  | roli c a imm5 =>
    show Effects _ s (execRoli c a imm5 s)
    exact effects_writeBack _ _
  | jmp a =>
    show Effects _ s (execJmp a s)
    exact effects_jumpTo _
  | callr a =>
    show Effects _ s (execCallr a s)
    unfold execCallr
    split
    · rename_i h
      exact ⟨_, rfl, .write _ _ _ (fun _ => (wordAligned_iff _).1 h)⟩
    · exact effects_stop _ (by decide) (by decide)
  | ret =>
    show Effects _ s (execRet s)
    exact effects_jumpTo _
  | nextpc c =>
    show Effects _ s (execNextpc c s)
    exact effects_writeBack _ _
  | brk imm5 =>
    show Effects _ s (execBrk imm5 s)
    exact effects_stop _ (by decide) (by decide)
  | trap imm5 =>
    show Effects _ s (execTrap imm5 s)
    exact effects_stop _ (by decide) (by decide)
  | eret =>
    show Effects _ s (execEret s)
    exact effects_returnTo _ _
  | bret =>
    show Effects _ s (execBret s)
    exact effects_returnTo _ _
  | rdctl c n =>
    show Effects _ s (execRdctl c n s)
    unfold execRdctl
    split
    · exact effects_supervisorOnly _ (fun _ => effects_writeBack _ _)
    · exact effects_stop _ (by decide) (by decide)
  | wrctl n a =>
    show Effects _ s (execWrctl n a s)
    unfold execWrctl
    split
    · refine effects_supervisorOnly _ (fun hu => ?_)
      split
      · exact effects_complete
      · rename_i h
        have hn : n ≠ 4 ∧ n ≠ 5 := by simpa using h
        have hk : ∀ m : BitVec 5, m.toNat < 16 → n ≠ m → n.toNat ≠ m.toNat :=
          fun m _ hne he => hne (BitVec.eq_of_toNat_eq he)
        refine ⟨_, rfl, .writeCtl _ _ (s.pc + 4) ⟨fun e => ?_, fun e => ?_⟩ hu (next_aligned s.pc)⟩
        · exact hk 4 (by decide) hn.1 (Fin.mk.inj e)
        · exact hk 5 (by decide) hn.2 (Fin.mk.inj e)
    · exact effects_stop _ (by decide) (by decide)

end Sys2Proof.Machine
end

