-- ==== Sys2Proof/Laws/PerInstr.lean ====
section
/-! SUPPORT. The family `Recognised`, one lemma for each instruction: its word is recognised as its own row (spec/40_decoder.md
R122, R124). -/

namespace Sys2Proof.Laws.Recognised

/-- The word of an instruction matches the instruction's own row. -/
def Statement (i : Instr) : Prop := classify (encode i) = some i.opcode

theorem call (imm26 : BitVec 26) : Statement (.call imm26) :=
  classify_encodeJ 0x00 imm26 (by decide) (by decide)

theorem jmpi (imm26 : BitVec 26) : Statement (.jmpi imm26) :=
  classify_encodeJ 0x01 imm26 (by decide) (by decide)

theorem ldbu (b : RegIdx) (a : RegIdx) (imm16 : BitVec 16) : Statement (.ldbu b a imm16) :=
  classify_encodeI 0x03 a b imm16 (by decide) (by decide)

theorem stb (b : RegIdx) (a : RegIdx) (imm16 : BitVec 16) : Statement (.stb b a imm16) :=
  classify_encodeI 0x05 a b imm16 (by decide) (by decide)

theorem ldb (b : RegIdx) (a : RegIdx) (imm16 : BitVec 16) : Statement (.ldb b a imm16) :=
  classify_encodeI 0x07 a b imm16 (by decide) (by decide)

theorem ldhu (b : RegIdx) (a : RegIdx) (imm16 : BitVec 16) : Statement (.ldhu b a imm16) :=
  classify_encodeI 0x0B a b imm16 (by decide) (by decide)

theorem sth (b : RegIdx) (a : RegIdx) (imm16 : BitVec 16) : Statement (.sth b a imm16) :=
  classify_encodeI 0x0D a b imm16 (by decide) (by decide)

theorem ldh (b : RegIdx) (a : RegIdx) (imm16 : BitVec 16) : Statement (.ldh b a imm16) :=
  classify_encodeI 0x0F a b imm16 (by decide) (by decide)

theorem stw (b : RegIdx) (a : RegIdx) (imm16 : BitVec 16) : Statement (.stw b a imm16) :=
  classify_encodeI 0x15 a b imm16 (by decide) (by decide)

theorem ldw (b : RegIdx) (a : RegIdx) (imm16 : BitVec 16) : Statement (.ldw b a imm16) :=
  classify_encodeI 0x17 a b imm16 (by decide) (by decide)

theorem ldbuio (b : RegIdx) (a : RegIdx) (imm16 : BitVec 16) : Statement (.ldbuio b a imm16) :=
  classify_encodeI 0x23 a b imm16 (by decide) (by decide)

theorem stbio (b : RegIdx) (a : RegIdx) (imm16 : BitVec 16) : Statement (.stbio b a imm16) :=
  classify_encodeI 0x25 a b imm16 (by decide) (by decide)

theorem ldbio (b : RegIdx) (a : RegIdx) (imm16 : BitVec 16) : Statement (.ldbio b a imm16) :=
  classify_encodeI 0x27 a b imm16 (by decide) (by decide)

theorem ldhuio (b : RegIdx) (a : RegIdx) (imm16 : BitVec 16) : Statement (.ldhuio b a imm16) :=
  classify_encodeI 0x2B a b imm16 (by decide) (by decide)

theorem sthio (b : RegIdx) (a : RegIdx) (imm16 : BitVec 16) : Statement (.sthio b a imm16) :=
  classify_encodeI 0x2D a b imm16 (by decide) (by decide)

theorem ldhio (b : RegIdx) (a : RegIdx) (imm16 : BitVec 16) : Statement (.ldhio b a imm16) :=
  classify_encodeI 0x2F a b imm16 (by decide) (by decide)

theorem stwio (b : RegIdx) (a : RegIdx) (imm16 : BitVec 16) : Statement (.stwio b a imm16) :=
  classify_encodeI 0x35 a b imm16 (by decide) (by decide)

theorem ldwio (b : RegIdx) (a : RegIdx) (imm16 : BitVec 16) : Statement (.ldwio b a imm16) :=
  classify_encodeI 0x37 a b imm16 (by decide) (by decide)

theorem addi (b : RegIdx) (a : RegIdx) (imm16 : BitVec 16) : Statement (.addi b a imm16) :=
  classify_encodeI 0x04 a b imm16 (by decide) (by decide)

theorem andi (b : RegIdx) (a : RegIdx) (imm16 : BitVec 16) : Statement (.andi b a imm16) :=
  classify_encodeI 0x0C a b imm16 (by decide) (by decide)

theorem ori (b : RegIdx) (a : RegIdx) (imm16 : BitVec 16) : Statement (.ori b a imm16) :=
  classify_encodeI 0x14 a b imm16 (by decide) (by decide)

theorem xori (b : RegIdx) (a : RegIdx) (imm16 : BitVec 16) : Statement (.xori b a imm16) :=
  classify_encodeI 0x1C a b imm16 (by decide) (by decide)

theorem andhi (b : RegIdx) (a : RegIdx) (imm16 : BitVec 16) : Statement (.andhi b a imm16) :=
  classify_encodeI 0x2C a b imm16 (by decide) (by decide)

theorem orhi (b : RegIdx) (a : RegIdx) (imm16 : BitVec 16) : Statement (.orhi b a imm16) :=
  classify_encodeI 0x34 a b imm16 (by decide) (by decide)

theorem xorhi (b : RegIdx) (a : RegIdx) (imm16 : BitVec 16) : Statement (.xorhi b a imm16) :=
  classify_encodeI 0x3C a b imm16 (by decide) (by decide)

theorem cmpeqi (b : RegIdx) (a : RegIdx) (imm16 : BitVec 16) : Statement (.cmpeqi b a imm16) :=
  classify_encodeI 0x20 a b imm16 (by decide) (by decide)

theorem cmpnei (b : RegIdx) (a : RegIdx) (imm16 : BitVec 16) : Statement (.cmpnei b a imm16) :=
  classify_encodeI 0x18 a b imm16 (by decide) (by decide)

theorem cmpgei (b : RegIdx) (a : RegIdx) (imm16 : BitVec 16) : Statement (.cmpgei b a imm16) :=
  classify_encodeI 0x08 a b imm16 (by decide) (by decide)

theorem cmplti (b : RegIdx) (a : RegIdx) (imm16 : BitVec 16) : Statement (.cmplti b a imm16) :=
  classify_encodeI 0x10 a b imm16 (by decide) (by decide)

theorem cmpgeui (b : RegIdx) (a : RegIdx) (imm16 : BitVec 16) : Statement (.cmpgeui b a imm16) :=
  classify_encodeI 0x28 a b imm16 (by decide) (by decide)

theorem cmpltui (b : RegIdx) (a : RegIdx) (imm16 : BitVec 16) : Statement (.cmpltui b a imm16) :=
  classify_encodeI 0x30 a b imm16 (by decide) (by decide)

theorem muli (b : RegIdx) (a : RegIdx) (imm16 : BitVec 16) : Statement (.muli b a imm16) :=
  classify_encodeI 0x24 a b imm16 (by decide) (by decide)

theorem br (imm16 : BitVec 16) : Statement (.br imm16) :=
  classify_encodeI 0x06 0 0 imm16 (by decide) (by decide)

theorem beq (a : RegIdx) (b : RegIdx) (imm16 : BitVec 16) : Statement (.beq a b imm16) :=
  classify_encodeI 0x26 a b imm16 (by decide) (by decide)

theorem bne (a : RegIdx) (b : RegIdx) (imm16 : BitVec 16) : Statement (.bne a b imm16) :=
  classify_encodeI 0x1E a b imm16 (by decide) (by decide)

theorem bge (a : RegIdx) (b : RegIdx) (imm16 : BitVec 16) : Statement (.bge a b imm16) :=
  classify_encodeI 0x0E a b imm16 (by decide) (by decide)

theorem bgeu (a : RegIdx) (b : RegIdx) (imm16 : BitVec 16) : Statement (.bgeu a b imm16) :=
  classify_encodeI 0x2E a b imm16 (by decide) (by decide)

theorem blt (a : RegIdx) (b : RegIdx) (imm16 : BitVec 16) : Statement (.blt a b imm16) :=
  classify_encodeI 0x16 a b imm16 (by decide) (by decide)

theorem bltu (a : RegIdx) (b : RegIdx) (imm16 : BitVec 16) : Statement (.bltu a b imm16) :=
  classify_encodeI 0x36 a b imm16 (by decide) (by decide)

theorem add (c : RegIdx) (a : RegIdx) (b : RegIdx) : Statement (.add c a b) :=
  classify_encodeR 0x31 a b c 0 (by decide)

theorem sub (c : RegIdx) (a : RegIdx) (b : RegIdx) : Statement (.sub c a b) :=
  classify_encodeR 0x39 a b c 0 (by decide)

theorem and (c : RegIdx) (a : RegIdx) (b : RegIdx) : Statement (.and c a b) :=
  classify_encodeR 0x0E a b c 0 (by decide)

theorem or (c : RegIdx) (a : RegIdx) (b : RegIdx) : Statement (.or c a b) :=
  classify_encodeR 0x16 a b c 0 (by decide)

theorem xor (c : RegIdx) (a : RegIdx) (b : RegIdx) : Statement (.xor c a b) :=
  classify_encodeR 0x1E a b c 0 (by decide)

theorem nor (c : RegIdx) (a : RegIdx) (b : RegIdx) : Statement (.nor c a b) :=
  classify_encodeR 0x06 a b c 0 (by decide)

theorem cmpeq (c : RegIdx) (a : RegIdx) (b : RegIdx) : Statement (.cmpeq c a b) :=
  classify_encodeR 0x20 a b c 0 (by decide)

theorem cmpne (c : RegIdx) (a : RegIdx) (b : RegIdx) : Statement (.cmpne c a b) :=
  classify_encodeR 0x18 a b c 0 (by decide)

theorem cmpge (c : RegIdx) (a : RegIdx) (b : RegIdx) : Statement (.cmpge c a b) :=
  classify_encodeR 0x08 a b c 0 (by decide)

theorem cmpgeu (c : RegIdx) (a : RegIdx) (b : RegIdx) : Statement (.cmpgeu c a b) :=
  classify_encodeR 0x28 a b c 0 (by decide)

theorem cmplt (c : RegIdx) (a : RegIdx) (b : RegIdx) : Statement (.cmplt c a b) :=
  classify_encodeR 0x10 a b c 0 (by decide)

theorem cmpltu (c : RegIdx) (a : RegIdx) (b : RegIdx) : Statement (.cmpltu c a b) :=
  classify_encodeR 0x30 a b c 0 (by decide)

theorem sll (c : RegIdx) (a : RegIdx) (b : RegIdx) : Statement (.sll c a b) :=
  classify_encodeR 0x13 a b c 0 (by decide)

theorem srl (c : RegIdx) (a : RegIdx) (b : RegIdx) : Statement (.srl c a b) :=
  classify_encodeR 0x1B a b c 0 (by decide)

theorem sra (c : RegIdx) (a : RegIdx) (b : RegIdx) : Statement (.sra c a b) :=
  classify_encodeR 0x3B a b c 0 (by decide)

theorem rol (c : RegIdx) (a : RegIdx) (b : RegIdx) : Statement (.rol c a b) :=
  classify_encodeR 0x03 a b c 0 (by decide)

theorem ror (c : RegIdx) (a : RegIdx) (b : RegIdx) : Statement (.ror c a b) :=
  classify_encodeR 0x0B a b c 0 (by decide)

theorem mul (c : RegIdx) (a : RegIdx) (b : RegIdx) : Statement (.mul c a b) :=
  classify_encodeR 0x27 a b c 0 (by decide)

theorem mulxss (c : RegIdx) (a : RegIdx) (b : RegIdx) : Statement (.mulxss c a b) :=
  classify_encodeR 0x1F a b c 0 (by decide)

theorem mulxsu (c : RegIdx) (a : RegIdx) (b : RegIdx) : Statement (.mulxsu c a b) :=
  classify_encodeR 0x17 a b c 0 (by decide)

theorem mulxuu (c : RegIdx) (a : RegIdx) (b : RegIdx) : Statement (.mulxuu c a b) :=
  classify_encodeR 0x07 a b c 0 (by decide)

theorem div (c : RegIdx) (a : RegIdx) (b : RegIdx) : Statement (.div c a b) :=
  classify_encodeR 0x25 a b c 0 (by decide)

theorem divu (c : RegIdx) (a : RegIdx) (b : RegIdx) : Statement (.divu c a b) :=
  classify_encodeR 0x24 a b c 0 (by decide)

theorem slli (c : RegIdx) (a : RegIdx) (imm5 : BitVec 5) : Statement (.slli c a imm5) :=
  classify_encodeR 0x12 a 0 c imm5 (by decide)

theorem srli (c : RegIdx) (a : RegIdx) (imm5 : BitVec 5) : Statement (.srli c a imm5) :=
  classify_encodeR 0x1A a 0 c imm5 (by decide)

theorem srai (c : RegIdx) (a : RegIdx) (imm5 : BitVec 5) : Statement (.srai c a imm5) :=
  classify_encodeR 0x3A a 0 c imm5 (by decide)

theorem roli (c : RegIdx) (a : RegIdx) (imm5 : BitVec 5) : Statement (.roli c a imm5) :=
  classify_encodeR 0x02 a 0 c imm5 (by decide)

theorem jmp (a : RegIdx) : Statement (.jmp a) :=
  classify_encodeR 0x0D a 0 0 0 (by decide)

theorem callr (a : RegIdx) : Statement (.callr a) :=
  classify_encodeR 0x1D a 0 31 0 (by decide)

theorem ret : Statement (.ret) :=
  classify_encodeR 0x05 31 0 0 0 (by decide)

theorem nextpc (c : RegIdx) : Statement (.nextpc c) :=
  classify_encodeR 0x1C 0 0 c 0 (by decide)

theorem brk (imm5 : BitVec 5) : Statement (.brk imm5) :=
  classify_encodeR 0x34 0 0 30 imm5 (by decide)

theorem trap (imm5 : BitVec 5) : Statement (.trap imm5) :=
  classify_encodeR 0x2D 0 0 29 imm5 (by decide)

theorem eret : Statement (.eret) :=
  classify_encodeR 0x01 29 30 0 0 (by decide)

theorem bret : Statement (.bret) :=
  classify_encodeR 0x09 30 0 30 0 (by decide)

theorem rdctl (c : RegIdx) (n : BitVec 5) : Statement (.rdctl c n) :=
  classify_encodeR 0x26 0 0 c n (by decide)

theorem wrctl (n : BitVec 5) (a : RegIdx) : Statement (.wrctl n a) :=
  classify_encodeR 0x2E a 0 0 n (by decide)

end Sys2Proof.Laws.Recognised
end

