-- ==== Sys2Proof/Laws/Sections.lean ====
section
/-! SUPPORT. The section collection: lookup in a well-formed collection, and insertion, which keeps it well-formed
(spec/20_memory.md R52, R53, R56). -/

namespace Sys2Proof.Machine

/-- In a well-formed collection the lookup finds the section that covers the address (R56). -/
theorem find?_of_covers {ts : List Section} (hp : ts.Pairwise (fun t u => t.limit ≤ u.base)) {t : Section}
    (hm : t ∈ ts) {p : Nat} (hc : t.covers p = true) : ts.find? (fun t => t.covers p) = some t := by
  induction ts with
  | nil => cases hm
  | cons u us ih =>
    have hpu := List.pairwise_cons.1 hp
    rcases List.mem_cons.1 hm with rfl | hm'
    · simp [hc]
    · have hno : u.covers p = false := by
        have h1 := hpu.1 t hm'
        unfold Section.covers at hc ⊢
        simp only [Bool.and_eq_true, decide_eq_true_eq, Bool.and_eq_false_iff, decide_eq_false_iff_not] at hc ⊢
        omega
      simp only [List.find?_cons, hno]
      exact ih hpu.2 hm'

theorem State.sectAt_of_mem {s : State} (hw : s.wf) {t : Section} (hm : t ∈ s.sections) {p : Nat}
    (hp : p < 2 ^ 31) (hc : t.covers p = true) : s.sectAt p = some t := by
  unfold State.sectAt; rw [if_pos hp]; exact find?_of_covers hw.1.1 hm hc

/-- Two sections meet when they share a byte address (R52). -/
theorem Section.meets_iff (t : Section) (h : t.base < t.limit) {lo hi : Nat} (hl : lo < hi) :
    t.meets lo hi = true ↔ ∃ p, t.covers p = true ∧ lo ≤ p ∧ p < hi := by
  unfold Section.meets Section.covers
  simp only [decide_eq_true_eq, Bool.and_eq_true]
  constructor
  · intro _; exact ⟨max t.base lo, by omega⟩
  · rintro ⟨p, _⟩; omega

theorem mem_insertSection (t : Section) (us : List Section) (u : Section) :
    u ∈ insertSection t us ↔ u ∈ us ∨ u = t := by
  induction us with
  | nil => simp [insertSection]
  | cons v us ih =>
    unfold insertSection
    split
    · simp only [List.mem_cons]; tauto
    · simp only [List.mem_cons, ih]; tauto

/-- Inserting a section that is disjoint from all of them keeps the collection sorted and disjoint. -/
theorem insertSection_pairwise (t : Section) (us : List Section) (hb : t.base < t.limit)
    (hw : us.Pairwise (fun t u => t.limit ≤ u.base)) (hn : ∀ u ∈ us, u.base < u.limit)
    (hd : ∀ u ∈ us, t.limit ≤ u.base ∨ u.limit ≤ t.base) :
    (insertSection t us).Pairwise (fun t u => t.limit ≤ u.base) := by
  induction us with
  | nil => simp [insertSection]
  | cons v us ih =>
    have hpv := List.pairwise_cons.1 hw
    have hv := hn v (by simp)
    have hdv := hd v (by simp)
    unfold insertSection
    split
    · refine List.pairwise_cons.2 ⟨fun w hm => ?_, hw⟩
      rcases List.mem_cons.1 hm with rfl | hm
      · omega
      · have := hpv.1 w hm; omega
    · refine List.pairwise_cons.2 ⟨fun w hm => ?_, ih hpv.2 (fun u hu => hn u (List.mem_cons_of_mem _ hu))
        (fun u hu => hd u (List.mem_cons_of_mem _ hu))⟩
      rcases (mem_insertSection t us w).1 hm with hm | rfl
      · exact hpv.1 w hm
      · omega

theorem insertSection_wf (t : Section) (us : List Section) (hb : t.base < t.limit) (ht : t.limit ≤ 2 ^ 32)
    (hw : sectionsWf us) (hd : ∀ u ∈ us, t.limit ≤ u.base ∨ u.limit ≤ t.base) :
    sectionsWf (insertSection t us) := by
  refine ⟨insertSection_pairwise t us hb hw.1 (fun u hu => (hw.2 u hu).1) hd, fun u hu => ?_⟩
  rcases (mem_insertSection t us u).1 hu with hu | rfl
  · exact hw.2 u hu
  · exact ⟨hb, ht⟩

/-- A section that does not cover an address does not change its lookup. -/
theorem find?_insertSection (t : Section) (us : List Section) (p : Nat) (h : t.covers p = false) :
    (insertSection t us).find? (fun u => u.covers p) = us.find? (fun u => u.covers p) := by
  induction us with
  | nil => simp [insertSection, h]
  | cons v us ih =>
    unfold insertSection
    split
    · simp [List.find?_cons, h]
    · simp only [List.find?_cons, ih]

/-- Erasing a range leaves the bytes outside it. -/
theorem Memory.get?_eraseRange (m : Memory) (lo hi p : Nat) (h : p < lo ∨ hi ≤ p) :
    Memory.get? (m.eraseRange lo hi) p = Memory.get? m p := by
  unfold Memory.eraseRange
  induction m with
  | nil => rfl
  | cons c m ih =>
    rw [List.filter_cons]
    split
    · simp only [Memory.get?, ih]
    · rename_i hc
      simp only [Bool.or_eq_true, decide_eq_true_eq] at hc
      have : c.1 ≠ p := by omega
      simp [Memory.get?, this, ih]

end Sys2Proof.Machine
end

