-- ==== Sys2Proof/Laws/Step.lean ====
section
/-! SUPPORT. What a step can do, said once: `step_cases`, from which the invariants of a step follow by cases, and the lemmas
of the entry and the end of an iteration. -/

namespace Sys2Proof.Machine

/-! ### `enter` -/

section
variable (s : State)

theorem enter_running (h : s.es ≠ .exited) : (enter s).es = .running := by
  unfold enter; split
  · rfl
  · assumption
  · rename_i e; exact absurd e h

/-- Entering changes the execution state and the reason alone. -/
theorem enter_eq : enter s = { s with es := (enter s).es, sr := (enter s).sr } := by
  unfold enter; split <;> rfl

@[simp] theorem enter_regs : (enter s).regs = s.regs := by rw [enter_eq]
@[simp] theorem enter_pc : (enter s).pc = s.pc := by rw [enter_eq]
@[simp] theorem enter_ctl : (enter s).ctl = s.ctl := by rw [enter_eq]
@[simp] theorem enter_dpxRegs : (enter s).dpxRegs = s.dpxRegs := by rw [enter_eq]
@[simp] theorem enter_ec : (enter s).ec = s.ec := by rw [enter_eq]
@[simp] theorem enter_sections : (enter s).sections = s.sections := by rw [enter_eq]
@[simp] theorem enter_mem : (enter s).mem = s.mem := by rw [enter_eq]
@[simp] theorem enter_out : (enter s).out = s.out := by rw [enter_eq]
@[simp] theorem enter_hirq : (enter s).hirq = s.hirq := by rw [enter_eq]
@[simp] theorem enter_cfg : (enter s).cfg = s.cfg := by rw [enter_eq]
@[simp] theorem enter_singleStep : (enter s).singleStep = s.singleStep := by rw [enter_eq]
@[simp] theorem enter_freeCtr : (enter s).freeCtr = s.freeCtr := by rw [enter_eq]
@[simp] theorem x_enter (i : RegIdx) : (enter s).x i = s.x i := by unfold State.x; rw [enter_regs]
@[simp] theorem ctlReg_enter (n : Fin 16) : (enter s).ctlReg n = s.ctlReg n := by
  unfold State.ctlReg; rw [enter_ctl]
@[simp] theorem peek_enter (p : Nat) : (enter s).peek p = s.peek p := State.peek_congr (by simp) (by simp) p
@[simp] theorem fetch_enter : (enter s).fetch = s.fetch := State.fetch_congr (by simp) (by simp) (by simp)

end

/-! ### `finishStep` -/

/-- The end of an iteration leaves the state, or stops it with `StepComplete`. -/
theorem finishStep_cases (s : State) :
    (finishStep s = s ∧ (s.es ≠ .running ∨ s.singleStep = false)) ∨
      (finishStep s = s.raiseStop .stepComplete ∧ s.es = .running ∧ s.singleStep = true) := by
  unfold finishStep
  by_cases h : s.es = .running <;> by_cases h' : s.singleStep = true <;> simp [h, h']

/-! ### The step -/

/-- The state after the host interrupt request was taken. -/
def interruptedState (s : State) : State := { enter s with hirq := false }.raiseStop .interrupted

theorem step_exited {s : State} (h : s.es = .exited) : step s = .next s := by
  unfold step iteration; rw [h]

theorem iteration_eq {s : State} (h : s.es ≠ .exited) : step s = loopBody (enter s) := by
  unfold step iteration
  split
  · rename_i e; exact absurd e h
  · rename_i e; unfold enter; rw [e]
  · rfl

theorem step_hirq {s : State} (h : s.es ≠ .exited) (hq : s.hirq = true) : step s = .next (interruptedState s) := by
  rw [iteration_eq h]
  unfold loopBody
  rw [if_pos (by rw [enter_hirq, hq])]
  rfl

theorem step_of_stepInstr {s : State} (h : s.es ≠ .exited) (hq : s.hirq = false) :
    step s = finishResult (stepInstr (enter s)) := by
  rw [iteration_eq h]
  unfold loopBody
  rw [if_neg (by rw [enter_hirq, hq]; decide)]

/-- What points 1 to 7 of a step answer: a stop, or an effect of the instruction that was fetched. -/
theorem stepInstr_cases {s u : State} (h : stepInstr s = .next u) :
    (∃ r, r ≠ .stepComplete ∧ r ≠ .interrupted ∧ u = s.raiseStop r) ∨
      (∃ w i, s.fetch = some w ∧ decode w = .instr i ∧ s.cfg.variant = .base ∧ exec i s = .next u ∧
        Effect i s u) := by
  unfold stepInstr at h
  split at h
  case isFalse =>
    injection h with h
    exact .inl ⟨_, by decide, by decide, h.symm⟩
  case isTrue =>
    split at h
    · injection h with h
      exact .inl ⟨_, by decide, by decide, h.symm⟩
    · rename_i w hw
      split at h
      · rename_i hv
        unfold runBase at h
        split at h
        · injection h with h
          exact .inl ⟨_, by decide, by decide, h.symm⟩
        · unfold gated at h
          split at h
          · injection h with h
            exact .inl ⟨_, by decide, by decide, h.symm⟩
          · injection h with h
            exact .inl ⟨_, by decide, by decide, h.symm⟩
        · rename_i i hi
          obtain ⟨t, ht, he⟩ := exec_effects i s
          have htu : t = u := by rw [h] at ht; injection ht with ht; exact ht.symm
          rw [htu] at he
          exact .inr ⟨w, i, hw, hi, hv, h, he⟩
      · unfold runDpx at h
        split at h
        · injection h with h
          exact .inl ⟨_, by decide, by decide, h.symm⟩
        · unfold gated at h
          split at h
          · split at h
            · split at h
              · injection h with h
                exact .inl ⟨_, by decide, by decide, h.symm⟩
              · injection h with h
                exact .inl ⟨_, by decide, by decide, h.symm⟩
              · cases h
            · injection h with h
              exact .inl ⟨_, by decide, by decide, h.symm⟩
          · injection h with h
            exact .inl ⟨_, by decide, by decide, h.symm⟩

/-- Everything a step can do when it answers a next state: nothing on an exited machine; the interrupt request; a stop;
or an effect of the fetched instruction on the entered state, and the end of the iteration. -/
theorem step_cases {s t : State} (h : step s = .next t) :
    (s.es = .exited ∧ t = s) ∨
      (s.es ≠ .exited ∧ s.hirq = true ∧ t = interruptedState s) ∨
      (s.es ≠ .exited ∧ s.hirq = false ∧
        ∃ r, r ≠ .stepComplete ∧ r ≠ .interrupted ∧ t = (enter s).raiseStop r) ∨
      (s.es ≠ .exited ∧ s.hirq = false ∧
        ∃ w i u, s.fetch = some w ∧ decode w = .instr i ∧ s.cfg.variant = .base ∧
          exec i (enter s) = .next u ∧ Effect i (enter s) u ∧ t = finishStep u) := by
  by_cases he : s.es = .exited
  · rw [step_exited he] at h
    injection h with h
    exact .inl ⟨he, h.symm⟩
  · cases hq : s.hirq with
    | true =>
      rw [step_hirq he hq] at h
      injection h with h
      exact .inr (.inl ⟨he, rfl, h.symm⟩)
    | false =>
      rw [step_of_stepInstr he hq] at h
      cases hs : stepInstr (enter s) with
      | next u =>
        rw [hs] at h
        injection h with h
        rcases stepInstr_cases hs with ⟨r, h1, h2, rfl⟩ | ⟨w, i, hw, hi, hv, hx, heff⟩
        · refine .inr (.inr (.inl ⟨he, rfl, r, h1, h2, ?_⟩))
          rw [← h]; rfl
        · exact .inr (.inr (.inr ⟨he, rfl, w, i, u, by simpa using hw, hi, by simpa using hv, hx, heff, h.symm⟩))
      | fault r => rw [hs] at h; cases h
      | refused r => rw [hs] at h; cases h

end Sys2Proof.Machine
end

