-- ==== Sys2Proof/Tests/Slice0.lean ====
section
/-! SUPPORT. Tests of the model, each about one step or one word, and the witnesses that the hypotheses of the
statements can be met. The words and results of the instruction tests are those of spec/95_test_vectors.md and of the
examples of the instruction rules; the few others are worked out by hand from the rule named beside them. -/

namespace Sys2Proof.Tests

open Sys2Proof.Machine

/-! ### A small machine -/

/-- Code at 0x1000, eight bytes of data at 0x2000, four read-only bytes at 0x3000. -/
def sections3 : List Section :=
  [⟨"code", 0x1000, 0x1010, ⟨true, true, false, false⟩, 0⟩, ⟨"data", 0x2000, 0x2008, ⟨false, true, false, false⟩, 1⟩,
    ⟨"rom", 0x3000, 0x3004, ⟨false, true, false, true⟩, 2⟩]

/-- The data bytes of spec/95_test_vectors.md section 5.1. -/
def dataBytes : List Byte := [0x78, 0x56, 0x34, 0x12, 0x80, 0xFF, 0x34, 0x92]

/-- A running machine at 0x1000 with these sections and registers. -/
def machine (regs : List (RegIdx × Word)) : State :=
  regs.foldl (fun s r => s.setX r.1 r.2)
    { State.reset with
      es := .running, sections := sections3
      mem := Memory.setBytes (Memory.setBytes [] 0x2000 dataBytes) 0x3000 [1, 2, 3, 4] }

/-- The same with the word of an instruction at 0x1000. -/
def run (w : Word) (regs : List (RegIdx × Word)) : State :=
  let s := machine regs
  { s with mem := Memory.setBytes s.mem 0x1000 (bytesLe w 4) }

/-- The state after one step. -/
def stepped (s : State) : State :=
  match step s with
  | .next t => t
  | .fault _ => s
  | .refused _ => s

/-- One step has a next state. -/
def steps (s : State) : Bool :=
  match step s with
  | .next _ => true
  | .fault _ => false
  | .refused _ => false

theorem step_of_steps {s : State} (h : steps s = true) : step s = .next (stepped s) := by
  unfold steps at h
  unfold stepped
  split at h <;> simp_all

/-- One register, `pc`, `es` and `sr` after one step. -/
def after (s : State) (d : RegIdx) : Option (Word × Word × ExecState × Option StopReason) :=
  if steps s then some ((stepped s).x d, (stepped s).pc, (stepped s).es, (stepped s).sr) else none

/-- The eight data bytes after one step. -/
def dataAfter (s : State) : List Byte := (stepped s).memRead 0x2000 8 dataAccess

/-! ### Well-formedness (spec/30_encoding.md R91): the check refuses the ill-formed terms -/

theorem test_rdctl_index_16_refused : ¬ WellFormed (.rdctl 3 16) ∧ ¬ WellFormed (.rdctl 3 31) := by decide

theorem test_wrctl_index_16_refused : ¬ WellFormed (.wrctl 16 3) ∧ ¬ WellFormed (.wrctl 31 3) := by decide

theorem test_ctl_index_15_accepted : WellFormed (.rdctl 3 15) ∧ WellFormed (.wrctl 15 3) := by decide

/-! ### Words written out field by field from the encodings of spec/30_encoding.md R81 to R83 -/

/-- `ldw r3, 4(r1)`: A = 1, B = 3, IMM16 = 4, OP = 0x17. -/
theorem test_fields_load : decode (1#5 ++ 3#5 ++ 4#16 ++ 0x17#6) = .instr (.ldw 3 1 4) := by decide

/-- `xorhi r3, r1, 0x8001`: A = 1, B = 3, IMM16 = 0x8001, OP = 0x3C. -/
theorem test_fields_immediate : decode (1#5 ++ 3#5 ++ 0x8001#16 ++ 0x3C#6) = .instr (.xorhi 3 1 0x8001) := by decide

/-- `blt r1, r2, -4`: A = 1, B = 2, OP = 0x16. -/
theorem test_fields_branch : decode (1#5 ++ 2#5 ++ 0xFFFC#16 ++ 0x16#6) = .instr (.blt 1 2 0xFFFC) := by decide

/-- `call`: IMM26, OP = 0x00. -/
theorem test_fields_call : decode (0x2000001#26 ++ 0x00#6) = .instr (.call 0x2000001) := by decide

/-- `sub r3, r1, r2`: A = 1, B = 2, C = 3, OPX = 0x39, IMM5 = 0, OP = 0x3A. -/
theorem test_fields_register : decode (1#5 ++ 2#5 ++ 3#5 ++ 0x39#6 ++ 0#5 ++ 0x3A#6) = .instr (.sub 3 1 2) := by
  decide

/-- `srai r3, r1, 31`: A = 1, B = 0, C = 3, OPX = 0x3A, IMM5 = 31. -/
theorem test_fields_shift : decode (1#5 ++ 0#5 ++ 3#5 ++ 0x3A#6 ++ 31#5 ++ 0x3A#6) = .instr (.srai 3 1 31) := by
  decide

/-- `mulxsu r3, r1, r2`: OPX = 0x17. -/
theorem test_fields_multiply : decode (1#5 ++ 2#5 ++ 3#5 ++ 0x17#6 ++ 0#5 ++ 0x3A#6) = .instr (.mulxsu 3 1 2) := by
  decide

/-- `wrctl ctl15, r1`: A = 1, B = 0, C = 0, OPX = 0x2E, IMM5 = 15. -/
theorem test_fields_control : decode (1#5 ++ 0#5 ++ 0#5 ++ 0x2E#6 ++ 15#5 ++ 0x3A#6) = .instr (.wrctl 15 1) := by
  decide

/-- The byte order of decodeTableWord (R80): the word of `add r3, r1, r2` as a number. -/
theorem test_decodeTableWord : decodeTableWord 32 0x0887883A = some (.add 3 1 2) ∧
    decodeTableWord 32 0x0000003A = none := by
  decide

/-- `withFetchWord` after reset: the next step runs the word (log 10). -/
theorem test_withFetchWord :
    after (State.reset.withFetchWord 32 0x00FFFFC4) 3 = some (0xFFFFFFFF, 0x1004, .running, none) := by decide

/-! ### Loads and stores (spec/45_load_store.md; spec/95_test_vectors.md) -/

theorem test_ldbu :
    decode 0x08C00143#32 = .instr (.ldbu 3 1 0x0005) ∧ encode (.ldbu 3 1 0x0005) = 0x08C00143#32 ∧
    after (run 0x08C00143 [(1, 0x2000), (3, 0xAAAAAAAA)]) 3 = some (0x000000FF, 0x1004, .running, none) := by decide

theorem test_stb :
    decode 0x088001C5#32 = .instr (.stb 2 1 0x0007) ∧ encode (.stb 2 1 0x0007) = 0x088001C5#32 ∧
    dataAfter (run 0x088001C5 [(1, 0x2000), (2, 0xA1B2C3D4)]) = [0x78, 0x56, 0x34, 0x12, 0x80, 0xFF, 0x34, 0xD4] := by
  decide

theorem test_ldb :
    decode 0x08C00107#32 = .instr (.ldb 3 1 0x0004) ∧ encode (.ldb 3 1 0x0004) = 0x08C00107#32 ∧
    after (run 0x08C00107 [(1, 0x2000), (3, 0xAAAAAAAA)]) 3 = some (0xFFFFFF80, 0x1004, .running, none) := by decide

theorem test_ldhu :
    decode 0x08C0010B#32 = .instr (.ldhu 3 1 0x0004) ∧ encode (.ldhu 3 1 0x0004) = 0x08C0010B#32 ∧
    after (run 0x08C0010B [(1, 0x2000), (3, 0xAAAAAAAA)]) 3 = some (0x0000FF80, 0x1004, .running, none) := by decide

theorem test_sth :
    decode 0x0880018D#32 = .instr (.sth 2 1 0x0006) ∧ encode (.sth 2 1 0x0006) = 0x0880018D#32 ∧
    dataAfter (run 0x0880018D [(1, 0x2000), (2, 0xA1B2C3D4)]) = [0x78, 0x56, 0x34, 0x12, 0x80, 0xFF, 0xD4, 0xC3] := by
  decide

theorem test_ldh :
    decode 0x08C0010F#32 = .instr (.ldh 3 1 0x0004) ∧ encode (.ldh 3 1 0x0004) = 0x08C0010F#32 ∧
    after (run 0x08C0010F [(1, 0x2000), (3, 0xAAAAAAAA)]) 3 = some (0xFFFFFF80, 0x1004, .running, none) := by decide

theorem test_stw :
    decode 0x08800115#32 = .instr (.stw 2 1 0x0004) ∧ encode (.stw 2 1 0x0004) = 0x08800115#32 ∧
    dataAfter (run 0x08800115 [(1, 0x2000), (2, 0xA1B2C3D4)]) = [0x78, 0x56, 0x34, 0x12, 0xD4, 0xC3, 0xB2, 0xA1] := by
  decide

theorem test_ldw :
    decode 0x08FFFF17#32 = .instr (.ldw 3 1 0xFFFC) ∧ encode (.ldw 3 1 0xFFFC) = 0x08FFFF17#32 ∧
    after (run 0x08FFFF17 [(1, 0x00002008), (3, 0xAAAAAAAA)]) 3 = some (0x9234FF80, 0x1004, .running, none) := by
  decide

theorem test_ldbuio :
    decode 0x08C00123#32 = .instr (.ldbuio 3 1 0x0004) ∧ encode (.ldbuio 3 1 0x0004) = 0x08C00123#32 ∧
    after (run 0x08C00123 [(1, 0x2000), (3, 0xAAAAAAAA)]) 3 = some (0x00000080, 0x1004, .running, none) := by decide

theorem test_stbio :
    decode 0x08800165#32 = .instr (.stbio 2 1 0x0005) ∧ encode (.stbio 2 1 0x0005) = 0x08800165#32 ∧
    dataAfter (run 0x08800165 [(1, 0x2000), (2, 0xA1B2C3D4)]) = [0x78, 0x56, 0x34, 0x12, 0x80, 0xD4, 0x34, 0x92] := by
  decide

theorem test_ldbio :
    decode 0x08C00127#32 = .instr (.ldbio 3 1 0x0004) ∧ encode (.ldbio 3 1 0x0004) = 0x08C00127#32 ∧
    after (run 0x08C00127 [(1, 0x2000), (3, 0xAAAAAAAA)]) 3 = some (0xFFFFFF80, 0x1004, .running, none) := by decide

theorem test_ldhuio :
    decode 0x08C001AB#32 = .instr (.ldhuio 3 1 0x0006) ∧ encode (.ldhuio 3 1 0x0006) = 0x08C001AB#32 ∧
    after (run 0x08C001AB [(1, 0x2000), (3, 0xAAAAAAAA)]) 3 = some (0x00009234, 0x1004, .running, none) := by decide

theorem test_sthio :
    decode 0x0880012D#32 = .instr (.sthio 2 1 0x0004) ∧ encode (.sthio 2 1 0x0004) = 0x0880012D#32 ∧
    dataAfter (run 0x0880012D [(1, 0x2000), (2, 0xA1B2C3D4)]) = [0x78, 0x56, 0x34, 0x12, 0xD4, 0xC3, 0x34, 0x92] := by
  decide

theorem test_ldhio :
    decode 0x08C001AF#32 = .instr (.ldhio 3 1 0x0006) ∧ encode (.ldhio 3 1 0x0006) = 0x08C001AF#32 ∧
    after (run 0x08C001AF [(1, 0x2000), (3, 0xAAAAAAAA)]) 3 = some (0xFFFF9234, 0x1004, .running, none) := by decide

theorem test_stwio :
    decode 0x08800035#32 = .instr (.stwio 2 1 0x0000) ∧ encode (.stwio 2 1 0x0000) = 0x08800035#32 ∧
    dataAfter (run 0x08800035 [(1, 0x2000), (2, 0xA1B2C3D4)]) = [0xD4, 0xC3, 0xB2, 0xA1, 0x80, 0xFF, 0x34, 0x92] := by
  decide

theorem test_ldwio :
    decode 0x08C00137#32 = .instr (.ldwio 3 1 0x0004) ∧ encode (.ldwio 3 1 0x0004) = 0x08C00137#32 ∧
    after (run 0x08C00137 [(1, 0x2000), (3, 0xAAAAAAAA)]) 3 = some (0x9234FF80, 0x1004, .running, none) := by decide

/-! ### Immediate operations (spec/44_immediate.md) -/

theorem test_addi :
    decode 0x08FFFC04#32 = .instr (.addi 3 1 0xFFF0) ∧ encode (.addi 3 1 0xFFF0) = 0x08FFFC04#32 ∧
    after (run 0x08FFFC04 [(1, 0x00001000)]) 3 = some (0x00000FF0, 0x1004, .running, none) := by decide

theorem test_andi :
    decode 0x08E0000C#32 = .instr (.andi 3 1 0x8000) ∧ encode (.andi 3 1 0x8000) = 0x08E0000C#32 ∧
    after (run 0x08E0000C [(1, 0xFFFFFFFF)]) 3 = some (0x00008000, 0x1004, .running, none) ∧
    after (run 0x08FFC3CC [(1, 0x12345678)]) 3 = some (0x00005608, 0x1004, .running, none) := by decide

theorem test_ori :
    decode 0x08E00014#32 = .instr (.ori 3 1 0x8000) ∧ encode (.ori 3 1 0x8000) = 0x08E00014#32 ∧
    after (run 0x08E00014 [(1, 0x12340000)]) 3 = some (0x12348000, 0x1004, .running, none) ∧
    after (run 0x00000454 [(4, 0x00000002), (5, 0x00002001), (6, 0x00000003)]) 3 = some (0x00000000, 0x1004, .running, none) := by decide

theorem test_xori :
    decode 0x08FFFFDC#32 = .instr (.xori 3 1 0xFFFF) ∧ encode (.xori 3 1 0xFFFF) = 0x08FFFFDC#32 ∧
    after (run 0x08FFFFDC [(1, 0xFFFFFFFF)]) 3 = some (0xFFFF0000, 0x1004, .running, none) ∧
    after (run 0x08E0001C [(1, 0x12345678)]) 3 = some (0x1234D678, 0x1004, .running, none) := by decide

theorem test_andhi :
    decode 0x08E0002C#32 = .instr (.andhi 3 1 0x8000) ∧ encode (.andhi 3 1 0x8000) = 0x08E0002C#32 ∧
    after (run 0x08E0002C [(1, 0xFFFFFFFF)]) 3 = some (0x80000000, 0x1004, .running, none) ∧
    after (run 0x08FFC3EC [(1, 0x12345678)]) 3 = some (0x12040000, 0x1004, .running, none) := by decide

theorem test_orhi :
    decode 0x08C48D34#32 = .instr (.orhi 3 1 0x1234) ∧ encode (.orhi 3 1 0x1234) = 0x08C48D34#32 ∧
    after (run 0x08C48D34 [(1, 0x00005678)]) 3 = some (0x12345678, 0x1004, .running, none) ∧
    after (run 0x00E00034 []) 3 = some (0x80000000, 0x1004, .running, none) := by decide

theorem test_xorhi :
    decode 0x08FFFFFC#32 = .instr (.xorhi 3 1 0xFFFF) ∧ encode (.xorhi 3 1 0xFFFF) = 0x08FFFFFC#32 ∧
    after (run 0x08FFFFFC [(1, 0xFFFFFFFF)]) 3 = some (0x0000FFFF, 0x1004, .running, none) ∧
    after (run 0x08E0003C [(1, 0x12345678)]) 3 = some (0x92345678, 0x1004, .running, none) := by decide

theorem test_cmpeqi :
    decode 0x08FFFFE0#32 = .instr (.cmpeqi 3 1 0xFFFF) ∧ encode (.cmpeqi 3 1 0xFFFF) = 0x08FFFFE0#32 ∧
    after (run 0x08FFFFE0 [(1, 0xFFFFFFFF)]) 3 = some (0x00000001, 0x1004, .running, none) ∧
    after (run 0x08FFFFE0 [(1, 0x0000FFFF)]) 3 = some (0x00000000, 0x1004, .running, none) := by decide

theorem test_cmpnei :
    decode 0x08FFFFD8#32 = .instr (.cmpnei 3 1 0xFFFF) ∧ encode (.cmpnei 3 1 0xFFFF) = 0x08FFFFD8#32 ∧
    after (run 0x08FFFFD8 [(1, 0xFFFFFFFF)]) 3 = some (0x00000000, 0x1004, .running, none) ∧
    after (run 0x08C00198 [(1, 0x00000005)]) 3 = some (0x00000001, 0x1004, .running, none) := by decide

theorem test_cmpgei :
    decode 0x08C00008#32 = .instr (.cmpgei 3 1 0x0000) ∧ encode (.cmpgei 3 1 0x0000) = 0x08C00008#32 ∧
    after (run 0x08C00008 [(1, 0xFFFFFFFF)]) 3 = some (0x00000000, 0x1004, .running, none) ∧
    after (run 0x08FFFFC8 [(1, 0x00000000)]) 3 = some (0x00000001, 0x1004, .running, none) := by decide

theorem test_cmplti :
    decode 0x08C00010#32 = .instr (.cmplti 3 1 0x0000) ∧ encode (.cmplti 3 1 0x0000) = 0x08C00010#32 ∧
    after (run 0x08C00010 [(1, 0xFFFFFFFF)]) 3 = some (0x00000001, 0x1004, .running, none) ∧
    after (run 0x08FFFFD0 [(1, 0x00000000)]) 3 = some (0x00000000, 0x1004, .running, none) := by decide

theorem test_cmpgeui :
    decode 0x08FFFFE8#32 = .instr (.cmpgeui 3 1 0xFFFF) ∧ encode (.cmpgeui 3 1 0xFFFF) = 0x08FFFFE8#32 ∧
    after (run 0x08FFFFE8 [(1, 0xFFFFFFFF)]) 3 = some (0x00000001, 0x1004, .running, none) ∧
    after (run 0x08FFFFE8 [(1, 0x0000FFFE)]) 3 = some (0x00000000, 0x1004, .running, none) := by decide

theorem test_cmpltui :
    decode 0x08FFFFF0#32 = .instr (.cmpltui 3 1 0xFFFF) ∧ encode (.cmpltui 3 1 0xFFFF) = 0x08FFFFF0#32 ∧
    after (run 0x08FFFFF0 [(1, 0x0000FFFE)]) 3 = some (0x00000001, 0x1004, .running, none) ∧
    after (run 0x08FFFFF0 [(1, 0xFFFFFFFF)]) 3 = some (0x00000000, 0x1004, .running, none) := by decide

/-! ### Branches and jumps (spec/46_control_transfer.md) -/

theorem test_call :
    decode 0xFFFFFFC0#32 = .instr (.call 0x3FFFFFF) ∧ encode (.call 0x3FFFFFF) = 0xFFFFFFC0#32 ∧
    after (run 0xFFFFFFC0 []) 31 = some (0x00001004, 0x0FFFFFFC, .running, none) := by decide

theorem test_br :
    decode 0x00000206#32 = .instr (.br 0x0008) ∧ encode (.br 0x0008) = 0x00000206#32 ∧
    after (run 0x00000206 []) 3 = some (0x00000000, 0x0000100C, .running, none) := by decide

theorem test_beq :
    decode 0x08800226#32 = .instr (.beq 1 2 0x0008) ∧ encode (.beq 1 2 0x0008) = 0x08800226#32 ∧
    after (run 0x08800226 [(1, 0x00000005), (2, 0x00000005)]) 3 = some (0x00000000, 0x0000100C, .running, none) ∧
    after (run 0x08800226 [(1, 0x00000005), (2, 0x00000006)]) 3 = some (0x00000000, 0x1004, .running, none) := by
  decide

theorem test_bge :
    decode 0x0880020E#32 = .instr (.bge 1 2 0x0008) ∧ encode (.bge 1 2 0x0008) = 0x0880020E#32 ∧
    after (run 0x0880020E [(1, 0xFFFFFFFF), (2, 0x00000000)]) 3 = some (0x00000000, 0x1004, .running, none) ∧
    after (run 0x0880020E [(1, 0x00000000), (2, 0x00000000)]) 3 = some (0x00000000, 0x0000100C, .running, none) := by
  decide

theorem test_bgeu :
    decode 0x0880022E#32 = .instr (.bgeu 1 2 0x0008) ∧ encode (.bgeu 1 2 0x0008) = 0x0880022E#32 ∧
    after (run 0x0880022E [(1, 0xFFFFFFFF), (2, 0x00000000)]) 3 = some (0x00000000, 0x0000100C, .running, none) ∧
    after (run 0x0880022E [(1, 0x00000000), (2, 0x00000001)]) 3 = some (0x00000000, 0x1004, .running, none) := by
  decide

theorem test_blt :
    decode 0x08800216#32 = .instr (.blt 1 2 0x0008) ∧ encode (.blt 1 2 0x0008) = 0x08800216#32 ∧
    after (run 0x08800216 [(1, 0x80000000), (2, 0x7FFFFFFF)]) 3 = some (0x00000000, 0x0000100C, .running, none) ∧
    after (run 0x08800216 [(1, 0x00000000), (2, 0x00000000)]) 3 = some (0x00000000, 0x1004, .running, none) := by
  decide

theorem test_bltu :
    decode 0x08800236#32 = .instr (.bltu 1 2 0x0008) ∧ encode (.bltu 1 2 0x0008) = 0x08800236#32 ∧
    after (run 0x08800236 [(1, 0x80000000), (2, 0x7FFFFFFF)]) 3 = some (0x00000000, 0x1004, .running, none) ∧
    after (run 0x08800236 [(1, 0x00000000), (2, 0xFFFFFFFF)]) 3 = some (0x00000000, 0x0000100C, .running, none) := by
  decide

theorem test_jmpi :
    decode 0xFFFFFFC1#32 = .instr (.jmpi 0x3FFFFFF) ∧ encode (.jmpi 0x3FFFFFF) = 0xFFFFFFC1#32 ∧
    after (run 0xFFFFFFC1 [(31, 0x5555)]) 31 = some (0x5555, 0x0FFFFFFC, .running, none) := by decide

theorem test_bne :
    decode 0x08BFFD1E#32 = .instr (.bne 1 2 0xFFF4) ∧ encode (.bne 1 2 0xFFF4) = 0x08BFFD1E#32 ∧
    after (run 0x08BFFD1E [(1, 1), (2, 0)]) 3 = some (0, 0x0FF8, .running, none) ∧
    after (run 0x08BFFD1E [(1, 5), (2, 5)]) 3 = some (0, 0x1004, .running, none) := by decide

theorem test_jmp :
    decode 0x0800683A#32 = .instr (.jmp 1) ∧ encode (.jmp 1) = 0x0800683A#32 ∧
    after (run 0x0800683A [(1, 0x00003000)]) 3 = some (0x00000000, 0x00003000, .running, none) := by decide

theorem test_callr :
    decode 0xF83EE83A#32 = .instr (.callr 31) ∧ encode (.callr 31) = 0xF83EE83A#32 ∧
    after (run 0xF83EE83A [(31, 0x00003000)]) 31 = some (0x00001004, 0x00003000, .running, none) := by decide

theorem test_ret :
    decode 0xF800283A#32 = .instr .ret ∧ encode .ret = 0xF800283A#32 ∧
    after (run 0xF800283A [(31, 0x00002004)]) 3 = some (0x00000000, 0x00002004, .running, none) := by decide

theorem test_nextpc :
    decode 0x0006E03A#32 = .instr (.nextpc 3) ∧ encode (.nextpc 3) = 0x0006E03A#32 ∧
    after (run 0x0006E03A []) 3 = some (0x00001004, 0x1004, .running, none) := by decide

/-! ### Register arithmetic, logic, compare, shift, rotate (spec/42_alu_register.md) -/

theorem test_add :
    decode 0x0887883A#32 = .instr (.add 3 1 2) ∧ encode (.add 3 1 2) = 0x0887883A#32 ∧
    after (run 0x0887883A [(1, 0x12345678), (2, 0x9ABCDEF0)]) 3 = some (0xACF13568, 0x1004, .running, none) := by
  decide

theorem test_sub :
    decode 0x0887C83A#32 = .instr (.sub 3 1 2) ∧ encode (.sub 3 1 2) = 0x0887C83A#32 ∧
    after (run 0x0887C83A [(1, 0x00000000), (2, 0x00000001)]) 3 = some (0xFFFFFFFF, 0x1004, .running, none) ∧
    after (run 0x0887C83A [(1, 0x12345678), (2, 0x9ABCDEF0)]) 3 = some (0x77777788, 0x1004, .running, none) := by
  decide

theorem test_and :
    decode 0x0886703A#32 = .instr (.and 3 1 2) ∧ encode (.and 3 1 2) = 0x0886703A#32 ∧
    after (run 0x0886703A [(1, 0xF0F0F0F0), (2, 0xFF00FF00)]) 3 = some (0xF000F000, 0x1004, .running, none) := by
  decide

theorem test_or :
    decode 0x0886B03A#32 = .instr (.or 3 1 2) ∧ encode (.or 3 1 2) = 0x0886B03A#32 ∧
    after (run 0x0886B03A [(1, 0xF0F0F0F0), (2, 0xFF00FF00)]) 3 = some (0xFFF0FFF0, 0x1004, .running, none) := by
  decide

theorem test_xor :
    decode 0x0886F03A#32 = .instr (.xor 3 1 2) ∧ encode (.xor 3 1 2) = 0x0886F03A#32 ∧
    after (run 0x0886F03A [(1, 0xF0F0F0F0), (2, 0xFF00FF00)]) 3 = some (0x0FF00FF0, 0x1004, .running, none) := by
  decide

theorem test_nor :
    decode 0x0886303A#32 = .instr (.nor 3 1 2) ∧ encode (.nor 3 1 2) = 0x0886303A#32 ∧
    after (run 0x0886303A [(1, 0xF0F0F0F0), (2, 0xFF00FF00)]) 3 = some (0x000F000F, 0x1004, .running, none) ∧
    after (run 0x0886303A [(1, 0x00000000), (2, 0x00000000)]) 3 = some (0xFFFFFFFF, 0x1004, .running, none) := by
  decide

theorem test_cmpeq :
    decode 0x0887003A#32 = .instr (.cmpeq 3 1 2) ∧ encode (.cmpeq 3 1 2) = 0x0887003A#32 ∧
    after (run 0x0887003A [(1, 0x00000005), (2, 0x00000005)]) 3 = some (0x00000001, 0x1004, .running, none) ∧
    after (run 0x0887003A [(1, 0x00000005), (2, 0x00000006)]) 3 = some (0x00000000, 0x1004, .running, none) := by
  decide

theorem test_cmpne :
    decode 0x0886C03A#32 = .instr (.cmpne 3 1 2) ∧ encode (.cmpne 3 1 2) = 0x0886C03A#32 ∧
    after (run 0x0886C03A [(1, 0x00000005), (2, 0x00000005)]) 3 = some (0x00000000, 0x1004, .running, none) ∧
    after (run 0x0886C03A [(1, 0x00000005), (2, 0x00000006)]) 3 = some (0x00000001, 0x1004, .running, none) := by
  decide

theorem test_cmpge :
    decode 0x0886403A#32 = .instr (.cmpge 3 1 2) ∧ encode (.cmpge 3 1 2) = 0x0886403A#32 ∧
    after (run 0x0886403A [(1, 0xFFFFFFFF), (2, 0x00000000)]) 3 = some (0x00000000, 0x1004, .running, none) ∧
    after (run 0x0886403A [(1, 0x80000000), (2, 0x7FFFFFFF)]) 3 = some (0x00000000, 0x1004, .running, none) := by
  decide

theorem test_cmpgeu :
    decode 0x0887403A#32 = .instr (.cmpgeu 3 1 2) ∧ encode (.cmpgeu 3 1 2) = 0x0887403A#32 ∧
    after (run 0x0887403A [(1, 0xFFFFFFFF), (2, 0x00000000)]) 3 = some (0x00000001, 0x1004, .running, none) ∧
    after (run 0x0887403A [(1, 0x80000000), (2, 0x7FFFFFFF)]) 3 = some (0x00000001, 0x1004, .running, none) := by
  decide

theorem test_cmplt :
    decode 0x0886803A#32 = .instr (.cmplt 3 1 2) ∧ encode (.cmplt 3 1 2) = 0x0886803A#32 ∧
    after (run 0x0886803A [(1, 0x80000000), (2, 0x00000001)]) 3 = some (0x00000001, 0x1004, .running, none) ∧
    after (run 0x0886803A [(1, 0x80000000), (2, 0x7FFFFFFF)]) 3 = some (0x00000001, 0x1004, .running, none) := by
  decide

theorem test_cmpltu :
    decode 0x0887803A#32 = .instr (.cmpltu 3 1 2) ∧ encode (.cmpltu 3 1 2) = 0x0887803A#32 ∧
    after (run 0x0887803A [(1, 0xFFFFFFFF), (2, 0x00000000)]) 3 = some (0x00000000, 0x1004, .running, none) ∧
    after (run 0x0887803A [(1, 0x80000000), (2, 0x7FFFFFFF)]) 3 = some (0x00000000, 0x1004, .running, none) := by
  decide

theorem test_sll :
    decode 0x0886983A#32 = .instr (.sll 3 1 2) ∧ encode (.sll 3 1 2) = 0x0886983A#32 ∧
    after (run 0x0886983A [(1, 0x00000001), (2, 0x0000001F)]) 3 = some (0x80000000, 0x1004, .running, none) ∧
    after (run 0x0886983A [(1, 0x0000FFFF), (2, 0xFFFFFFE4)]) 3 = some (0x000FFFF0, 0x1004, .running, none) := by
  decide

theorem test_srl :
    decode 0x0886D83A#32 = .instr (.srl 3 1 2) ∧ encode (.srl 3 1 2) = 0x0886D83A#32 ∧
    after (run 0x0886D83A [(1, 0x80000000), (2, 0x0000001F)]) 3 = some (0x00000001, 0x1004, .running, none) ∧
    after (run 0x0886D83A [(1, 0x80000000), (2, 0x00000020)]) 3 = some (0x80000000, 0x1004, .running, none) := by
  decide

theorem test_sra :
    decode 0x0887D83A#32 = .instr (.sra 3 1 2) ∧ encode (.sra 3 1 2) = 0x0887D83A#32 ∧
    after (run 0x0887D83A [(1, 0x80000000), (2, 0x0000001F)]) 3 = some (0xFFFFFFFF, 0x1004, .running, none) ∧
    after (run 0x0887D83A [(1, 0xF0000000), (2, 0x00000004)]) 3 = some (0xFF000000, 0x1004, .running, none) := by
  decide

theorem test_rol :
    decode 0x0886183A#32 = .instr (.rol 3 1 2) ∧ encode (.rol 3 1 2) = 0x0886183A#32 ∧
    after (run 0x0886183A [(1, 0x80000001), (2, 0x00000001)]) 3 = some (0x00000003, 0x1004, .running, none) ∧
    after (run 0x0886183A [(1, 0x12345678), (2, 0x00000028)]) 3 = some (0x34567812, 0x1004, .running, none) := by
  decide

theorem test_ror :
    decode 0x0886583A#32 = .instr (.ror 3 1 2) ∧ encode (.ror 3 1 2) = 0x0886583A#32 ∧
    after (run 0x0886583A [(1, 0x80000001), (2, 0x00000001)]) 3 = some (0xC0000000, 0x1004, .running, none) ∧
    after (run 0x0886583A [(1, 0x12345678), (2, 0x00000008)]) 3 = some (0x78123456, 0x1004, .running, none) := by
  decide

theorem test_slli :
    decode 0x0806903A#32 = .instr (.slli 3 1 0) ∧ encode (.slli 3 1 0) = 0x0806903A#32 ∧
    after (run 0x0806903A [(1, 0x80000001)]) 3 = some (0x80000001, 0x1004, .running, none) ∧
    after (run 0x0806907A [(1, 0x80000001)]) 3 = some (0x00000002, 0x1004, .running, none) := by decide

theorem test_srli :
    decode 0x0806D13A#32 = .instr (.srli 3 1 4) ∧ encode (.srli 3 1 4) = 0x0806D13A#32 ∧
    after (run 0x0806D13A [(1, 0xF0000000)]) 3 = some (0x0F000000, 0x1004, .running, none) ∧
    after (run 0x0806D7FA [(1, 0x80000000)]) 3 = some (0x00000001, 0x1004, .running, none) := by decide

theorem test_srai :
    decode 0x0807D13A#32 = .instr (.srai 3 1 4) ∧ encode (.srai 3 1 4) = 0x0807D13A#32 ∧
    after (run 0x0807D13A [(1, 0xF0000000)]) 3 = some (0xFF000000, 0x1004, .running, none) ∧
    after (run 0x0807D7FA [(1, 0x80000000)]) 3 = some (0xFFFFFFFF, 0x1004, .running, none) := by decide

theorem test_roli :
    decode 0x0806123A#32 = .instr (.roli 3 1 8) ∧ encode (.roli 3 1 8) = 0x0806123A#32 ∧
    after (run 0x0806123A [(1, 0x12345678)]) 3 = some (0x34567812, 0x1004, .running, none) ∧
    after (run 0x0806103A [(1, 0x12345678)]) 3 = some (0x12345678, 0x1004, .running, none) := by decide

/-! ### Multiply and divide (spec/43_multiply_divide.md) -/

theorem test_mul :
    decode 0x0887383A#32 = .instr (.mul 3 1 2) ∧ encode (.mul 3 1 2) = 0x0887383A#32 ∧
    after (run 0x0887383A [(1, 0xFFFFFFFF), (2, 0xFFFFFFFF)]) 3 = some (0x00000001, 0x1004, .running, none) ∧
    after (run 0x0887383A [(1, 0x12345678), (2, 0x9ABCDEF0)]) 3 = some (0x242D2080, 0x1004, .running, none) := by
  decide

theorem test_muli :
    decode 0x08FFFF64#32 = .instr (.muli 3 1 0xFFFD) ∧ encode (.muli 3 1 0xFFFD) = 0x08FFFF64#32 ∧
    after (run 0x08FFFF64 [(1, 0x00000005)]) 3 = some (0xFFFFFFF1, 0x1004, .running, none) ∧
    after (run 0x08FFFFE4 [(1, 0x80000000)]) 3 = some (0x80000000, 0x1004, .running, none) := by decide

theorem test_mulxss :
    decode 0x0886F83A#32 = .instr (.mulxss 3 1 2) ∧ encode (.mulxss 3 1 2) = 0x0886F83A#32 ∧
    after (run 0x0886F83A [(1, 0xFFFFFFFF), (2, 0xFFFFFFFF)]) 3 = some (0x00000000, 0x1004, .running, none) ∧
    after (run 0x0886F83A [(1, 0x7FFFFFFF), (2, 0x00000002)]) 3 = some (0x00000000, 0x1004, .running, none) := by
  decide

theorem test_mulxsu :
    decode 0x0886B83A#32 = .instr (.mulxsu 3 1 2) ∧ encode (.mulxsu 3 1 2) = 0x0886B83A#32 ∧
    after (run 0x0886B83A [(1, 0xFFFFFFFF), (2, 0xFFFFFFFF)]) 3 = some (0xFFFFFFFF, 0x1004, .running, none) ∧
    after (run 0x0886B83A [(1, 0xFFFFFFFE), (2, 0x00000003)]) 3 = some (0xFFFFFFFF, 0x1004, .running, none) := by
  decide

theorem test_mulxuu :
    decode 0x0886383A#32 = .instr (.mulxuu 3 1 2) ∧ encode (.mulxuu 3 1 2) = 0x0886383A#32 ∧
    after (run 0x0886383A [(1, 0xFFFFFFFF), (2, 0xFFFFFFFF)]) 3 = some (0xFFFFFFFE, 0x1004, .running, none) ∧
    after (run 0x0886383A [(1, 0xFFFFFFFE), (2, 0x00000003)]) 3 = some (0x00000002, 0x1004, .running, none) := by
  decide

theorem test_div :
    decode 0x0887283A#32 = .instr (.div 3 1 2) ∧ encode (.div 3 1 2) = 0x0887283A#32 ∧
    after (run 0x0887283A [(1, 0xFFFFFFF9), (2, 0xFFFFFFFE)]) 3 = some (0x00000003, 0x1004, .running, none) ∧
    after (run 0x0887283A [(1, 0x80000000), (2, 0xFFFFFFFF)]) 3 = some (0x7FFFFFFF, 0x1004, .running, none) := by
  decide

theorem test_divu :
    decode 0x0887203A#32 = .instr (.divu 3 1 2) ∧ encode (.divu 3 1 2) = 0x0887203A#32 ∧
    after (run 0x0887203A [(1, 0xFFFFFFF9), (2, 0x00000002)]) 3 = some (0x7FFFFFFC, 0x1004, .running, none) ∧
    after (run 0x0887203A [(1, 0x00000005), (2, 0x00000000)]) 3 = some (0xFFFFFFFF, 0x1004, .running, none) := by
  decide

/-! ### System instructions (spec/47_system.md) -/

theorem test_break :
    decode 0x003DA7FA#32 = .instr (.brk 31) ∧ encode (.brk 31) = 0x003DA7FA#32 ∧
    after (run 0x003DA7FA [(30, 0x1111)]) 30 = some (0x1111, 0x1000, .stopped, some .breakpoint) := by decide

theorem test_trap :
    decode 0x003B6FFA#32 = .instr (.trap 31) ∧ encode (.trap 31) = 0x003B6FFA#32 ∧
    after (run 0x003B6FFA [(29, 0x1111)]) 29 = some (0x1111, 0x1000, .stopped, some .breakpoint) := by decide

theorem test_eret :
    decode 0xEF80083A#32 = .instr .eret ∧ encode .eret = 0xEF80083A#32 ∧
    after ((run 0xEF80083A [(29, 0x2000)]).setCtl 1 0xFFFFFFFF) 29 = some (0x2000, 0x2000, .running, none) ∧
    (stepped ((run 0xEF80083A [(29, 0x2000)]).setCtl 1 0xFFFFFFFF)).ctlReg 0 = 0xFFFFFFFF := by decide

/-- Misaligned target and user mode together: the target is tested first (R254). -/
theorem test_eret_order :
    after ((run 0xEF80083A [(29, 0x2002)]).setCtl 0 2) 29 =
      some (0x2002, 0x1000, .stopped, some .misalignedDestinationAddress) := by decide

theorem test_bret :
    decode 0xF03C483A#32 = .instr .bret ∧ encode .bret = 0xF03C483A#32 ∧
    after ((run 0xF03C483A [(30, 0x3000)]).setCtl 2 1) 30 = some (0x3000, 0x3000, .running, none) ∧
    (stepped ((run 0xF03C483A [(30, 0x3000)]).setCtl 2 1)).ctlReg 0 = 1 := by decide

theorem test_rdctl :
    decode 0x000733FA#32 = .instr (.rdctl 3 15) ∧ encode (.rdctl 3 15) = 0x000733FA#32 ∧
    after ((run 0x000733FA []).setCtl 15 0xF0F) 3 = some (0xF0F, 0x1004, .running, none) := by decide

theorem test_wrctl :
    decode 0x0801707A#32 = .instr (.wrctl 1 1) ∧ encode (.wrctl 1 1) = 0x0801707A#32 ∧
    after (run 0x0801707A [(1, 0xCAFE)]) 1 = some (0xCAFE, 0x1004, .running, none) ∧
    (stepped (run 0x0801707A [(1, 0xCAFE)])).ctlReg 1 = 0xCAFE := by decide

/-- `ori r0, r0, 0x0010` with `r4 = 0x107`: the exit code is its low byte (R258). -/
theorem test_exit :
    after (run 0x00000414 [(4, 0x107)]) 4 = some (0x107, 0x1000, .exited, none) ∧
    (stepped (run 0x00000414 [(4, 0x107)])).ec = 7 := by decide

/-- `ori r0, r0, 0x0011` with `r4 = 1`: six bytes from 0x2000 go to the output (R258). -/
theorem test_write :
    (stepped (run 0x00000454 [(4, 1), (5, 0x2000), (6, 6)])).out = [(1, [0x78, 0x56, 0x34, 0x12, 0x80, 0xFF])] := by
  decide

/-! ### Witnesses: concrete states and operands that meet the hypotheses of the statements, clause by clause -/

/-- `DecodeInvertsEncode` and `EncodeInvertsDecode`, at the ends of the operand ranges. -/
theorem witness_encoding :
    WellFormed (.wrctl 15 31) ∧ WellFormed (.rdctl 0 0) ∧ WellFormed (.call 0x3FFFFFF) ∧
    decode 0xF80173FA#32 = .instr (.wrctl 15 31) ∧ decode 0x0001303A#32 = .instr (.rdctl 0 0) := by decide

/-- `RecognitionIsTheOpcodeTable` and `EncoderPacksTheFields`: a word of a row, and a word of no row. -/
theorem witness_recognition :
    0x0887887A#32 &&& Opcode.add.mask = Opcode.add.pattern ∧ fieldOp Opcode.add.pattern = 0x3A#6 ∧
    classify 0x00000013#32 = none := by decide

theorem witness_StepRunsTheDecodedInstruction :
    (run 0x0887883A []).fetchesWord 0x0887883A ∧ decode 0x0887883A#32 = .instr (.add 3 1 2) := by decide

/-- `EnterAndFinishOfAStep`: stopped; running for a single step; running without; not running. -/
theorem witness_EnterAndFinishOfAStep :
    State.reset.es = .stopped ∧ (machine []).es ≠ .stopped ∧
    (({ machine [] with singleStep := true } : State).es = .running ∧
      ({ machine [] with singleStep := true } : State).singleStep = true) ∧
    (machine []).singleStep = false ∧ State.reset.es ≠ .running := by decide

/-- `FetchRule`: a misaligned `pc`; a gap from the first byte, from the last byte; four readable bytes, up to the end of
the section. -/
theorem witness_FetchRule :
    ((machine []).es ≠ .exited ∧ (machine []).hirq = false) ∧ ((machine []).setPc 0x1003).pc.toNat % 4 ≠ 0 ∧
    (∃ j < 4, ((machine []).setPc 0x1010).readableByte fetchAccess (0x1010 + j) = none) ∧
    (let s : State := { machine [] with sections := [⟨"code", 0x1000, 0x1003, ⟨true, false, false, false⟩, 0⟩] }
     s.pc.toNat % 4 = 0 ∧ ∃ j < 4, s.readableByte fetchAccess (s.pc.toNat % 2 ^ 31 + j) = none) ∧
    (run 0x0887883A []).reads fetchAccess ((run 0x0887883A []).pc.toNat % 2 ^ 31) [0x3A, 0x88, 0x87, 0x08] := by
  decide

/-- `DecodeStopsInOrder`: an unrecognised word; a division without its feature; a wrong format with the feature. -/
theorem witness_DecodeStopsInOrder :
    ((run 0x00000013 []).fetchesWord 0x00000013 ∧ classify 0x00000013#32 = none) ∧
    (let s : State := { run 0x0887287A [] with cfg := { Config.illustrated with hasDiv := false } }
     s.fetchesWord 0x0887287A ∧ classify 0x0887287A#32 = some .div ∧ featurePresent s.cfg .div = false) ∧
    ((run 0x0887287A []).fetchesWord 0x0887287A ∧ classify 0x0887287A#32 = some .div ∧
      featurePresent (run 0x0887287A []).cfg .div = true ∧
      0x0887287A#32 &&& Opcode.div.legalMask ≠ Opcode.div.legalMatch) := by decide

theorem witness_InterruptRequestStops :
    ({ machine [] with hirq := true } : State).es ≠ .exited ∧
    ({ machine [] with hirq := true } : State).hirq = true := by
  decide

theorem witness_ExitIsFinal : ({ machine [] with es := .exited } : State).es = .exited := by decide

/-- `SingleStepEndsTheRun` and `RunningHasNoReason`: both answers of the host's argument, from a running machine and from
one that stopped with `StepComplete`. -/
theorem witness_SingleStepEndsTheRun :
    (let s : State := { run 0x0887883A [] with singleStep := true }
     s.noReasonRunning ∧ step s = .next (stepped s) ∧ s.es ≠ .exited ∧ s.singleStep = true) ∧
    (let s : State := { run 0x0887883A [] with es := .stopped, sr := some .stepComplete }
     s.noReasonRunning ∧ step s = .next (stepped s) ∧ s.es ≠ .exited ∧ s.singleStep = false ∧
       (stepped s).es = .running) ∧
    (run 0x0887883A []).noReasonRunning :=
  ⟨⟨by decide, step_of_steps (by decide), by decide⟩, ⟨by decide, step_of_steps (by decide), by decide⟩, by decide⟩

/-- `StopsArePrecise`: a stop that changes nothing, a load that faults (memory unchanged), and a store that faults at its
third byte (two bytes written). -/
theorem witness_StopsArePrecise :
    (let s := run 0x003DA03A []
     step s = .next (stepped s) ∧ (stepped s).es = .stopped ∧ (stepped s).sr = some .breakpoint) ∧
    (let s := run 0x08C00017 [(1, 0x5000)]
     step s = .next (stepped s) ∧ (stepped s).es = .stopped ∧ (stepped s).sr = some .dataAccessFault ∧
       s.fetch = some 0x08C00017 ∧ decode 0x08C00017 = .instr (.ldw 3 1 0) ∧ isStore (.ldw 3 1 0) = false) ∧
    (let s : State := { run 0x08800015 [(1, 0x2000), (2, 5)] with
        sections := [⟨"code", 0x1000, 0x1010, ⟨true, true, false, false⟩, 0⟩,
          ⟨"data", 0x2000, 0x2002, ⟨false, true, false, false⟩, 1⟩] }
     step s = .next (stepped s) ∧ (stepped s).es = .stopped ∧ (stepped s).sr = some .dataAccessFault ∧
       (stepped s).peek 0x2000 ≠ s.peek 0x2000) :=
  ⟨⟨step_of_steps (by decide), by decide⟩, ⟨step_of_steps (by decide), by decide⟩, step_of_steps (by decide), by decide⟩

theorem witness_ResumingStopsAgain :
    let s : State := { run 0x003DA03A [] with es := .stopped }
    s.es = .stopped ∧ s.hirq = false ∧ step s = .next (stepped s) ∧ (stepped s).es = .stopped ∧
      (stepped s).sr = some .breakpoint :=
  ⟨by decide, by decide, step_of_steps (by decide), by decide⟩

/-- `StepKeepsMemoryWellFormed`, `StepKeepsPcAligned`, `OnlyStoresChangeMemory`: a store that changes a byte. -/
theorem witness_step_of_a_store :
    let s := run 0x08800115 [(1, 0x2000), (2, 0xA1B2C3D4)]
    s.wf ∧ s.pcAligned ∧ step s = .next (stepped s) ∧ (stepped s).peek 0x2004 ≠ s.peek 0x2004 :=
  ⟨by decide, by decide, step_of_steps (by decide), by decide⟩

theorem witness_ResetIsWellFormed : Config.illustrated.resetAddr.toNat % 4 = 0 := by decide

/-- `UserModeIsNeverLeft`: `wrctl status, r1` and `addi` in user mode. -/
theorem witness_UserModeIsNeverLeft :
    (let s := (run 0x0801703A [(1, 1)]).setCtl 0 2
     (s.ctlReg 0).getLsbD 1 = true ∧ step s = .next (stepped s) ∧
       (stepped s).sr = some .supervisorOnlyInstruction) ∧
    (let s := (run 0x08C00044 [(1, 1)]).setCtl 0 2
     (s.ctlReg 0).getLsbD 1 = true ∧ step s = .next (stepped s) ∧ (stepped s).x 3 = 2) :=
  ⟨⟨by decide, step_of_steps (by decide), by decide⟩, by decide, step_of_steps (by decide), by decide⟩

/-- `StepKeepsFixedState` and `BaseVariantAlwaysSteps`. -/
theorem witness_StepKeepsFixedState :
    step (run 0x0887883A []) = .next (stepped (run 0x0887883A [])) ∧ (stepped (run 0x0887883A [])).es ≠ .exited ∧
    (run 0x0887883A []).cfg.variant = .base :=
  ⟨step_of_steps (by decide), by decide, by decide⟩

/-- `OutputAndExitOnlyBySyscall`: an exit and a `write`. -/
theorem witness_OutputAndExitOnlyBySyscall :
    (let s := run 0x00000414 [(4, 7)]
     step s = .next (stepped s) ∧ s.es ≠ .exited ∧ (stepped s).es = .exited) ∧
    (let s := run 0x00000454 [(4, 2), (5, 0x2000), (6, 1)]
     step s = .next (stepped s) ∧ (stepped s).out = s.out ++ [(2, [0x78])] ∧ [(2#32, [0x78#8])] ≠ []) :=
  ⟨⟨step_of_steps (by decide), by decide⟩, step_of_steps (by decide), by decide⟩

/-- The legal and the illegal side of `RunsAs`, for each kind of fixed field. -/
theorem witness_RunsAs :
    (0#5 = 0 ∧ 1#5 ≠ 0 ∧ 31#5 ≠ 0) ∧ (formatOk .slli (encodeR 0x12 1 0 3 4) = true ∧
    formatOk .slli (encodeR 0x12 1 1 3 4) = false) ∧
    (formatOk .jmp (encodeR 0x0D 1 0 0 0) = true ∧ formatOk .jmp (encodeR 0x0D 1 0 31 0) = false) ∧
    (formatOk .rdctl (encodeR 0x26 0 0 3 15) = true ∧ formatOk .rdctl (encodeR 0x26 0 0 3 16) = false) := by decide

/-- `FeatureGates`, `MultiplyLow`, `MultiplyHigh`, `Divide`: the flags at both values. -/
theorem witness_features :
    ((machine []).cfg.hasMul = true ∧ (machine []).cfg.hasMulx = true ∧ (machine []).cfg.hasDiv = true) ∧
    (let c := { Config.illustrated with hasMul := false, hasMulx := false, hasDiv := false }
     let s : State := { machine [] with cfg := c }
     s.cfg.hasMul = false ∧ s.cfg.hasMulx = false ∧ s.cfg.hasDiv = false) := by decide

/-- `Divide`: a zero divisor; the two operands of the special result; one operand of it only; ordinary operands. -/
theorem witness_Divide :
    (machine [(1, 7)]).x 2 = 0 ∧
    (let s := machine [(1, 0x80000000), (2, 0xFFFFFFFF)]
     s.x 1 = 0x80000000#32 ∧ s.x 2 = 0xFFFFFFFF#32) ∧
    (let s := machine [(1, 0x80000000), (2, 1)]
     s.x 2 ≠ 0 ∧ ¬ (s.x 1 = 0x80000000#32 ∧ s.x 2 = 0xFFFFFFFF#32)) ∧
    (let s := machine [(1, 7), (2, 0xFFFFFFFF)]
     s.x 2 ≠ 0 ∧ ¬ (s.x 1 = 0x80000000#32 ∧ s.x 2 = 0xFFFFFFFF#32)) := by decide

/-- `OriAndSyscalls`: the ordinary form with one register 0; the `write` with lengths 0 and 8 and each kind of `fd`; a
buffer one byte past the section; an immediate of neither syscall. -/
theorem witness_OriAndSyscalls :
    (¬ ((0 : RegIdx) = 0 ∧ (1 : RegIdx) = 0) ∧ ¬ ((1 : RegIdx) = 0 ∧ (0 : RegIdx) = 0)) ∧
    (machine []).cfg.valid ∧
    (let s := machine [(4, 1), (5, 0x2000), (6, 8)]
     dataBytes.length = (s.x 6).toNat ∧ s.reads dataAccess ((s.x 5).toNat % 2 ^ 31) dataBytes ∧ s.x 4 = 1) ∧
    (let s := machine [(4, 3), (5, 0x9999), (6, 0)]
     ([] : List Byte).length = (s.x 6).toNat ∧ s.reads dataAccess ((s.x 5).toNat % 2 ^ 31) [] ∧ s.x 4 ≠ 1 ∧
     s.x 4 ≠ 2) ∧
    (let s := machine [(4, 2), (5, 0x2000), (6, 9)]
     ∃ j < (s.x 6).toNat, s.readableByte dataAccess ((s.x 5).toNat % 2 ^ 31 + j) = none) ∧
    (0x1234#16 ≠ 0x0010#16 ∧ 0x1234#16 ≠ (machine []).cfg.magicWrite) := by decide

/-- The loads: readable at the last place of the section, misaligned, and past its end by one byte or more. -/
theorem witness_loads :
    (let s := machine [(1, 0x2004)]
     (s.ea 1 0).toNat % 4 = 0 ∧ s.reads dataAccess (lookupAddr (s.ea 1 0)) [0x80, 0xFF, 0x34, 0x92]) ∧
    (let s := machine [(1, 0x2006)]
     (s.ea 1 0).toNat % 2 = 0 ∧ s.reads dataAccess (lookupAddr (s.ea 1 0)) [0x34, 0x92] ∧ (s.ea 1 0).toNat % 4 ≠ 0) ∧
    (let s := machine [(1, 0x2007)]
     s.reads dataAccess (lookupAddr (s.ea 1 0)) [0x92] ∧ (s.ea 1 0).toNat % 2 ≠ 0) ∧
    (let s := machine [(1, 0x2008)]
     s.readableByte dataAccess (lookupAddr (s.ea 1 0)) = none ∧
       ((s.ea 1 0).toNat % 2 = 0 ∧ ∃ j < 2, s.readableByte dataAccess (lookupAddr (s.ea 1 0) + j) = none) ∧
       ((s.ea 1 0).toNat % 4 = 0 ∧ ∃ j < 4, s.readableByte dataAccess (lookupAddr (s.ea 1 0) + j) = none)) := by
  decide

/-- The stores: writable at the last places, misaligned, and a fault at the first byte and at the third. -/
theorem witness_stores :
    (let s := machine [(1, 0x2007)]
     s.writes dataAccess (lookupAddr (s.ea 1 0)) 1 ∧ (s.ea 1 0).toNat % 2 ≠ 0 ∧ (s.ea 1 0).toNat % 4 ≠ 0) ∧
    (let s := machine [(1, 0x2006)]
     (s.ea 1 0).toNat % 2 = 0 ∧ s.writes dataAccess (lookupAddr (s.ea 1 0)) 2) ∧
    (let s := machine [(1, 0x80002004)]
     (s.ea 1 0).toNat % 4 = 0 ∧ s.writes dataAccess (lookupAddr (s.ea 1 0)) 4) ∧
    (let s := machine [(1, 0x3000)]
     (s.ea 1 0).toNat % 4 = 0 ∧ s.writes dataAccess (lookupAddr (s.ea 1 0)) 0 ∧
       s.writable dataAccess (lookupAddr (s.ea 1 0) + 0) = false) ∧
    (let s : State := { machine [(1, 0x2000)] with
        sections := [⟨"data", 0x2000, 0x2002, ⟨false, true, false, false⟩, 1⟩] }
     (s.ea 1 0).toNat % 4 = 0 ∧ s.writes dataAccess (lookupAddr (s.ea 1 0)) 2 ∧
       s.writable dataAccess (lookupAddr (s.ea 1 0) + 2) = false) := by decide

/-- `ConditionalBranches`: each condition true and false, the target aligned and misaligned. -/
theorem witness_ConditionalBranches :
    (let s := machine [(1, 5), (2, 5)]
     (s.x 1).toNat = (s.x 2).toNat ∧ (s.x 2).toInt ≤ (s.x 1).toInt ∧ (s.x 2).toNat ≤ (s.x 1).toNat ∧
       ¬ (s.x 1).toInt < (s.x 2).toInt ∧ ¬ (s.x 1).toNat < (s.x 2).toNat) ∧
    (let s := machine [(1, 0x80000000), (2, 0x7FFFFFFF)]
     (s.x 1).toNat ≠ (s.x 2).toNat ∧ (s.x 1).toInt < (s.x 2).toInt ∧ ¬ (s.x 2).toInt ≤ (s.x 1).toInt ∧
       ¬ (s.x 1).toNat < (s.x 2).toNat) ∧
    (let s := machine [(1, 0x7FFFFFFF), (2, 0x80000000)]
     (s.x 1).toNat < (s.x 2).toNat ∧ ¬ (s.x 2).toNat ≤ (s.x 1).toNat) ∧
    (branchGoal (machine []) 0x7FFC).toNat % 4 = 0 ∧ (branchGoal (machine []) 0x8000).toNat % 4 = 0 ∧
    (branchGoal (machine []) 0x7FFF).toNat % 4 ≠ 0 := by decide

/-- `UnlinkedTransfers` and `CallsAndJumps`: an aligned and a misaligned register, the target of the highest IMM26. -/
theorem witness_transfers :
    ((machine [(1, 0xFFFFFFFC)]).x 1).toNat % 4 = 0 ∧ ((machine [(1, 0xFFFFFFFF)]).x 1).toNat % 4 ≠ 0 ∧
    ((machine [(31, 0x2004)]).x 31).toNat % 4 = 0 ∧ ((machine [(31, 0x2006)]).x 31).toNat % 4 ≠ 0 ∧
    (0x3FFFFFFC#32).toNat = ((machine []).setPc 0x30001000).pc.toNat / 2 ^ 28 * 2 ^ 28 + 4 * (0x3FFFFFF#26).toNat := by
  decide

/-- `Returns`: supervisor and user mode with an aligned target, and a misaligned target. -/
theorem witness_Returns :
    (let s := machine [(29, 0x2000), (30, 0x2004)]
     (s.x 29).toNat % 4 = 0 ∧ (s.x 30).toNat % 4 = 0 ∧ (s.ctlReg 0).getLsbD 1 = false) ∧
    (let s := (machine [(29, 0x2000), (30, 0x2004)]).setCtl 0 2
     (s.x 29).toNat % 4 = 0 ∧ (s.x 30).toNat % 4 = 0 ∧ (s.ctlReg 0).getLsbD 1 = true) ∧
    (let s := machine [(29, 0x2002), (30, 0x2003)]
     (s.x 29).toNat % 4 ≠ 0 ∧ (s.x 30).toNat % 4 ≠ 0) := by decide

/-- `ControlRegisterAccess`: an ordinary register, a fixed one, and user mode. -/
theorem witness_ControlRegisterAccess :
    ((machine []).ctlReg 0).getLsbD 1 = false ∧ ((15 : Fin 16) ≠ 4 ∧ (15 : Fin 16) ≠ 5) ∧ ((3 : Fin 16) ≠ 4 ∧
    (3 : Fin 16) ≠ 5) ∧
    ((5 : Fin 16) = 4 ∨ (5 : Fin 16) = 5) ∧ (((machine []).setCtl 0 2).ctlReg 0).getLsbD 1 = true := by decide

/-- `MemoryPrimitives`: whole and short transfers, reading and writing, at the ends of the sections. -/
theorem witness_MemoryPrimitives :
    (machine []).wf ∧ (machine []).memRead 0x2004 4 dataAccess = [0x80, 0xFF, 0x34, 0x92] ∧
    (machine []).memRead 0x2006 4 dataAccess = [0x34, 0x92] ∧ (machine []).memRead 0x2000 4 fetchAccess = [] ∧
    ((machine []).memWrite 0x2006 [1, 2, 3] dataAccess).2 = 2 ∧ ((machine []).memWrite 0x3000 [1] dataAccess).2 = 0 ∧
    ((machine []).memWrite 0x2006 [1, 2, 3] dataAccess).1.peek 0x2007 = some 2 := by decide

/-- `UpperHalfIsAnAlias`: both ends of the range, and the first address of the upper half. -/
theorem witness_UpperHalfIsAnAlias : 0 < 2 ^ 31 ∧ 2 ^ 31 - 1 < 2 ^ 31 ∧ 2 ^ 31 ≤ 2 ^ 31 := by decide

/-- `LittleEndian`: a writable aligned word and its last byte. -/
theorem witness_LittleEndian :
    (3 < (bytesLe 0x12345678 4).length) ∧ (0x2004#32).toNat % 4 = 0 ∧ 3 < 4 ∧
    (machine []).writes dataAccess (lookupAddr 0x2004) 4 := by decide

/-- `FetchSeesTheStore`: a store into the last word of the code, and the fetch there. -/
theorem witness_FetchSeesTheStore :
    let s := machine [(1, 0x100C), (2, 0x0887883A)]
    (s.ea 1 0).toNat % 4 = 0 ∧ s.writes dataAccess (lookupAddr (s.ea 1 0)) 4 ∧
      ∀ j < 4, (s.readableByte fetchAccess (lookupAddr (s.ea 1 0) + j)).isSome = true := by decide

/-- `HostRegisterAccess`: a stopped machine of the base variant, and the indices just outside the map. -/
theorem witness_HostRegisterAccess :
    State.reset.cfg.variant = .base ∧ State.reset.es ≠ .running ∧ ((-1 : Int) < 0 ∨ 49 ≤ (-1 : Int)) ∧
    ((49 : Int) < 0 ∨ 49 ≤ (49 : Int)) ∧ readRegister State.reset 38 = some 0x2A ∧
    readRegister State.reset 49 = none := by
  decide

/-- `AddMemory`: accepted up to 2^32, and each of the three refusals. -/
theorem witness_AddMemory :
    let s : State := { machine [] with es := .stopped }
    let f : SectionFlags := ⟨true, true, false, false⟩
    (s.es ≠ .running ∧ s.wf) ∧ (addMemory s "top" 0xFFFFFFF0 f [1] 16).isSome = true ∧
    (addMemory s "next" 0x2008 f [1, 2, 3] 2).isSome = true ∧
    ((0 : Nat) = 0 ∧ addMemory s "empty" 0x5000 f [] 0 = none) ∧
    (2 ^ 32 < 0xFFFFFFF0 + 17 ∧ addMemory s "wrap" 0xFFFFFFF0 f [] 17 = none) ∧
    ((∃ u ∈ s.sections, u.covers 0x2007 = true) ∧ addMemory s "meets" 0x2007 f [] 1 = none) := by decide

/-- `HostReset`: running and not. -/
theorem witness_HostReset : (machine []).es = .running ∧ State.reset.es ≠ .running := by decide

/-! ### The dpx decoder on its parameters, and the host's call -/

/-- A layout whose `I16` format has a 16-bit signed immediate at bits 21 to 6 and a 7-bit register A in two parts, and
whose discriminator is the bits 1 to 0. -/
def testLayout : DpxLayout :=
  let p := Config.illustratedPlaces
  { Config.illustrated.dpxLayout with
    disc := ⟨1, 0⟩, formats := [(2, .i16)]
    i16 := { p with imm16 := ⟨[⟨21, 6⟩], true⟩, imm12 := ⟨[⟨21, 6⟩], false⟩, a := ⟨[⟨31, 27⟩, ⟨5, 4⟩], false⟩ } }

/-- The same with the discriminator's range upside down. -/
def flippedLayout : DpxLayout := { testLayout with disc := ⟨0, 1⟩ }

/-- The layouts meet the constraint of R119; one range upside down does not. -/
theorem test_layout_valid :
    Config.illustrated.dpxLayout.valid ∧ testLayout.valid ∧ ¬ flippedLayout.valid := by
  decide

/-- By hand from R119 and R120: dispatch on bits 1 to 0, then the place, extended or concatenated. -/
theorem test_dpxField :
    dpxField testLayout .imm16 0xF83FFC32 = 0xFFFFFFF0 ∧ dpxField testLayout .a 0xF83FFC32 = 0x7F ∧
    dpxField testLayout .imm16 0xF83FFC31 = 1 := by decide

/-- `DpxDecoding`: an unsigned, a signed and a concatenated place, and a table of two disjoint rows. -/
theorem witness_DpxDecoding :
    (let w : Word := 0xF83FFC32
     dpxPosition testLayout (dpxFormat testLayout w) .imm12 = ⟨[⟨21, 6⟩], false⟩ ∧
     dpxPosition testLayout (dpxFormat testLayout w) .imm16 = ⟨[⟨21, 6⟩], true⟩ ∧
     dpxPosition testLayout (dpxFormat testLayout w) .a = ⟨[⟨31, 27⟩, ⟨5, 4⟩], false⟩ ∧
     (6 : Fin 32) ≤ 21 ∧ (27 : Fin 32) ≤ 31 ∧ (4 : Fin 32) ≤ 5 ∧
     (BitRange.mk 31 27).width + (BitRange.mk 5 4).width ≤ 32) ∧
    (let c : Cfg := { Config.illustrated with
        dpxOptable := [⟨.brk, 1, 0x3F, 0, 0, []⟩, ⟨.trap, 2, 0x3F, 0, 0, []⟩] }
     c.dpxRowsDisjoint ∧ dpxClassify c 0x42 = some ⟨.trap, 2, 0x3F, 0, 0, []⟩ ∧ dpxClassify c 0x43 = none) := by decide

/-- `step_or_run` while the machine runs is refused (U8, log 13); a stopped machine runs to the `break` at 0x1000. -/
theorem test_stepOrRun :
    (stepOrRun false 1 (machine [])).isNone = true ∧
    (stepOrRun false 1 { run 0x003DA03A [] with es := .stopped }).isSome = true := by decide

end Sys2Proof.Tests
end

namespace Sys2Proof.Machine

/-! ## The state's own families (spec/10_state.md): the frames of an effect and of a step, the host's registers, reset -/

/-! ### What a store leaves unchanged -/

/-- `MemWrite` changes the listed bytes alone. -/
theorem WroteBytes.eq_withMem {acc : Access} {lo : Nat} {bs : List Byte} {s : State} {r : State × Nat}
    (w : WroteBytes acc lo bs s r) : r.1 = { s with mem := r.1.mem } := by
  obtain ⟨m, hm⟩ := w.only
  rw [hm]

section
variable {acc : Access} {lo : Nat} {bs : List Byte} {s : State} {r : State × Nat} (w : WroteBytes acc lo bs s r)
include w

theorem WroteBytes.ctlReg (n : Fin 16) : r.1.ctlReg n = s.ctlReg n := by rw [w.eq_withMem]; rfl
theorem WroteBytes.out : r.1.out = s.out := by rw [w.eq_withMem]
theorem WroteBytes.pc : r.1.pc = s.pc := by rw [w.eq_withMem]
theorem WroteBytes.sameRun : SameRun s r.1 := by rw [w.eq_withMem]; exact ⟨rfl, rfl, rfl⟩
theorem WroteBytes.sameBlock : SameBlock s r.1 := by rw [w.eq_withMem]; exact ⟨rfl, rfl, rfl, rfl, rfl, rfl⟩

end

/-! ### What an effect of an instruction changes, one part of the state at a time -/

section
variable {i : Instr} {s u : State}

/-- No instruction moves `pc` off the multiples of 4 (R25, R230). -/
theorem Effect.pcAligned (e : Effect i s u) (h : s.pcAligned) : u.pcAligned := by
  cases e with
  | stop r _ _ => exact h
  | write d v p hp => exact hp h
  | writeCtl n v p _ _ hp => exact hp h
  | output bs _ _ => exact next_aligned s.pc h
  | exit _ => exact h
  | store _ acc _ lo bs r w => exact next_aligned s.pc h
  | storeFault _ acc _ lo bs r w =>
    show r.1.pc.toNat % 4 = 0
    rw [w.pc]; exact h

/-- No instruction writes `ipending` or `cpuid` (R29). -/
theorem Effect.ctlReg_fixed (e : Effect i s u) {n : Fin 16} (hn : n = 4 ∨ n = 5) : u.ctlReg n = s.ctlReg n := by
  cases e with
  | writeCtl k v p hk _ _ =>
    have hne : n ≠ k := by rcases hn with rfl | rfl; exacts [hk.1.symm, hk.2.symm]
    simp [State.ctlReg_setCtl, hne]
  | stop r _ _ => rfl
  | write d v p _ => simp
  | output bs _ _ => rfl
  | exit _ => rfl
  | store _ acc _ lo bs r w => exact w.ctlReg n
  | storeFault _ acc _ lo bs r w => exact w.ctlReg n

/-- The sections, the request, the configuration, the dpx file and the model's own fields are no instruction's to write. -/
theorem Effect.sameBlock (e : Effect i s u) : SameBlock s u := by
  cases e with
  | store _ acc _ lo bs r w => exact w.sameBlock
  | storeFault _ acc _ lo bs r w => exact w.sameBlock
  | write d v p _ => exact (setX_setPc_spec d v p s).block
  | writeCtl n v p _ _ _ => exact (setCtl_setPc_spec n v p s).block
  | stop r _ _ => exact ⟨rfl, rfl, rfl, rfl, rfl, rfl⟩
  | output bs _ _ => exact ⟨rfl, rfl, rfl, rfl, rfl, rfl⟩
  | exit _ => exact ⟨rfl, rfl, rfl, rfl, rfl, rfl⟩

/-- How an instruction leaves the execution state (R134): as it was, stopped for a reason of an instruction, or exited
by the `_exit` syscall. -/
theorem Effect.run_cases (e : Effect i s u) :
    SameRun s u ∨
      (∃ r, r ≠ .stepComplete ∧ u.es = .stopped ∧ u.sr = some r ∧ u.ec = s.ec) ∨
      (i = .ori 0 0 Config.magicExit ∧ Exited ((s.x 4).setWidth 8) s u) := by
  cases e with
  | stop r h _ => exact .inr (.inl ⟨r, h, rfl, rfl, rfl⟩)
  | storeFault _ acc _ lo bs r w =>
    obtain ⟨_, _, hec⟩ := w.sameRun
    exact .inr (.inl ⟨_, by decide, rfl, rfl, hec⟩)
  | exit hi =>
    exact .inr (.inr ⟨hi, rfl, rfl, rfl, rfl, fun _ => rfl, fun _ => rfl, fun p => State.peek_congr rfl rfl p, rfl,
      rfl, rfl, rfl, rfl, rfl, rfl⟩)
  | store _ acc _ lo bs r w => exact .inl w.sameRun
  | write d v p _ => exact .inl (setX_setPc_spec d v p s).run
  | writeCtl n v p _ _ _ => exact .inl (setCtl_setPc_spec n v p s).run
  | output bs _ _ => exact .inl ⟨rfl, rfl, rfl⟩

/-- The output trace is as it was, or the `write` syscall on file descriptor 1 or 2 appended one pair (R34, R258). -/
theorem Effect.out_cases (e : Effect i s u) :
    u.out = s.out ∨
      (∃ bs, u.out = s.out ++ [(s.x 4, bs)]) ∧ i = .ori 0 0 s.cfg.magicWrite ∧ (s.x 4 = 1 ∨ s.x 4 = 2) := by
  cases e with
  | output bs hi h4 => exact .inr ⟨⟨bs, rfl⟩, hi, h4⟩
  | store _ acc _ lo bs r w => exact .inl w.out
  | storeFault _ acc _ lo bs r w => exact .inl w.out
  | write d v p _ => exact .inl (setX_setPc_spec d v p s).out
  | writeCtl n v p _ _ _ => exact .inl (setCtl_setPc_spec n v p s).out
  | stop r _ _ => exact .inl rfl
  | exit _ => exact .inl rfl

end

/-! ### The end of an iteration and the interrupt request, field by field -/

section
variable (s : State)

theorem finishStep_eq : finishStep s = { s with es := (finishStep s).es, sr := (finishStep s).sr } := by
  unfold finishStep; split <;> rfl

@[simp] theorem finishStep_pc : (finishStep s).pc = s.pc := by rw [finishStep_eq]
@[simp] theorem finishStep_ctl : (finishStep s).ctl = s.ctl := by rw [finishStep_eq]
@[simp] theorem finishStep_dpxRegs : (finishStep s).dpxRegs = s.dpxRegs := by rw [finishStep_eq]
@[simp] theorem finishStep_ec : (finishStep s).ec = s.ec := by rw [finishStep_eq]
@[simp] theorem finishStep_sections : (finishStep s).sections = s.sections := by rw [finishStep_eq]
@[simp] theorem finishStep_out : (finishStep s).out = s.out := by rw [finishStep_eq]
@[simp] theorem finishStep_cfg : (finishStep s).cfg = s.cfg := by rw [finishStep_eq]
@[simp] theorem ctlReg_finishStep (n : Fin 16) : (finishStep s).ctlReg n = s.ctlReg n := by
  unfold State.ctlReg; rw [finishStep_ctl]

@[simp] theorem interruptedState_pc : (interruptedState s).pc = s.pc := enter_pc s
@[simp] theorem interruptedState_dpxRegs : (interruptedState s).dpxRegs = s.dpxRegs := enter_dpxRegs s
@[simp] theorem interruptedState_ec : (interruptedState s).ec = s.ec := enter_ec s
@[simp] theorem interruptedState_sections : (interruptedState s).sections = s.sections := enter_sections s
@[simp] theorem interruptedState_out : (interruptedState s).out = s.out := enter_out s
@[simp] theorem interruptedState_cfg : (interruptedState s).cfg = s.cfg := enter_cfg s
@[simp] theorem ctlReg_interruptedState (n : Fin 16) : (interruptedState s).ctlReg n = s.ctlReg n := ctlReg_enter s n
@[simp] theorem interruptedState_es : (interruptedState s).es = .stopped := rfl
@[simp] theorem interruptedState_sr : (interruptedState s).sr = some .interrupted := rfl

variable {s}

/-- The end of an iteration neither makes nor unmakes an exit. -/
theorem finishStep_es_exited_iff : (finishStep s).es = .exited ↔ s.es = .exited := by
  rcases finishStep_cases s with ⟨h, _⟩ | ⟨h, hr, _⟩
  · rw [h]
  · rw [h, hr]; simp

theorem finishStep_of_not_running (h : s.es ≠ .running) : finishStep s = s := by
  rcases finishStep_cases s with ⟨h', _⟩ | ⟨_, hr, _⟩
  · exact h'
  · exact absurd hr h

theorem finishStep_of_not_singleStep (h : s.singleStep = false) : finishStep s = s := by
  rcases finishStep_cases s with ⟨h', _⟩ | ⟨_, _, hs⟩
  · exact h'
  · rw [h] at hs; cases hs

/-- With a single step asked for, no iteration ends running (R132). -/
theorem finishStep_es_of_singleStep (h : s.singleStep = true) : (finishStep s).es ≠ .running := by
  rcases finishStep_cases s with ⟨h', hr | hs⟩ | ⟨h', _⟩
  · rw [h']; exact hr
  · rw [h] at hs; cases hs
  · rw [h']; simp

/-- Where an iteration ends running, its end changed nothing. -/
theorem finishStep_of_running (h : (finishStep s).es = .running) : finishStep s = s := by
  rcases finishStep_cases s with ⟨h', _⟩ | ⟨h', _⟩
  · exact h'
  · rw [h'] at h; cases h

/-- Entering clears the reason (R131), so after it none is pending. -/
theorem enter_sr_none (hn : s.noReasonRunning) (he : s.es ≠ .exited) : (enter s).sr = none := by
  unfold enter
  split
  case h_1 => rfl
  case h_2 hr => exact hn hr
  case h_3 hx => exact absurd hx he

end

/-- The reason after an effect on an entered machine is not `StepComplete`: an instruction never stops with it. -/
theorem Effect.sr_ne_stepComplete {i : Instr} {s u : State} (e : Effect i s u) (h : s.sr = none) :
    u.sr ≠ some .stepComplete := by
  rcases e.run_cases with ⟨_, hsr, _⟩ | ⟨r, hr, _, hsr, _⟩ | ⟨_, hx⟩
  · rw [hsr, h]; simp
  · rw [hsr]; simpa using hr
  · rw [hx.sr, h]; simp

/-! ### The word of a syscall -/

/-- Only `OP` 0x14 is `ori` (R87). -/
theorem classify_eq_ori {w : Word} (h : classify w = some .ori) : (fieldOp w).toNat = 0x14 := by
  have hop : ∀ x : BitVec 6, classifyOp x.toNat = some .ori → x.toNat = 0x14 := by decide
  have hopx : ∀ x : BitVec 6, classifyOpx x.toNat ≠ some .ori := by decide
  unfold classify at h
  split at h
  · exact absurd h (hopx _)
  · exact hop _ h

/-- The instruction of a row is of that row. -/
theorem opcode_operands (o : Opcode) (w : Word) : (operands o w).opcode = o := by
  cases o <;> rfl

/-- A decoded word matched the row of its instruction and holds its operands. -/
theorem classify_of_decode {w : Word} {i : Instr} (h : decode w = .instr i) :
    classify w = some i.opcode ∧ operands i.opcode w = i := by
  unfold decode at h
  split at h
  · cases h
  · rename_i o ho
    split at h
    · injection h with h
      rw [← h, opcode_operands]
      exact ⟨ho, rfl⟩
    · cases h

/-- A word that decodes to `ori` is the word of that instruction: the I-type fields leave no bit over. -/
theorem encode_of_decode_ori {w : Word} {b a : RegIdx} {imm16 : BitVec 16} (h : decode w = .instr (.ori b a imm16)) :
    encode (.ori b a imm16) = w := by
  obtain ⟨hc, hops⟩ := classify_of_decode h
  rw [← hops]
  show encodeI 0x14 (fieldA w) (fieldB w) (fieldImm16 w) = w
  rw [← classify_eq_ori hc]
  exact packI w

/-! ### Output and exit over a step -/

section
variable {s t : State} (h : step s = .next t)
include h

/-- A step leaves the output trace, or runs the `write` syscall, which appends one pair. -/
theorem step_out_cases :
    t.out = s.out ∨
      (∃ bs, t.out = s.out ++ [(s.x 4, bs)]) ∧ s.fetch = some (encode (.ori 0 0 s.cfg.magicWrite)) ∧
        (s.x 4 = 1 ∨ s.x 4 = 2) := by
  rcases step_cases h with ⟨_, rfl⟩ | ⟨_, _, rfl⟩ | ⟨_, _, r, _, _, rfl⟩ | ⟨_, _, w, i, u, hw, hi, _, _, heff, rfl⟩
  · exact .inl rfl
  · exact .inl (interruptedState_out s)
  · exact .inl (enter_out s)
  · rcases heff.out_cases with hout | ⟨⟨bs, hout⟩, rfl, hfd⟩
    · exact .inl (by simpa using hout)
    · rw [enter_cfg] at hi
      exact .inr ⟨⟨bs, by simpa using hout⟩, by rw [hw, encode_of_decode_ori hi], by simpa using hfd⟩

/-- A step that exits ran the `_exit` syscall: its word is `ori r0, r0, MAGIC_EXIT`. -/
theorem step_exits (he : s.es ≠ .exited) (hexit : t.es = .exited) :
    s.fetch = some (encode (.ori 0 0 Config.magicExit)) ∧ t.ec = (s.x 4).setWidth 8 ∧ t.pc = s.pc := by
  rcases step_cases h with ⟨hx, _⟩ | ⟨_, _, rfl⟩ | ⟨_, _, r, _, _, rfl⟩ | ⟨_, _, w, i, u, hw, hi, _, _, heff, rfl⟩
  · exact absurd hx he
  · cases hexit
  · cases hexit
  · rw [finishStep_es_exited_iff] at hexit
    rcases heff.run_cases with ⟨hes, _⟩ | ⟨_, _, hes, _⟩ | ⟨rfl, hx⟩
    · rw [hes, enter_running s he] at hexit; cases hexit
    · rw [hes] at hexit; cases hexit
    · exact ⟨by rw [hw, encode_of_decode_ori hi], by simpa using hx.ec, by simpa using hx.pc⟩

end

/-! ### Host register access (R35): the index map of the base variant (R21) -/

section
variable {s : State}

theorem State.hostHasControl_iff : s.hostHasControl = true ↔ s.es ≠ .running := by
  simp [State.hostHasControl]

/-- A host read at an index of 0 or more goes to the place of the index. -/
theorem readRegister_natCast (h : s.es ≠ .running) (n : Nat) :
    readRegister s n = (regPlace s.cfg n).map s.readPlace := by
  simp [readRegister, State.hostHasControl_iff.2 h]

theorem writeRegister_natCast (h : s.es ≠ .running) (n : Nat) (v : Word) :
    writeRegister s n v = (regPlace s.cfg n).map (s.writePlace v) := by
  simp [writeRegister, State.hostHasControl_iff.2 h]

/-- A negative index is refused. -/
theorem registerAccess_of_neg {i : Int} (h : i < 0) (v : Word) :
    readRegister s i = none ∧ writeRegister s i v = none := by
  simp [readRegister, writeRegister, Int.not_le.2 h]

theorem State.setPc_pc_self (s : State) : s.setPc s.pc = s := rfl

theorem setX_spec (d : RegIdx) (v : Word) (s : State) : Wrote d v s.pc s (s.setX d v) := by
  have h : (s.setX d v).setPc s.pc = s.setX d v := by rw [← State.setX_pc s d v, State.setPc_pc_self]
  exact h ▸ setX_setPc_spec d v s.pc s

theorem setCtl_spec (n : Fin 16) (v : Word) (s : State) : WroteCtl n v s.pc s (s.setCtl n v) :=
  setCtl_setPc_spec n v s.pc s

end

section
variable {c : Cfg} (hc : c.variant = .base)
include hc

theorem regPlace_base_zero : regPlace c 0 = some .zero := by
  unfold regPlace; rw [hc]; rfl

theorem regPlace_base_general {i : RegIdx} (hi : i ≠ 0) : regPlace c i.toNat = some (.general i) := by
  unfold regPlace
  rw [hc]
  have hne : i.toNat ≠ 0 := fun e => hi (BitVec.eq_of_toNat_eq e)
  simp [hne, i.isLt]

theorem regPlace_base_pc : regPlace c 32 = some .pc := by
  unfold regPlace; rw [hc]; rfl

theorem regPlace_base_ctl (n : Fin 16) : regPlace c (33 + n.val) = some (.ctl n) := by
  unfold regPlace
  rw [hc]
  have h1 : ¬ 33 + n.val < 32 := by omega
  have h2 : 33 + n.val ≠ 32 := by omega
  simp [h1, h2]

theorem regPlace_base_none {i : Nat} (h : 49 ≤ i) : regPlace c i = none := by
  unfold regPlace
  rw [hc]
  have h0 : i ≠ 0 := by omega
  have h1 : ¬ i < 32 := by omega
  have h2 : i ≠ 32 := by omega
  have h3 : ¬ i - 33 < 16 := by omega
  simp [h0, h1, h2, h3]

end

section
variable {s : State} (hc : s.cfg.variant = .base) (he : s.es ≠ .running)
include hc he

theorem readRegister_general (i : RegIdx) : readRegister s i.toNat = some (s.x i) := by
  rw [readRegister_natCast he]
  by_cases hi : i = 0
  · subst hi
    show (regPlace s.cfg 0).map s.readPlace = _
    rw [regPlace_base_zero hc]; rfl
  · rw [regPlace_base_general hc hi]; rfl

/-- The write of `x[0]` is discarded by `setX` (R23), as the zero place discards it. -/
theorem writeRegister_general (i : RegIdx) (v : Word) : writeRegister s i.toNat v = some (s.setX i v) := by
  rw [writeRegister_natCast he]
  by_cases hi : i = 0
  · subst hi
    show (regPlace s.cfg 0).map (s.writePlace v) = _
    rw [regPlace_base_zero hc]; rfl
  · rw [regPlace_base_general hc hi]; rfl

theorem readRegister_pc : readRegister s 32 = some s.pc := by
  rw [show (32 : Int) = (32 : Nat) from rfl, readRegister_natCast he, regPlace_base_pc hc]; rfl

theorem writeRegister_pc (v : Word) : writeRegister s 32 v = some (s.setPc v) := by
  rw [show (32 : Int) = (32 : Nat) from rfl, writeRegister_natCast he, regPlace_base_pc hc]; rfl

theorem readRegister_ctl (n : Fin 16) : readRegister s (33 + n.val) = some (s.ctlReg n) := by
  rw [show (33 + n.val : Int) = (33 + n.val : Nat) by simp, readRegister_natCast he, regPlace_base_ctl hc]; rfl

theorem writeRegister_ctl (n : Fin 16) (v : Word) : writeRegister s (33 + n.val) v = some (s.setCtl n v) := by
  rw [show (33 + n.val : Int) = (33 + n.val : Nat) by simp, writeRegister_natCast he, regPlace_base_ctl hc]; rfl

theorem registerAccess_of_ge {i : Int} (h : 49 ≤ i) (v : Word) :
    readRegister s i = none ∧ writeRegister s i v = none := by
  obtain ⟨n, rfl⟩ := Int.eq_ofNat_of_zero_le (show 0 ≤ i by omega)
  rw [readRegister_natCast he, writeRegister_natCast he, regPlace_base_none hc (by omega)]
  exact ⟨rfl, rfl⟩

end

/-! ### A step that stops before the word runs -/

section
variable {s : State}

theorem fetch_of_no_sections (h : s.sections = []) : s.fetch = none := by
  have hread : s.readableByte fetchAccess (lookupAddr s.pc) = none := by
    simp [State.readableByte, State.sectAt, h]
  have hempty : s.memRead s.pc 4 fetchAccess = [] := by
    show s.readFrom _ (lookupAddr s.pc) (3 + 1) = []
    unfold State.readFrom
    rw [State.readableByte_effective, hread]
  simp [State.fetch, hempty]

theorem peek_of_no_sections (h : s.sections = []) (p : Nat) : s.peek p = none := by
  simp [State.peek, State.sectAt, h]

/-- The stop that a machine without memory meets: the alignment of `pc` is tested before the fetch (R135, R302). -/
theorem stepInstr_of_no_sections (h : s.sections = []) :
    stepInstr s = stopWith
      (if s.pc.toNat % 4 = 0 then .instructionAccessFault else .misalignedDestinationAddress) s := by
  unfold stepInstr
  simp only [fetch_of_no_sections h, wordAligned_iff]
  split <;> rfl

/-- An instruction that stops ends the step in that stop. -/
theorem step_of_stepInstr_stop (he : s.es ≠ .exited) (hq : s.hirq = false) {r : StopReason}
    (h : stepInstr (enter s) = stopWith r (enter s)) : step s = .next ((enter s).raiseStop r) := by
  rw [step_of_stepInstr he hq, h]
  show Host.Outcome.next (finishStep ((enter s).raiseStop r)) = _
  rw [finishStep_of_not_running (by simp)]

theorem enter_raiseStop_spec (r : StopReason) (s : State) : Stopped r s ((enter s).raiseStop r) :=
  ⟨rfl, rfl, by simp, by simp, fun _ => by simp, fun _ => by simp, fun _ => by simp, by simp,
    by simp, by simp, by simp, by simp, by simp, by simp⟩

end

/-! ### Reset (R36, R300, R302) -/

section
variable (cfg : Cfg) (single : Bool) (n : Nat)

/-- Every control register is 0 after reset but `cpuid` (R36; log 1 for those R36 leaves unspecified). -/
@[simp] theorem State.ctlReg_resetOf (k : Fin 16) :
    (State.resetOf cfg single n).ctlReg k = if k = 5 then cfg.cpuid else 0 := by
  simp [State.ctlReg, State.resetOf, Vector.getElem_set, Fin.ext_iff, eq_comm]

theorem State.resetOf_wf : (State.resetOf cfg single n).wf :=
  ⟨⟨List.Pairwise.nil, fun _ h => by cases h⟩, State.resetOf_mem_wf cfg single n, fun _ h => by cases h⟩

theorem State.resetOf_noReasonRunning : (State.resetOf cfg single n).noReasonRunning := fun _ => rfl

/-- The first step after reset stops at the fetch, there being no memory (R302). -/
theorem step_resetOf :
    ∃ u, step (State.resetOf cfg single n) = .next u ∧
      Stopped (if cfg.resetAddr.toNat % 4 = 0 then .instructionAccessFault else .misalignedDestinationAddress)
        (State.resetOf cfg single n) u :=
  ⟨_, step_of_stepInstr_stop ExecState.noConfusion rfl (stepInstr_of_no_sections rfl), enter_raiseStop_spec _ _⟩

end

theorem hostReset_running {s : State} (h : s.es = .running) : hostReset s = none := by
  simp [hostReset, State.hostHasControl, h]

theorem hostReset_of_control {s : State} (h : s.es ≠ .running) :
    hostReset s = some (State.resetOf s.cfg s.singleStep s.freeCtr) := by
  simp [hostReset, State.hostHasControl_iff.2 h]

end Sys2Proof.Machine

namespace Sys2Proof.Proofs

/-! ## The statements of spec/10_state.md, settled -/

open Sys2Proof.Machine

/-- Settles O19: an instruction keeps `pc` aligned (`Effect.pcAligned`), and nothing else of a step writes it. -/
theorem stepKeepsPcAligned : Obligations.StepKeepsPcAligned := by
  intro s t hs h
  have henter : (enter s).pcAligned := by simpa [State.pcAligned] using hs
  rcases step_cases h with ⟨_, rfl⟩ | ⟨_, _, rfl⟩ | ⟨_, _, r, _, _, rfl⟩ | ⟨_, _, w, i, u, _, _, _, _, heff, rfl⟩
  · exact hs
  · simpa [State.pcAligned] using hs
  · exact henter
  · simpa [State.pcAligned] using heff.pcAligned henter

/-- Settles O14: only the end of an iteration stops with `StepComplete`, and it does so for a single step alone. -/
theorem singleStepEndsTheRun : Obligations.SingleStepEndsTheRun := by
  intro s t hn h he
  rcases step_cases h with ⟨hx, _⟩ | ⟨_, _, rfl⟩ | ⟨_, _, r, hr, _, rfl⟩ | ⟨_, _, w, i, u, _, _, _, _, heff, rfl⟩
  · exact absurd hx he
  · simp
  · simpa using fun _ => hr
  · obtain ⟨_, _, _, _, hsingle, _⟩ := heff.sameBlock
    rw [enter_singleStep] at hsingle
    constructor
    · intro h1
      exact finishStep_es_of_singleStep (hsingle.trans h1)
    · intro h0
      rw [finishStep_of_not_singleStep (hsingle.trans h0)]
      exact heff.sr_ne_stepComplete (enter_sr_none hn he)

/-- Settles O21: the frame of each effect, and the exit code by `Effect.run_cases`. -/
theorem stepKeepsFixedState : Obligations.StepKeepsFixedState := by
  intro s t h
  rcases step_cases h with ⟨_, rfl⟩ | ⟨_, _, rfl⟩ | ⟨_, _, r, _, _, rfl⟩ | ⟨_, _, w, i, u, _, _, _, _, heff, rfl⟩
  · exact ⟨rfl, rfl, rfl, rfl, rfl, fun _ => rfl⟩
  · simp
  · simp
  · obtain ⟨hsec, _, hcfg, hdpx, _, _⟩ := heff.sameBlock
    have hec : u.es ≠ .exited → u.ec = s.ec := by
      intro hne
      rcases heff.run_cases with ⟨_, _, hec⟩ | ⟨_, _, _, _, hec⟩ | ⟨_, hx⟩
      · simpa using hec
      · simpa using hec
      · exact absurd hx.es hne
    have h4 : u.ctlReg 4 = s.ctlReg 4 := by simpa using heff.ctlReg_fixed (n := 4) (.inl rfl)
    have h5 : u.ctlReg 5 = s.ctlReg 5 := by simpa using heff.ctlReg_fixed (n := 5) (.inr rfl)
    simpa [h4, h5, hsec, hcfg, hdpx, finishStep_es_exited_iff] using hec

/-- Settles O24: the list appended is empty or the one pair of the `write` syscall (`step_out_cases`), and the word of
`_exit` is 0x00000414 (`step_exits`). -/
theorem outputAndExitOnlyBySyscall : Obligations.OutputAndExitOnlyBySyscall := by
  intro s t h
  constructor
  · rcases step_out_cases h with hout | ⟨⟨bs, hout⟩, hsyscall⟩
    · exact ⟨[], by simp [hout], fun hne => absurd rfl hne⟩
    · exact ⟨[(s.x 4, bs)], hout, fun _ => hsyscall⟩
  · intro he hexit
    obtain ⟨hfetch, hcode, hpc⟩ := step_exits h he hexit
    exact ⟨hfetch, by rw [hcode, BitVec.setWidth_eq_extractLsb' (by decide)], hpc⟩

/-- Settles O55, one lemma for each range of indices. -/
theorem hostRegisterAccess : Obligations.HostRegisterAccess := by
  intro s v hc he
  refine ⟨readRegister_general hc he, readRegister_pc hc he, readRegister_ctl hc he, ?_, ?_, ?_, ?_, ?_⟩
  · rintro i (hneg | hge)
    · exact registerAccess_of_neg hneg v
    · exact registerAccess_of_ge hc he hge v
  · exact writeRegister_general hc he 0 v
  · exact fun i => ⟨_, writeRegister_general hc he i v, setX_spec i v s⟩
  · exact ⟨_, writeRegister_pc hc he v, setPc_spec v s⟩
  · exact fun n => ⟨_, writeRegister_ctl hc he n v, setCtl_spec n v s⟩

/-- Settles O57: `reset` answers `State.resetOf`, whose fields are the values of R36 and whose first step is
`step_resetOf`. -/
theorem hostReset : Obligations.HostReset := by
  intro s
  refine ⟨hostReset_running, fun h => ⟨_, hostReset_of_control h, ?_⟩⟩
  exact ⟨rfl, rfl, by simp, by simp, by simp, by simp, rfl, rfl, rfl, rfl, rfl, rfl, peek_of_no_sections rfl,
    step_resetOf _ _ _⟩

/-- Settles O58: a step that ends running ran an instruction that left `es` and `sr` as entering set them. -/
theorem runningHasNoReason : Obligations.RunningHasNoReason := by
  intro s t hn h hrun
  rcases step_cases h with ⟨_, rfl⟩ | ⟨_, _, rfl⟩ | ⟨_, _, r, _, _, rfl⟩ | ⟨he, _, w, i, u, _, _, _, _, heff, rfl⟩
  · exact hn hrun
  · cases hrun
  · cases hrun
  · have hfin : finishStep u = u := finishStep_of_running hrun
    rw [hfin] at hrun ⊢
    rcases heff.run_cases with ⟨_, hsr, _⟩ | ⟨_, _, hes, _⟩ | ⟨_, hx⟩
    · rw [hsr, enter_sr_none hn he]
    · rw [hes] at hrun; cases hrun
    · rw [hx.es] at hrun; cases hrun

/-- Settles O18: an empty machine is well formed whatever its configuration, and `State.reset` is one. -/
theorem resetIsWellFormed : Obligations.ResetIsWellFormed :=
  ⟨State.resetOf_wf _ _ _, by decide, State.resetOf_noReasonRunning _ _ _, fun cfg single n =>
    ⟨State.resetOf_wf cfg single n, State.resetOf_noReasonRunning cfg single n, id⟩⟩

end Sys2Proof.Proofs

namespace Sys2Proof

/-! ## Memory (spec/20_memory.md): byte order, addresses, the access primitives, the invariant, `add_memory` -/

/-! ### Byte order (R60) -/

/-- The little-endian bytes of a word have its low bits as their value. -/
theorem leNat_bytesLe (v : Word) (n : Nat) : leNat (bytesLe v n) = v.toNat % 256 ^ n := by
  induction n generalizing v with
  | zero => simp [bytesLe, leNat, Nat.mod_one]
  | succ n ih =>
    calc leNat (bytesLe v (n + 1)) = v.toNat % 256 + 256 * (v.toNat / 256 % 256 ^ n) := by
          simp [bytesLe, leNat, ih, Nat.shiftRight_eq_div_pow]
      _ = v.toNat % 256 ^ (n + 1) := by rw [Nat.pow_succ', Nat.mod_mul]

theorem wordOfBytes_bytesLe (v : Word) : wordOfBytes (bytesLe v 4) = v := by
  apply BitVec.eq_of_toNat_eq
  unfold wordOfBytes
  rw [leNat_bytesLe, BitVec.toNat_ofNat]
  have := v.isLt
  omega

end Sys2Proof

namespace Sys2Proof.Machine

/-! ### Addresses (R55, R210) -/

theorem lookupAddr_eq_mod (addr : Word) : lookupAddr addr = addr.toNat % 2 ^ 31 := by
  unfold lookupAddr
  rw [BitVec.toNat_and]
  exact Nat.and_two_pow_sub_one_eq_mod addr.toNat 31

/-- Bit 31 takes no part in the lookup. -/
theorem lookupAddr_upperHalf (k : Nat) :
    lookupAddr (BitVec.ofNat 32 (2 ^ 31 + k)) = lookupAddr (BitVec.ofNat 32 k) := by
  simp only [lookupAddr_eq_mod, BitVec.toNat_ofNat]
  omega

/-- The bytes of an aligned word do not wrap at 2^31. -/
theorem lookupAddr_add {addr : Word} (h : addr.toNat % 4 = 0) {j : Nat} (hj : j < 4) :
    lookupAddr (addr + BitVec.ofNat 32 j) = lookupAddr addr + j := by
  simp only [lookupAddr_eq_mod, BitVec.toNat_add, BitVec.toNat_ofNat]
  omega

theorem State.ea_eq_ofInt (s : State) (a : RegIdx) (imm16 : BitVec 16) :
    s.ea a imm16 = BitVec.ofInt 32 ((s.x a).toNat + imm16.toInt) := by
  rw [BitVec.ofInt_add, BitVec.ofInt_natCast, BitVec.ofNat_toNat, BitVec.setWidth_eq]
  rfl

/-! ### One byte: the section found, the class test, and reading back -/

section
variable {s t : State} {acc : Access} {p : Nat}

theorem State.sectAt_of_ge (h : 2 ^ 31 ≤ p) : s.sectAt p = none := by
  unfold State.sectAt
  rw [if_neg (Nat.not_lt.2 h)]

theorem State.isSome_readableByte_iff :
    (s.readableByte acc p).isSome = true ↔ ∃ u, s.sectAt p = some u ∧ permits acc u.flags = true := by
  unfold State.readableByte
  cases s.sectAt p <;> simp

/-- Whether a byte can be read depends on the sections alone. -/
theorem State.isSome_readableByte_congr (hs : t.sections = s.sections) (acc : Access) (p : Nat) :
    (t.readableByte acc p).isSome = (s.readableByte acc p).isSome := by
  rw [Bool.eq_iff_iff, State.isSome_readableByte_iff, State.isSome_readableByte_iff, State.sectAt_congr hs]

theorem State.isSome_readableByte_of_writable (h : s.writable acc p = true) :
    (s.readableByte acc p).isSome = true := by
  obtain ⟨u, hu, hperm, _⟩ := (State.writable_iff s acc p).1 h
  exact State.isSome_readableByte_iff.2 ⟨u, hu, hperm⟩

/-- Where the class may read, it reads the byte that is there. -/
theorem State.readableByte_of_peek {b : Byte} (hb : s.peek p = some b) (hr : (s.readableByte acc p).isSome = true) :
    s.readableByte acc p = some b := by
  obtain ⟨u, hu, hperm⟩ := State.isSome_readableByte_iff.1 hr
  have hbyte : s.byteOf u p = b := by simpa [State.peek, hu] using hb
  exact (State.readableByte_iff s acc p b).2 ⟨u, hu, hperm, hbyte⟩

/-- In a well-formed collection the lookup finds exactly the section that covers the address (R52, R56). -/
theorem State.sectAt_iff (hw : s.wf) {u : Section} :
    s.sectAt p = some u ↔ p < 2 ^ 31 ∧ u ∈ s.sections ∧ u.covers p = true :=
  ⟨State.sectAt_mem, fun ⟨hp, hm, hc⟩ => State.sectAt_of_mem hw hm hp hc⟩

theorem State.readableByte_iff_sectionByte (hw : s.wf) {b : Byte} :
    s.readableByte acc p = some b ↔ s.sectionByte acc p b := by
  simp only [State.readableByte_iff, State.sectAt_iff hw, State.sectionByte]
  constructor
  · rintro ⟨u, ⟨hp, hm, hc⟩, hperm, hbyte⟩
    exact ⟨hp, u, hm, hc, hperm, hbyte⟩
  · rintro ⟨hp, u, hm, hc, hperm, hbyte⟩
    exact ⟨u, ⟨hp, hm, hc⟩, hperm, hbyte⟩

theorem State.writable_iff_sectionWritable (hw : s.wf) : s.writable acc p = true ↔ s.sectionWritable acc p := by
  simp only [State.writable_iff, State.sectAt_iff hw, State.sectionWritable]
  constructor
  · rintro ⟨u, ⟨hp, hm, hc⟩, hperm, hro⟩
    exact ⟨hp, u, hm, hc, hperm, hro⟩
  · rintro ⟨hp, u, hm, hc, hperm, hro⟩
    exact ⟨u, ⟨hp, hm, hc⟩, hperm, hro⟩

end

/-! ### The no-cache tag takes no part in a transfer (R66) -/

theorem State.readFrom_noCache (s : State) (c : AccessClass) (k k' : Bool) (p n : Nat) :
    s.readFrom ⟨c, k⟩ p n = s.readFrom ⟨c, k'⟩ p n := by
  induction n generalizing p with
  | zero => rfl
  | succ n ih => unfold State.readFrom; rw [State.readableByte_noCache s c k k', ih]

theorem State.writeFrom_noCache (s : State) (c : AccessClass) (k k' : Bool) (p : Nat) (bs : List Byte) :
    s.writeFrom ⟨c, k⟩ p bs = s.writeFrom ⟨c, k'⟩ p bs := by
  induction bs generalizing s p with
  | nil => rfl
  | cons b bs ih => unfold State.writeFrom; rw [State.writable_noCache s c k k', ih]

theorem State.memRead_eq_readFrom (s : State) (addr : Word) (n : Nat) (acc : Access) :
    s.memRead addr n acc = s.readFrom acc (lookupAddr addr) n :=
  State.readFrom_noCache s acc.cls _ acc.noCache _ n

theorem State.memWrite_eq_writeFrom (s : State) (addr : Word) (bs : List Byte) (acc : Access) :
    s.memWrite addr bs acc = s.writeFrom acc (lookupAddr addr) bs :=
  State.writeFrom_noCache s acc.cls _ acc.noCache _ bs

/-! ### The fetch (R135) -/

theorem State.fetch_of_reads {s : State} {v : Word} (h : s.reads fetchAccess (lookupAddr s.pc) (bytesLe v 4)) :
    s.fetch = some v := by
  have hread : s.memRead s.pc 4 fetchAccess = bytesLe v 4 := by
    simpa using State.memRead_of_reads s s.pc fetchAccess (bytesLe v 4) h
  simp [State.fetch, hread, wordOfBytes_bytesLe]

/-! ### The invariant of memory through an instruction and a step -/

/-- The invariant speaks of the sections and the listed bytes alone. -/
theorem State.wf_congr {s t : State} (hs : t.sections = s.sections) (hm : t.mem = s.mem) : t.wf ↔ s.wf := by
  simp only [State.wf, hs, hm]

section
variable {acc : Access} {lo : Nat} {bs : List Byte} {s : State} {r : State × Nat} (w : WroteBytes acc lo bs s r)
include w

theorem WroteBytes.sections : r.1.sections = s.sections := by rw [w.eq_withMem]
theorem WroteBytes.sameRegs : SameRegs s r.1 := by rw [w.eq_withMem]; exact fun _ => rfl

/-- A write lists bytes only where a section is. -/
theorem WroteBytes.state_wf (h : s.wf) : r.1.wf := by
  obtain ⟨hsec, hmem, hin⟩ := h
  refine ⟨by rw [w.sections]; exact hsec, w.wf hmem, fun c hc => ?_⟩
  rw [w.sections]
  rcases w.cells c hc with hold | hnew
  · exact hin c hold
  · exact hnew

/-- A byte is as before, or it is one of those that could be written. -/
theorem WroteBytes.peek_cases (p : Nat) : r.1.peek p = s.peek p ∨ s.writable acc p = true := by
  by_cases h : p < lo ∨ lo + r.2 ≤ p
  · exact .inl (w.others p h)
  · have hp : lo + (p - lo) = p := by omega
    exact .inr (hp ▸ w.could (p - lo) (by omega))

end

section
variable {i : Instr} {s u : State}

theorem Effect.wf (e : Effect i s u) (h : s.wf) : u.wf := by
  cases e with
  | store _ acc _ lo bs r w => exact (State.wf_congr rfl rfl).2 (w.state_wf h)
  | storeFault _ acc _ lo bs r w => exact (State.wf_congr rfl rfl).2 (w.state_wf h)
  | write d v p _ => exact (State.wf_congr (by simp) (by simp)).2 h
  | writeCtl n v p _ _ _ => exact h
  | stop r _ _ => exact h
  | output bs _ _ => exact h
  | exit _ => exact h

/-- An instruction leaves a byte as it was, or it is a store and the class `D` may write the byte. -/
theorem Effect.peek_cases (e : Effect i s u) (p : Nat) :
    u.peek p = s.peek p ∨ isStore i = true ∧ ∃ acc : Access, acc.cls = .data ∧ s.writable acc p = true := by
  cases e with
  | store hi acc ha lo bs r w => simpa [hi] using (w.peek_cases p).imp_right fun hp => ⟨acc, ha, hp⟩
  | storeFault hi acc ha lo bs r w => simpa [hi] using (w.peek_cases p).imp_right fun hp => ⟨acc, ha, hp⟩
  | write d v q _ => exact .inl ((setX_setPc_spec d v q s).mem p)
  | writeCtl n v q _ _ _ => exact .inl ((setCtl_setPc_spec n v q s).mem p)
  | stop r _ _ => exact .inl (State.peek_raiseStop s r p)
  | output bs _ _ => exact .inl (State.peek_congr rfl rfl p)
  | exit _ => exact .inl (State.peek_congr rfl rfl p)

end

section
variable (s : State)

@[simp] theorem finishStep_mem : (finishStep s).mem = s.mem := by rw [finishStep_eq]
@[simp] theorem interruptedState_mem : (interruptedState s).mem = s.mem := enter_mem s
@[simp] theorem peek_finishStep (p : Nat) : (finishStep s).peek p = s.peek p :=
  State.peek_congr (by simp) (by simp) p
@[simp] theorem peek_interruptedState (p : Nat) : (interruptedState s).peek p = s.peek p :=
  State.peek_congr (by simp) (by simp) p

end

/-- A byte that the class `D` may write lies in a data section that is not read-only (R58). -/
theorem State.dataSection_of_writable {s : State} {acc : Access} (ha : acc.cls = .data) {p : Nat}
    (h : s.writable acc p = true) :
    ∃ u ∈ s.sections, u.covers p = true ∧ u.flags.data = true ∧ u.flags.readOnly = false := by
  obtain ⟨u, hu, hperm, hro⟩ := (State.writable_iff s acc p).1 h
  obtain ⟨_, hm, hc⟩ := State.sectAt_mem hu
  exact ⟨u, hm, hc, by simpa [permits, ha] using hperm, hro⟩

/-! ### `add_memory` (R53, R54) -/

/-- The three grounds on which `add_memory` refuses a range: it is empty, passes 2^32, or shares a byte with a
section. -/
def State.cannotAdd (s : State) (base length : Nat) : Prop :=
  length = 0 ∨ 2 ^ 32 < base + length ∨
    ∃ u ∈ s.sections, ∃ p, u.covers p = true ∧ base ≤ p ∧ p < base + length

/-- A range that can be added is not empty and does not pass 2^32. -/
theorem State.range_of_can {s : State} {base length : Nat} (h : ¬ s.cannotAdd base length) :
    0 < length ∧ base + length ≤ 2 ^ 32 :=
  ⟨Nat.pos_of_ne_zero fun e => h (.inl e), Nat.not_lt.1 fun e => h (.inr (.inl e))⟩

/-- The state after an accepted `add_memory` (`addMemory_of_can`). -/
def State.withSection (s : State) (name : String) (base : Nat) (flags : SectionFlags) (initial : List Byte)
    (length : Nat) : State :=
  { s with
    sections := insertSection ⟨name, base, base + length, flags, s.freeCtr⟩ s.sections
    mem      := Memory.setBytes (Memory.eraseRange s.mem base (base + length)) base (initial.take length)
    freeCtr  := s.freeCtr + 1 }

/-- The test of `addMemory` on the collection is the third ground of `State.cannotAdd`. -/
theorem State.any_meets_iff {s : State} (hw : s.wf) {lo hi : Nat} (h : lo < hi) :
    s.sections.any (fun u => u.meets lo hi) = true ↔
      ∃ u ∈ s.sections, ∃ p, u.covers p = true ∧ lo ≤ p ∧ p < hi := by
  obtain ⟨⟨_, hne⟩, _⟩ := hw
  rw [List.any_eq_true]
  exact exists_congr fun u => and_congr_right fun hu => Section.meets_iff u (hne u hu).1 h

section
variable {s : State} (he : s.es ≠ .running) (hw : s.wf) (name : String) {base : Nat} (flags : SectionFlags)
  (initial : List Byte) {length : Nat}
include he hw

theorem addMemory_of_cannot (h : s.cannotAdd base length) : addMemory s name base flags initial length = none := by
  unfold addMemory
  apply if_neg
  simp only [State.hostHasControl_iff.2 he, Bool.and_eq_true, decide_eq_true_eq, Bool.not_eq_true']
  rintro ⟨⟨⟨_, hne⟩, hle⟩, hmeets⟩
  rcases h with h | h | h
  · exact hne h
  · exact absurd hle (Nat.not_le.2 h)
  · rw [(State.any_meets_iff hw (by omega)).2 h] at hmeets
    cases hmeets

theorem addMemory_of_can (h : ¬ s.cannotAdd base length) :
    addMemory s name base flags initial length = some (s.withSection name base flags initial length) := by
  obtain ⟨hpos, hle⟩ := State.range_of_can h
  have hmeets : s.sections.any (fun u => u.meets base (base + length)) = false :=
    Bool.eq_false_iff.2 fun e => h (.inr (.inr ((State.any_meets_iff hw (by omega)).1 e)))
  unfold addMemory
  apply if_pos
  simp only [State.hostHasControl_iff.2 he, hmeets, Bool.and_eq_true, decide_eq_true_eq, Bool.not_false]
  exact ⟨⟨⟨trivial, hpos.ne'⟩, hle⟩, trivial⟩

end

section
variable {s : State} {name : String} {base : Nat} {flags : SectionFlags} {initial : List Byte} {length : Nat}

theorem State.mem_withSection_sections (u : Section) :
    u ∈ (s.withSection name base flags initial length).sections ↔
      u ∈ s.sections ∨ u = ⟨name, base, base + length, flags, s.freeCtr⟩ :=
  mem_insertSection _ s.sections u

/-- A range that can be added lies beside every section. -/
theorem State.disjoint_of_can (hw : s.wf) (h : ¬ s.cannotAdd base length) {u : Section} (hu : u ∈ s.sections) :
    base + length ≤ u.base ∨ u.limit ≤ base := by
  obtain ⟨hpos, _⟩ := State.range_of_can h
  obtain ⟨⟨_, hne⟩, _⟩ := hw
  have hpos_u := (hne u hu).1
  by_contra hmeet
  have hmeets : u.meets base (base + length) = true := by
    simp only [Section.meets, decide_eq_true_eq]
    omega
  exact h (.inr (.inr ⟨u, hu, (Section.meets_iff u hpos_u (by omega)).1 hmeets⟩))

theorem State.withSection_wf (hw : s.wf) (h : ¬ s.cannotAdd base length) :
    (s.withSection name base flags initial length).wf := by
  obtain ⟨hpos, hle⟩ := State.range_of_can h
  have hdisj := fun u hu => State.disjoint_of_can hw h (u := u) hu
  obtain ⟨hsec, hmem, hin⟩ := hw
  refine ⟨insertSection_wf _ _ (Nat.lt_add_of_pos_right hpos) hle hsec hdisj,
    Memory.setBytes_wf _ _ (Memory.eraseRange_wf _ _ hmem), fun c hc => ?_⟩
  rcases Memory.mem_setBytes hc with ⟨hlo, hhi⟩ | hold
  · refine ⟨_, (State.mem_withSection_sections _).2 (.inr rfl), ?_⟩
    have := List.length_take_le length initial
    unfold Section.covers
    simp only [Bool.and_eq_true, decide_eq_true_eq]
    omega
  · obtain ⟨u, hu, hcov⟩ := hin c (List.mem_of_mem_filter hold)
    exact ⟨u, (State.mem_withSection_sections u).2 (.inl hu), hcov⟩

/-- The initial bytes stand at their addresses. -/
theorem State.peek_withSection_inside (hw : s.wf) (h : ¬ s.cannotAdd base length) {j : Nat}
    (hj : j < initial.length) (hlen : j < length) (hp : base + j < 2 ^ 31) :
    (s.withSection name base flags initial length).peek (base + j) = some initial[j] := by
  have hcov : (Section.mk name base (base + length) flags s.freeCtr).covers (base + j) = true := by
    simp [Section.covers, hlen]
  have hsect := State.sectAt_of_mem (State.withSection_wf (name := name) (flags := flags) (initial := initial) hw h)
    ((State.mem_withSection_sections _).2 (.inr rfl)) hp hcov
  have hget : Memory.get? (s.withSection name base flags initial length).mem (base + j) = some initial[j] := by
    show Memory.get? (Memory.setBytes _ base (initial.take length)) (base + j) = _
    rw [Memory.get?_setBytes, if_pos (by rw [List.length_take]; omega)]
    simp [hlen, hj]
  simp [State.peek, hsect, State.byteOf, hget]

/-- Outside the new section every byte is as before. -/
theorem State.peek_withSection_outside {p : Nat} (hp : p < base ∨ base + length ≤ p) :
    (s.withSection name base flags initial length).peek p = s.peek p := by
  have hcov : (Section.mk name base (base + length) flags s.freeCtr).covers p = false := by
    simp only [Section.covers, Bool.and_eq_false_iff, decide_eq_false_iff_not]
    omega
  have hsect : (s.withSection name base flags initial length).sectAt p = s.sectAt p := by
    unfold State.sectAt
    rw [show (s.withSection name base flags initial length).sections.find? (fun u => u.covers p)
      = s.sections.find? (fun u => u.covers p) from find?_insertSection _ _ p hcov]
  have hget : Memory.get? (s.withSection name base flags initial length).mem p = Memory.get? s.mem p := by
    show Memory.get? (Memory.setBytes _ base (initial.take length)) p = _
    rw [Memory.get?_setBytes, if_neg (by rw [List.length_take]; omega)]
    exact Memory.get?_eraseRange s.mem base (base + length) p hp
  simp only [State.peek, hsect, State.byteOf, hget]

end

end Sys2Proof.Machine

namespace Sys2Proof.Proofs

/-! ## The statements of spec/20_memory.md, settled -/

open Sys2Proof.Machine

/-- Settles O17: an instruction keeps the invariant (`Effect.wf`), and the rest of a step writes neither the sections nor
the bytes. -/
theorem stepKeepsMemoryWellFormed : Obligations.StepKeepsMemoryWellFormed := by
  intro s t hs h
  have henter : (enter s).wf := (State.wf_congr (by simp) (by simp)).2 hs
  rcases step_cases h with ⟨_, rfl⟩ | ⟨_, _, rfl⟩ | ⟨_, _, r, _, _, rfl⟩ | ⟨_, _, w, i, u, _, _, _, _, heff, rfl⟩
  · exact hs
  · exact (State.wf_congr (by simp) (by simp)).2 hs
  · exact henter
  · exact (State.wf_congr (by simp) (by simp)).2 (heff.wf henter)

/-- Settles O22: only an instruction changes a byte, and by `Effect.peek_cases` it is a store to a writable byte. -/
theorem onlyStoresChangeMemory : Obligations.OnlyStoresChangeMemory := by
  intro s t p h hne
  rcases step_cases h with ⟨_, rfl⟩ | ⟨_, _, rfl⟩ | ⟨_, _, r, _, _, rfl⟩ | ⟨_, _, w, i, u, hw, hi, _, _, heff, rfl⟩
  · exact absurd rfl hne
  · exact absurd (peek_interruptedState s p) hne
  · exact absurd (by simp) hne
  · rcases heff.peek_cases p with hsame | ⟨hstore, acc, ha, hwr⟩
    · exact absurd (by simpa using hsame) hne
    · rw [State.writable_congr (enter_sections s)] at hwr
      exact ⟨⟨w, i, hw, hi, hstore⟩, State.dataSection_of_writable ha hwr⟩

/-- Settles O42: each of the six is `store` with its width, and the io class tests as the data class does. -/
theorem storesStop : Obligations.StoresStop := by
  intro b a imm16 s
  refine ⟨⟨s.ea_eq_ofInt a imm16, lookupAddr_eq_mod _⟩, fun p hp => ?_⟩
  have stops := fun n acc => (store_spec n acc b a imm16 s).imp_right And.left
  simp only [List.mem_cons, List.not_mem_nil, or_false] at hp
  rcases hp with rfl | rfl | rfl | rfl | rfl | rfl
  · exact stops 1 dataAccess
  · exact stops 1 ioAccess
  · exact stops 2 dataAccess
  · exact stops 2 ioAccess
  · exact stops 4 dataAccess
  · exact stops 4 ioAccess

/-- Settles O51: `memRead_spec` and `memWrite_spec`, with the lookup of a byte read as membership in the collection. -/
theorem memoryPrimitives : Obligations.MemoryPrimitives := by
  intro s addr acc hw
  rw [← lookupAddr_eq_mod]
  constructor
  · rintro n bs rfl
    obtain ⟨hlen, hbytes, hgap⟩ := State.memRead_spec s addr n acc
    refine ⟨hlen, fun j hj => (State.readableByte_iff_sectionByte hw).1 (hbytes j hj), fun hshort => ?_⟩
    rintro ⟨v, hv⟩
    rw [← State.readableByte_iff_sectionByte hw, hgap hshort] at hv
    cases hv
  · intro data t k hr
    have w := State.memWrite_spec s addr data acc
    rw [← hr] at w
    refine ⟨w.count, fun j hj => (State.writable_iff_sectionWritable hw).1 (w.could j hj), fun hshort => ?_, w.written,
      w.others, w.pc, w.sameRegs, w.ctlReg, w.out, w.sameRun, w.sameBlock⟩
    rw [← State.writable_iff_sectionWritable hw, w.couldNot hshort]
    exact Bool.false_ne_true

/-- Settles O52: both primitives look only at the lookup address, which masks bit 31. -/
theorem upperHalfIsAnAlias : Obligations.UpperHalfIsAnAlias := by
  intro s k acc _
  refine ⟨fun n => ?_, fun data => ?_, fun p hp => ?_⟩
  · rw [State.memRead_eq_readFrom, State.memRead_eq_readFrom, lookupAddr_upperHalf]
  · rw [State.memWrite_eq_writeFrom, State.memWrite_eq_writeFrom, lookupAddr_upperHalf]
  · simp [State.peek, State.readableByte, State.writable, State.sectAt_of_ge hp]

/-- Settles O53: the byte that was written is there (`WroteBytes.written`), and the class that wrote it may read it. -/
theorem littleEndian : Obligations.LittleEndian := by
  refine ⟨fun _ _ => rfl, bytesLe_getElem, wordOfBytes_bytesLe, fun s addr v j halign hj hwr => ?_⟩
  have w := State.memWrite_spec s addr (bytesLe v 4) dataAccess
  have hcount : (s.memWrite addr (bytesLe v 4) dataAccess).2 = 4 := by
    simpa using State.memWrite_count s addr (bytesLe v 4) dataAccess (by simpa using hwr)
  have hpeek := w.written j (by simpa using hj) (by rw [hcount]; exact hj)
  rw [bytesLe_getElem] at hpeek
  have hread := State.readableByte_of_peek (acc := dataAccess) hpeek
    (by rw [State.isSome_readableByte_congr w.sections]; exact State.isSome_readableByte_of_writable (hwr j hj))
  refine State.memRead_of_reads _ _ dataAccess [v.extractLsb' (8 * j) 8] fun k hk => ?_
  obtain rfl : k = 0 := by simpa using hk
  rw [lookupAddr_add halign hj]
  exact hread

/-- Settles O54: the stored bytes stand at the address (`store_spec`), and the sections, which decide what the class `I`
may read, are as before. -/
theorem fetchSeesTheStore : Obligations.FetchSeesTheStore := by
  intro b a imm16 s halign hwr hrd
  obtain ⟨_, _, hcompletes⟩ := store_spec 4 dataAccess b a imm16 s
  obtain ⟨t, ht, hstored⟩ := hcompletes halign hwr
  obtain ⟨hsec, _⟩ := hstored.block
  obtain ⟨hbytes, _⟩ := hstored.mem
  refine ⟨t, ht, fun u hus hum hupc => State.fetch_of_reads fun j hj => ?_⟩
  rw [bytesLe_length] at hj
  rw [hupc, bytesLe_getElem]
  apply State.readableByte_of_peek
  · rw [State.peek_congr hus hum, hbytes j hj]
  · rw [State.isSome_readableByte_congr (hus.trans hsec)]
    exact hrd j hj

/-- Settles O56: `add_memory` is refused on the three grounds of `State.cannotAdd`, and else answers
`State.withSection`. -/
theorem addMemory : Obligations.AddMemory := by
  intro s name base flags initial length he hw
  by_cases h : s.cannotAdd base length
  · have hnone := addMemory_of_cannot he hw name flags initial h
    rw [hnone]
    exact ⟨iff_of_true rfl h, fun t ht => by cases ht⟩
  · rw [addMemory_of_can he hw name flags initial h]
    refine ⟨iff_of_false (fun e => by cases e) h, fun t ht => ?_⟩
    obtain rfl := Option.some.inj ht
    exact ⟨State.withSection_wf hw h, ⟨s.freeCtr, State.mem_withSection_sections⟩,
      fun j hj hlen hp => State.peek_withSection_inside hw h hj hlen hp,
      fun p hp => State.peek_withSection_outside hp,
      rfl, fun _ => rfl, fun _ => rfl, rfl, ⟨rfl, rfl, rfl⟩, rfl, rfl, rfl, rfl⟩

end Sys2Proof.Proofs

namespace Sys2Proof

/-! ## Encoding (spec/30_encoding.md, spec/40_decoder.md): recognition, the format check, decoder and encoder, dpx -/

/-! ### A word is its six R-type fields (R82) -/

theorem word_eq_iff_fields {w v : Word} : w = v ↔ fieldA w = fieldA v ∧ fieldB w = fieldB v ∧ fieldC w = fieldC v ∧
    fieldOpx w = fieldOpx v ∧ fieldImm5 w = fieldImm5 v ∧ fieldOp w = fieldOp v := by
  constructor
  · rintro rfl
    exact ⟨rfl, rfl, rfl, rfl, rfl, rfl⟩
  · simp only [BitVec.toNat_eq, fieldA_toNat, fieldB_toNat, fieldC_toNat, fieldOpx_toNat, fieldImm5_toNat,
      fieldOp_toNat]
    have := w.isLt
    have := v.isLt
    omega

/-- A mask acts on each field by itself. -/
theorem and_eq_iff_fields {w m v : Word} : w &&& m = v ↔
    fieldA w &&& fieldA m = fieldA v ∧ fieldB w &&& fieldB m = fieldB v ∧ fieldC w &&& fieldC m = fieldC v ∧
      fieldOpx w &&& fieldOpx m = fieldOpx v ∧ fieldImm5 w &&& fieldImm5 m = fieldImm5 v ∧
      fieldOp w &&& fieldOp m = fieldOp v := by
  rw [word_eq_iff_fields]
  simp only [fieldA, fieldB, fieldC, fieldOpx, fieldImm5, fieldOp, BitVec.extractLsb'_and]

/-! The fields of a constant, which `simp` evaluates; and a field that a mask keeps whole. -/

theorem fieldA_ofNat (n : Nat) : fieldA (BitVec.ofNat 32 n) = (BitVec.ofNat 32 n).extractLsb' 27 5 := rfl
theorem fieldB_ofNat (n : Nat) : fieldB (BitVec.ofNat 32 n) = (BitVec.ofNat 32 n).extractLsb' 22 5 := rfl
theorem fieldC_ofNat (n : Nat) : fieldC (BitVec.ofNat 32 n) = (BitVec.ofNat 32 n).extractLsb' 17 5 := rfl
theorem fieldOpx_ofNat (n : Nat) : fieldOpx (BitVec.ofNat 32 n) = (BitVec.ofNat 32 n).extractLsb' 11 6 := rfl
theorem fieldImm5_ofNat (n : Nat) : fieldImm5 (BitVec.ofNat 32 n) = (BitVec.ofNat 32 n).extractLsb' 6 5 := rfl
theorem fieldOp_ofNat (n : Nat) : fieldOp (BitVec.ofNat 32 n) = (BitVec.ofNat 32 n).extractLsb' 0 6 := rfl

theorem and_ones5 (x : BitVec 5) : x &&& 31#5 = x := BitVec.and_allOnes
theorem and_ones6 (x : BitVec 6) : x &&& 63#6 = x := BitVec.and_allOnes

/-- R86 and R117: the control-register index is the field `IMM5`. -/
theorem ctlidx_eq (w : Word) : ctlidx w = fieldImm5 w := rfl

/-! ### Recognition is match and mask (R90, R122) -/

/-- The fields that the mask of a row fixes: `OP`, and `OPX` in the rows of the R-type map. -/
def Opcode.Matches (o : Opcode) (w : Word) : Prop :=
  fieldOp w = fieldOp o.pattern ∧ (fieldOp o.pattern = 0x3A#6 → fieldOpx w = fieldOpx o.pattern)

theorem and_mask_eq_pattern_iff {w : Word} {o : Opcode} : w &&& o.mask = o.pattern ↔ o.Matches w := by
  rw [and_eq_iff_fields]
  cases o <;> simp [Opcode.Matches, Opcode.mask, Opcode.pattern, fieldA_ofNat, fieldB_ofNat, fieldC_ofNat,
    fieldOpx_ofNat, fieldImm5_ofNat, fieldOp_ofNat, and_ones6, and_comm]

theorem classifyOp_pattern {op : Nat} {o : Opcode} (h : classifyOp op = some o) : (fieldOp o.pattern).toNat = op := by
  unfold classifyOp at h
  split at h <;> cases h <;> rfl

theorem classifyOpx_pattern {opx : Nat} {o : Opcode} (h : classifyOpx opx = some o) :
    fieldOp o.pattern = 0x3A#6 ∧ (fieldOpx o.pattern).toNat = opx := by
  unfold classifyOpx at h
  split at h <;> cases h <;> exact ⟨rfl, rfl⟩

theorem classify_pattern (o : Opcode) : classify o.pattern = some o := by
  cases o <;> rfl

/-- The maps name no row twice, so that `classify` looks at no more than the row's own fields. -/
theorem classify_eq_some_iff {w : Word} {o : Opcode} : classify w = some o ↔ o.Matches w := by
  constructor
  · intro h
    unfold classify at h
    split at h
    next hop =>
      obtain ⟨hp, hopx⟩ := classifyOpx_pattern h
      exact ⟨hop.trans hp.symm, fun _ => BitVec.eq_of_toNat_eq hopx.symm⟩
    next hop =>
      have hp : fieldOp w = fieldOp o.pattern := BitVec.eq_of_toNat_eq (classifyOp_pattern h).symm
      exact ⟨hp, fun e => absurd (hp.trans e) hop⟩
  · rintro ⟨hop, hopx⟩
    rw [← classify_pattern o]
    unfold classify
    rw [hop]
    split
    next e => rw [hopx e]
    next => rfl

/-! ### The format check is the legal mask (R91) -/

/-- `IMM5 < 16` is the one bit of `IMM5` that the legal masks of `rdctl` and `wrctl` test. -/
theorem ctlIndexOk_iff_and (n : BitVec 5) : ctlIndexOk n = true ↔ n &&& 16#5 = 0#5 := by
  revert n
  decide

theorem formatOk_iff_legalMask (w : Word) (o : Opcode) :
    formatOk o w = true ↔ w &&& o.legalMask = o.legalMatch := by
  rw [and_eq_iff_fields]
  cases o <;> simp [formatOk, Opcode.legalMask, Opcode.legalMatch, fieldA_ofNat, fieldB_ofNat, fieldC_ofNat,
    fieldOpx_ofNat, fieldImm5_ofNat, fieldOp_ofNat, and_ones5, ctlidx_eq, ctlIndexOk_iff_and, and_assoc]

/-! ### The decoder on an encoded word -/

open Laws.Recognised in
/-- The family `Recognised` as one statement. -/
theorem classify_encode (i : Instr) : classify (encode i) = some i.opcode := by
  cases i
  exacts [call _, jmpi _, ldbu _ _ _, stb _ _ _, ldb _ _ _, ldhu _ _ _, sth _ _ _, ldh _ _ _, stw _ _ _, ldw _ _ _,
    ldbuio _ _ _, stbio _ _ _, ldbio _ _ _, ldhuio _ _ _, sthio _ _ _, ldhio _ _ _, stwio _ _ _, ldwio _ _ _,
    addi _ _ _, andi _ _ _, ori _ _ _, xori _ _ _, andhi _ _ _, orhi _ _ _, xorhi _ _ _, cmpeqi _ _ _, cmpnei _ _ _,
    cmpgei _ _ _, cmplti _ _ _, cmpgeui _ _ _, cmpltui _ _ _, muli _ _ _, br _, beq _ _ _, bne _ _ _, bge _ _ _,
    bgeu _ _ _, blt _ _ _, bltu _ _ _, add _ _ _, sub _ _ _, and _ _ _, or _ _ _, xor _ _ _, nor _ _ _, cmpeq _ _ _,
    cmpne _ _ _, cmpge _ _ _, cmpgeu _ _ _, cmplt _ _ _, cmpltu _ _ _, sll _ _ _, srl _ _ _, sra _ _ _, rol _ _ _,
    ror _ _ _, mul _ _ _, mulxss _ _ _, mulxsu _ _ _, mulxuu _ _ _, div _ _ _, divu _ _ _, slli _ _ _, srli _ _ _,
    srai _ _ _, roli _ _ _, jmp _, callr _, ret, nextpc _, brk _, trap _, eret, bret, rdctl _ _, wrctl _ _]

/-- The encoder puts every operand where the accessors of the row read it (R124). -/
theorem operands_encode (i : Instr) : operands i.opcode (encode i) = i := by
  cases i <;> simp [encode, operands, Instr.opcode]

/-- The encoder gives every fixed and unused field its value; the index of `rdctl` and `wrctl` is an operand, and in
range by well-formedness. -/
theorem formatOk_encode {i : Instr} (h : WellFormed i) : formatOk i.opcode (encode i) = true := by
  cases i with
  | rdctl c n | wrctl n a => simpa [encode, formatOk, Instr.opcode, WellFormed, Instr.wellFormed] using h
  | _ => simp [encode, formatOk, Instr.opcode]

/-! ### The encoder on a decoded word -/

section
variable {w : Word} {a b c : RegIdx}

theorem encodeI_eq_iff {op : Nat} {imm16 : BitVec 16} (h : op < 64) : encodeI op a b imm16 = w ↔
    fieldOp w = BitVec.ofNat 6 op ∧ fieldA w = a ∧ fieldB w = b ∧ fieldImm16 w = imm16 := by
  constructor
  · rintro rfl
    simp [h]
  · rintro ⟨hop, rfl, rfl, rfl⟩
    obtain rfl : (fieldOp w).toNat = op := by rw [hop, BitVec.toNat_ofNat, Nat.mod_eq_of_lt h]
    exact packI w

theorem encodeR_eq_iff {opx : Nat} {imm5 : BitVec 5} (h : opx < 64) : encodeR opx a b c imm5 = w ↔
    fieldA w = a ∧ fieldB w = b ∧ fieldC w = c ∧ fieldOpx w = BitVec.ofNat 6 opx ∧ fieldImm5 w = imm5 ∧
      fieldOp w = 0x3A#6 := by
  rw [eq_comm, word_eq_iff_fields]
  simp [h]

theorem encodeJ_eq_iff {op : Nat} {imm26 : BitVec 26} (h : op < 64) : encodeJ op imm26 = w ↔
    fieldOp w = BitVec.ofNat 6 op ∧ fieldImm26 w = imm26 := by
  constructor
  · rintro rfl
    simp [h]
  · rintro ⟨hop, rfl⟩
    obtain rfl : (fieldOp w).toNat = op := by rw [hop, BitVec.toNat_ofNat, Nat.mod_eq_of_lt h]
    exact packJ w

end

section
variable {w : Word} {o : Opcode}

theorem wellFormed_operands (h : formatOk o w = true) : WellFormed (operands o w) := by
  cases o with
  | rdctl | wrctl => simp_all [formatOk, operands, WellFormed, Instr.wellFormed]
  | _ => rfl

/-- Every bit of the word is fixed by the row (`Opcode.Matches`), fixed by the format check, or read as an operand. -/
theorem encode_operands (hm : o.Matches w) (hf : formatOk o w = true) : encode (operands o w) = w := by
  obtain ⟨hop, hopx⟩ := hm
  cases o <;> simp_all [operands, encode, encodeI_eq_iff, encodeR_eq_iff, encodeJ_eq_iff, formatOk, ctlidx_eq,
    Opcode.pattern, fieldOp_ofNat, fieldOpx_ofNat]

theorem formatOk_of_decode {i : Instr} (h : decode w = .instr i) (hc : classify w = some o) : formatOk o w = true := by
  by_contra hf
  rw [decode_illegal hc (Bool.eq_false_iff.2 hf)] at h
  cases h

end

/-! ### The dpx accessors (R119 to R121): the value of a place -/

theorem sliceNat_eq (w : Word) (r : BitRange) : sliceNat w r = w.toNat / 2 ^ r.lo.val % 2 ^ r.width := by
  rw [sliceNat, Nat.shiftRight_eq_div_pow]

theorem sliceNat_lt (w : Word) (r : BitRange) : sliceNat w r < 2 ^ r.width :=
  Nat.mod_lt _ (Nat.two_pow_pos _)

theorem BitRange.width_le (r : BitRange) : r.width ≤ 32 := by
  have := r.hi.isLt
  unfold BitRange.width
  omega

theorem BitRange.width_pos {r : BitRange} (h : r.lo ≤ r.hi) : 0 < r.width := by
  have : r.lo.val ≤ r.hi.val := h
  unfold BitRange.width
  omega

theorem concatRanges_one (w : Word) (r : BitRange) : concatRanges w [r] = (sliceNat w r, r.width) := by
  simp [concatRanges]

theorem concatRanges_two (w : Word) (r q : BitRange) :
    concatRanges w [r, q] = (sliceNat w r * 2 ^ q.width + sliceNat w q, r.width + q.width) := by
  simp [concatRanges]

/-- Two slices side by side fit the sum of their widths. -/
theorem concat_lt {m n a b : Nat} (ha : a < 2 ^ m) (hb : b < 2 ^ n) : a * 2 ^ n + b < 2 ^ (m + n) :=
  calc a * 2 ^ n + b < (a + 1) * 2 ^ n := by rw [Nat.succ_mul]; omega
    _ ≤ 2 ^ m * 2 ^ n := Nat.mul_le_mul_right _ ha
    _ = 2 ^ (m + n) := (Nat.pow_add 2 m n).symm

section
variable {l : DpxLayout} {k : DpxField} {w : Word} {rs : List BitRange} {v n : Nat}

/-- R119: the concatenation of the ranges, extended as the place says. -/
theorem dpxField_of_position {signed : Bool} (hp : dpxPosition l (dpxFormat l w) k = ⟨rs, signed⟩)
    (hc : concatRanges w rs = (v, n)) :
    dpxField l k w = if signed then (BitVec.ofNat n v).signExtend 32 else (BitVec.ofNat n v).zeroExtend 32 := by
  unfold dpxField
  rw [hp]
  dsimp only
  rw [hc]

theorem dpxField_toNat (hp : dpxPosition l (dpxFormat l w) k = ⟨rs, false⟩) (hc : concatRanges w rs = (v, n))
    (hv : v < 2 ^ n) (hn : n ≤ 32) : (dpxField l k w).toNat = v := by
  rw [dpxField_of_position hp hc, if_neg Bool.false_ne_true]
  calc ((BitVec.ofNat n v).setWidth 32).toNat = v % 2 ^ n := by rw [BitVec.toNat_setWidth_of_le hn, BitVec.toNat_ofNat]
    _ = v := Nat.mod_eq_of_lt hv

theorem dpxField_toInt (hp : dpxPosition l (dpxFormat l w) k = ⟨rs, true⟩) (hc : concatRanges w rs = (v, n))
    (hv : v < 2 ^ n) (hn : n ≤ 32) (hpos : 0 < n) :
    (dpxField l k w).toInt = if v < 2 ^ (n - 1) then (v : Int) else (v : Int) - 2 ^ n := by
  have hhalf : 2 * v < 2 ^ n ↔ v < 2 ^ (n - 1) := by
    rw [← Nat.two_pow_pred_mul_two hpos]
    omega
  rw [dpxField_of_position hp hc, if_pos rfl, BitVec.toInt_signExtend_of_le hn, BitVec.toInt_eq_toNat_cond,
    BitVec.toNat_ofNat, Nat.mod_eq_of_lt hv, Nat.cast_pow, Nat.cast_ofNat]
  simp only [hhalf]

end

/-! ### Recognition by disjoint dpx rows (R96, R122) -/

/-- A word that matches two rows makes their patterns agree on the bits that both masks fix. -/
theorem dpxPatterns_agree {w : Word} {r q : DpxRow} (hr : w &&& r.mask = r.pattern) (hq : w &&& q.mask = q.pattern) :
    r.pattern &&& q.mask = q.pattern &&& r.mask := by
  rw [← hr, ← hq, BitVec.and_assoc, BitVec.and_comm r.mask, ← BitVec.and_assoc]

theorem dpxRow_unique {c : Cfg} (h : c.dpxRowsDisjoint) {w : Word} {r q : DpxRow} (hr : r ∈ c.dpxOptable)
    (hq : q ∈ c.dpxOptable) (hmr : w &&& r.mask = r.pattern) (hmq : w &&& q.mask = q.pattern) : r = q := by
  have : Std.Symm fun r q : DpxRow => r.pattern &&& q.mask ≠ q.pattern &&& r.mask := ⟨fun _ _ => Ne.symm⟩
  by_contra hne
  exact h.forall hr hq hne (dpxPatterns_agree hmr hmq)

theorem dpxClassify_matches {c : Cfg} {w : Word} {r : DpxRow} (h : dpxClassify c w = some r) :
    r ∈ c.dpxOptable ∧ w &&& r.mask = r.pattern :=
  ⟨List.mem_of_find?_eq_some h, by simpa using List.find?_some h⟩

theorem dpxClassify_eq_some_iff {c : Cfg} (h : c.dpxRowsDisjoint) {w : Word} {r : DpxRow} :
    dpxClassify c w = some r ↔ r ∈ c.dpxOptable ∧ w &&& r.mask = r.pattern := by
  refine ⟨dpxClassify_matches, fun ⟨hr, hmr⟩ => ?_⟩
  have hsome : (dpxClassify c w).isSome = true := List.find?_isSome.2 ⟨r, hr, decide_eq_true hmr⟩
  obtain ⟨q, hq⟩ := Option.isSome_iff_exists.1 hsome
  obtain ⟨hqmem, hmq⟩ := dpxClassify_matches hq
  rw [hq, dpxRow_unique h hqmem hr hmq hmr]

end Sys2Proof

namespace Sys2Proof.Machine

/-! ## How a word of the base variant runs: recognition, the feature gate, the format (R92, R136, R137, R180) -/

theorem gated_of_absent {o : Opcode} {s : State} (h : featurePresent s.cfg o = false) (r : Result) :
    gated o s r = stopWith .unimplementedInstruction s :=
  if_neg (by rw [h]; exact Bool.false_ne_true)

/-- The rule of a feature-gated instruction opens with its own gate. -/
theorem exec_of_absent {i : Instr} {s : State} (h : featurePresent s.cfg i.opcode = false) :
    exec i s = stopWith .unimplementedInstruction s := by
  cases i with
  | muli | mul | mulxss | mulxsu | mulxuu | div | divu => exact gated_of_absent h _
  | _ => cases h

section
variable {w : Word} {s : State}

theorem runBase_of_unrecognised (h : classify w = none) : runBase w s = stopWith .unimplementedInstruction s := by
  unfold runBase
  rw [decode_unrecognised h]

theorem runBase_of_illegal {o : Opcode} (h : classify w = some o) (hf : formatOk o w = false) :
    runBase w s = gated o s (stopWith .illegalInstructionFormat s) := by
  unfold runBase
  rw [decode_illegal h hf]

theorem runBase_of_legal {o : Opcode} (h : classify w = some o) (hf : formatOk o w = true) :
    runBase w s = exec (operands o w) s := by
  unfold runBase
  rw [decode_of_classify h hf]

/-- The gate comes before the format check: without the feature a word of either format is unimplemented. -/
theorem runBase_of_absent {o : Opcode} (h : classify w = some o) (ha : featurePresent s.cfg o = false) :
    runBase w s = stopWith .unimplementedInstruction s := by
  cases hf : formatOk o w with
  | true => rw [runBase_of_legal h hf, exec_of_absent (by rwa [opcode_operands])]
  | false => rw [runBase_of_illegal h hf, gated_of_absent ha]

theorem stepInstr_enter_of_fetchesWord (h : s.fetchesWord w) : stepInstr (enter s) = runBase w (enter s) := by
  obtain ⟨⟨_, _, hpc⟩, hfetch, hbase⟩ := h
  unfold stepInstr
  rw [if_pos ((wordAligned_iff _).2 (by rwa [enter_pc])), fetch_enter, hfetch]
  simp only [enter_cfg, hbase]

/-- A word that stops ends the step in that stop. -/
theorem step_stops_of_runBase (h : s.fetchesWord w) {r : StopReason}
    (hr : runBase w (enter s) = stopWith r (enter s)) : ∃ t, step s = .next t ∧ Stopped r s t := by
  have hstep := (stepInstr_enter_of_fetchesWord h).trans hr
  obtain ⟨⟨he, hq, _⟩, _, _⟩ := h
  exact ⟨_, step_of_stepInstr_stop he hq hstep, enter_raiseStop_spec r s⟩

end

end Sys2Proof.Machine

namespace Sys2Proof.Proofs

/-! ## The statements of spec/30_encoding.md, settled -/

open Sys2Proof.Machine

/-- Settles O1: the word of an instruction is recognised as its row, passes the row's format check, and its operands are
the instruction's. -/
theorem decodeInvertsEncode : Obligations.DecodeInvertsEncode := by
  intro i h
  rw [decode_of_classify (classify_encode i) (formatOk_encode h), operands_encode]

/-- Settles O2: a decoded word matched the row of its instruction and passed its format check, and so no bit of it is
free (`encode_operands`). -/
theorem encodeInvertsDecode : Obligations.EncodeInvertsDecode := by
  intro w i h
  obtain ⟨hc, hops⟩ := classify_of_decode h
  have hf := formatOk_of_decode h hc
  rw [← hops]
  exact ⟨wellFormed_operands hf, encode_operands (classify_eq_some_iff.1 hc) hf⟩

/-- Settles O3: both sides of a row are `Opcode.Matches`. -/
theorem recognitionIsTheOpcodeTable : Obligations.RecognitionIsTheOpcodeTable := by
  intro w
  have hrow : ∀ o, classify w = some o ↔ w &&& o.mask = o.pattern := fun _ =>
    classify_eq_some_iff.trans and_mask_eq_pattern_iff.symm
  refine ⟨hrow, ?_⟩
  simp only [Option.eq_none_iff_forall_ne_some, ne_eq, hrow]

/-- Settles O4, field by field (`and_eq_iff_fields`). -/
theorem formatCheckIsTheLegalMask : Obligations.FormatCheckIsTheLegalMask :=
  formatOk_iff_legalMask

/-- Settles O11: each clause is what `runBase` answers, and the step ends in that stop. -/
theorem decodeStopsInOrder : Obligations.DecodeStopsInOrder := by
  intro s w h
  refine ⟨fun hc => ?_, fun o hc ha => ?_, fun o hc hp hl => ?_⟩
  · exact step_stops_of_runBase h (runBase_of_unrecognised hc)
  · exact step_stops_of_runBase h (runBase_of_absent hc (by rwa [enter_cfg]))
  · have hf : formatOk o w = false := Bool.eq_false_iff.2 fun e => hl ((formatOk_iff_legalMask w o).1 e)
    have hgate := (gated_spec o (enter s) (stopWith .illegalInstructionFormat (enter s))).1 (by rwa [enter_cfg])
    exact step_stops_of_runBase h ((runBase_of_illegal hc hf).trans hgate)

/-- Settles O59: a place of one or two ranges is a concatenation that fits its width, and disjoint rows are unique
(`dpxRow_unique`). -/
theorem dpxDecoding : Obligations.DpxDecoding := by
  refine ⟨fun l k w r hr => ⟨fun hp => ?_, fun hp => ?_, fun q _ hwidth hp => ?_⟩,
    fun c w r h => dpxClassify_eq_some_iff h⟩
  · rw [← sliceNat_eq]
    exact dpxField_toNat hp (concatRanges_one w r) (sliceNat_lt w r) r.width_le
  · rw [← sliceNat_eq]
    exact dpxField_toInt hp (concatRanges_one w r) (sliceNat_lt w r) r.width_le (BitRange.width_pos hr)
  · rw [← sliceNat_eq, ← sliceNat_eq]
    exact dpxField_toNat hp (concatRanges_two w r q) (concat_lt (sliceNat_lt w r) (sliceNat_lt w q)) hwidth

end Sys2Proof.Proofs

namespace Sys2Proof

/-! ## The decoder's fields (spec/40_decoder.md): the accessors as arithmetic, and a word packed by shift and or -/

/-! ### The fields that reach bit 31, and the two readings of `IMM16` (R113, R116, R118) -/

section
variable (w : Word)

/-- Nothing lies above `A`, so that the quotient is the field already. -/
theorem fieldA_toNat_eq_div : (fieldA w).toNat = w.toNat / 2 ^ 27 := by
  have := w.isLt
  rw [fieldA_toNat, Nat.mod_eq_of_lt (by omega)]

/-- Nothing lies above `IMM26`, so that the quotient is the field already. -/
theorem fieldImm26_toNat_eq_div : (fieldImm26 w).toNat = w.toNat / 2 ^ 6 := by
  have := w.isLt
  rw [fieldImm26_toNat, Nat.mod_eq_of_lt (by omega)]

theorem imm16u_toNat : (imm16u w).toNat = w.toNat / 2 ^ 6 % 65536 :=
  (BitVec.toNat_setWidth_of_le (by decide)).trans (fieldImm16_toNat w)

theorem imm16s_toInt_eq_fieldImm16 : (imm16s w).toInt = (fieldImm16 w).toInt :=
  BitVec.toInt_signExtend_of_le (by decide)

/-- The two's-complement value: bit 15 of the field is its sign. -/
theorem fieldImm16_toInt : (fieldImm16 w).toInt =
    if w.toNat / 2 ^ 6 % 65536 < 32768 then (w.toNat / 2 ^ 6 % 65536 : Int)
      else (w.toNat / 2 ^ 6 % 65536 : Int) - 65536 := by
  rw [BitVec.toInt_eq_toNat_cond, fieldImm16_toNat]
  split_ifs <;> omega

end

/-! ### Packing by shift and or (R124) -/

/-- A field shifted clear of the value below it meets it in no bit, so that the or is the sum. -/
theorem shiftLeft_or_ofNat {k n m : Nat} (x : BitVec k) (h : m < 2 ^ n) :
    x.setWidth 32 <<< n ||| BitVec.ofNat 32 m = BitVec.ofNat 32 (x.toNat * 2 ^ n + m) := by
  have hshift : x.setWidth 32 <<< n = BitVec.ofNat 32 (x.toNat <<< n) := by
    apply BitVec.eq_of_toNat_eq
    simp [Nat.shiftLeft_eq]
  rw [hshift, ← BitVec.ofNat_or, ← Nat.shiftLeft_add_eq_or_of_lt h, Nat.shiftLeft_eq]

section
variable (op opx : BitVec 6) (a b c : RegIdx) (imm5 : BitVec 5) (imm16 : BitVec 16) (imm26 : BitVec 26)

theorem encodeI_eq_or : encodeI op.toNat a b imm16 =
    a.setWidth 32 <<< 27 ||| b.setWidth 32 <<< 22 ||| imm16.setWidth 32 <<< 6 ||| op.setWidth 32 := by
  have := op.isLt; have := imm16.isLt; have := b.isLt
  rw [BitVec.or_assoc, BitVec.or_assoc, ← BitVec.ofNat_toNat 32 op, shiftLeft_or_ofNat imm16 (by omega),
    shiftLeft_or_ofNat b (by omega), shiftLeft_or_ofNat a (by omega)]
  simp only [encodeI, Nat.add_assoc]

theorem encodeR_eq_or : encodeR opx.toNat a b c imm5 =
    a.setWidth 32 <<< 27 ||| b.setWidth 32 <<< 22 ||| c.setWidth 32 <<< 17 ||| opx.setWidth 32 <<< 11
      ||| imm5.setWidth 32 <<< 6 ||| 0x3A#32 := by
  have := imm5.isLt; have := opx.isLt; have := c.isLt; have := b.isLt
  rw [BitVec.or_assoc, BitVec.or_assoc, BitVec.or_assoc, BitVec.or_assoc, shiftLeft_or_ofNat imm5 (by omega),
    shiftLeft_or_ofNat opx (by omega), shiftLeft_or_ofNat c (by omega), shiftLeft_or_ofNat b (by omega),
    shiftLeft_or_ofNat a (by omega)]
  simp only [encodeR, Nat.add_assoc]

theorem encodeJ_eq_or : encodeJ op.toNat imm26 = imm26.setWidth 32 <<< 6 ||| op.setWidth 32 := by
  have := op.isLt
  rw [← BitVec.ofNat_toNat 32 op, shiftLeft_or_ofNat imm26 (by omega), encodeJ]

end

end Sys2Proof

namespace Sys2Proof.Proofs

/-! ## The statements of spec/40_decoder.md, settled -/

/-- Settles O5: each accessor is a quotient and a remainder of the word. -/
theorem accessorsReadTheirBits : Obligations.AccessorsReadTheirBits := fun w =>
  ⟨fieldOp_toNat w, fieldOpx_toNat w, fieldA_toNat_eq_div w, fieldB_toNat w, fieldC_toNat w, imm16u_toNat w,
    (imm16s_toInt_eq_fieldImm16 w).trans (fieldImm16_toInt w), fieldImm5_toNat w, ctlidx_eq w,
    fieldImm26_toNat_eq_div w⟩

/-- Settles O6: the packing by or is `shiftLeft_or_ofNat` field by field, `simp` reads the fields back by the
rules `fieldOp_encodeI` to `fieldImm26_encodeJ`, and a row's mask fixes `OP` and `OPX` (`Opcode.Matches`). -/
theorem encoderPacksTheFields : Obligations.EncoderPacksTheFields := by
  refine ⟨fun op a b imm16 => ⟨encodeI_eq_or op a b imm16, ?_⟩,
    fun opx a b c imm5 => ⟨encodeR_eq_or opx a b c imm5, ?_⟩,
    fun op imm26 => ⟨encodeJ_eq_or op imm26, ?_⟩, fun _ _ => and_mask_eq_pattern_iff.1⟩
  · simp [op.isLt, imm16u]
  · simp [opx.isLt]
  · simp [op.isLt]

end Sys2Proof.Proofs

namespace Sys2Proof

/-! ## The interpreter's step (spec/41_interpreter_step.md): the fetch, the entry and the end, and that a step answers -/

/-! ### The value of the fetched word (R60, R135) -/

theorem leNat_lt (bs : List Byte) : leNat bs < 256 ^ bs.length := by
  induction bs with
  | nil => exact Nat.one_pos
  | cons b bs ih =>
    have hb := b.isLt
    rw [leNat, List.length_cons, Nat.pow_succ]
    omega

/-- Four bytes fill a word, so their little-endian value loses no bit. -/
theorem wordOfBytes_toNat {bs : List Byte} (h : bs.length = 4) : (wordOfBytes bs).toNat = leNat bs := by
  have hlt := leNat_lt bs
  rw [h] at hlt
  exact (BitVec.toNat_ofNat _ _).trans (Nat.mod_eq_of_lt hlt)

end Sys2Proof

namespace Sys2Proof.Machine

/-! ### The fetch (R135) -/

section
variable {s : State}

/-- The bytes that `MemRead` transfers end before any that cannot be read. -/
theorem State.length_memRead_le {addr : Word} {acc : Access} {j : Nat} (n : Nat)
    (h : s.readableByte acc (lookupAddr addr + j) = none) : (s.memRead addr n acc).length ≤ j := by
  obtain ⟨_, hread, _⟩ := s.memRead_spec addr n acc
  by_contra hlt
  rw [hread j (Nat.lt_of_not_le hlt)] at h
  cases h

theorem State.fetch_of_unreadable {j : Nat} (hj : j < 4)
    (h : s.readableByte fetchAccess (lookupAddr s.pc + j) = none) : s.fetch = none :=
  if_neg (Nat.ne_of_lt (Nat.lt_of_le_of_lt (State.length_memRead_le 4 h) hj))

theorem State.fetch_of_readable {bs : List Byte} (hlen : bs.length = 4)
    (h : s.reads fetchAccess (lookupAddr s.pc) bs) : s.fetch = some (wordOfBytes bs) := by
  have hread : s.memRead s.pc 4 fetchAccess = bs := hlen ▸ State.memRead_of_reads s s.pc fetchAccess bs h
  unfold State.fetch
  rw [hread]
  exact if_pos hlen

theorem stepInstr_of_misaligned (h : s.pc.toNat % 4 ≠ 0) :
    stepInstr s = stopWith .misalignedDestinationAddress s :=
  if_neg (mt (wordAligned_iff s.pc).1 h)

theorem stepInstr_of_fetch_none (hpc : s.pc.toNat % 4 = 0) (h : s.fetch = none) :
    stepInstr s = stopWith .instructionAccessFault s := by
  unfold stepInstr
  rw [if_pos ((wordAligned_iff s.pc).2 hpc), h]

/-- Where one `Step` of the entered machine stops, the step is that stop of the machine before the entry. -/
theorem step_stops_of_stepInstr (he : s.es ≠ .exited) (hq : s.hirq = false) {r : StopReason}
    (h : stepInstr (enter s) = stopWith r (enter s)) : ∃ t, step s = .next t ∧ Stopped r s t :=
  ⟨_, step_of_stepInstr_stop he hq h, enter_raiseStop_spec r s⟩

end

/-! ### The entry, the end of an iteration, and the interrupt request (R131, R132) -/

section
variable {s : State}

theorem enter_of_stopped (h : s.es = .stopped) : enter s = { s with es := .running, sr := none } := by
  unfold enter; rw [h]

theorem enter_of_not_stopped (h : s.es ≠ .stopped) : enter s = s := by
  unfold enter
  split
  case h_1 hs => exact absurd hs h
  case h_2 => rfl
  case h_3 => rfl

/-- Taking a stop is the stop of R273: the reason and `es`, and nothing else. -/
theorem State.raiseStop_spec (r : StopReason) (s : State) : Stopped r s (s.raiseStop r) := by
  obtain ⟨t, ht, hstopped⟩ := stopWith_spec r s
  cases ht
  exact hstopped

theorem finishStep_of_singleStep (hr : s.es = .running) (hs : s.singleStep = true) :
    finishStep s = s.raiseStop .stepComplete := by
  rcases finishStep_cases s with ⟨_, hn | hn⟩ | ⟨h, _⟩
  · exact absurd hr hn
  · rw [hs] at hn; cases hn
  · exact h

@[simp] theorem interruptedState_hirq (s : State) : (interruptedState s).hirq = false := rfl
@[simp] theorem x_interruptedState (s : State) (i : RegIdx) : (interruptedState s).x i = s.x i := x_enter s i

/-- `step_or_run` on an exited machine returns at once (R131, R259). -/
theorem stepOrRun_exited (h : s.es = .exited) (single : Bool) (fuel : Nat) :
    stepOrRun single fuel s = some (.next s) := by
  unfold stepOrRun; rw [h]

end

/-! ### Every word of the base variant has an answer (R141) -/

theorem runBase_of_decode {w : Word} {i : Instr} (h : decode w = .instr i) (s : State) : runBase w s = exec i s := by
  unfold runBase; rw [h]

/-- The base variant never faults nor refuses: a word stops, or runs an instruction, and each of those has an effect
(`exec_effects`). -/
theorem runBase_next (w : Word) (s : State) : ∃ t, runBase w s = .next t := by
  unfold runBase
  split
  case h_1 => exact ⟨_, rfl⟩
  case h_2 o _ =>
    obtain ⟨hpresent, habsent⟩ := gated_spec o s (stopWith .illegalInstructionFormat s)
    cases hf : featurePresent s.cfg o with
    | true => exact ⟨_, hpresent hf⟩
    | false =>
      obtain ⟨t, ht, _⟩ := habsent hf
      exact ⟨t, ht⟩
  case h_3 i _ =>
    obtain ⟨t, ht, _⟩ := exec_effects i s
    exact ⟨t, ht⟩

theorem stepInstr_next {s : State} (h : s.cfg.variant = .base) : ∃ t, stepInstr s = .next t := by
  by_cases hpc : s.pc.toNat % 4 = 0
  · cases hf : s.fetch with
    | none => exact ⟨_, stepInstr_of_fetch_none hpc hf⟩
    | some w =>
      unfold stepInstr
      rw [if_pos ((wordAligned_iff s.pc).2 hpc), hf, h]
      exact runBase_next w s
  · exact ⟨_, stepInstr_of_misaligned hpc⟩

end Sys2Proof.Machine

namespace Sys2Proof.Proofs

/-! ## The statements of spec/41_interpreter_step.md, settled -/

open Sys2Proof.Machine

/-- Settles O10: the alignment of `pc` is tested before the fetch, and both see the entered state as they see `s`. -/
theorem fetchRule : Obligations.FetchRule := by
  intro s he hq
  rw [← lookupAddr_eq_mod]
  refine ⟨fun hpc => ?_, fun hpc ⟨j, hj, hgap⟩ => ?_, fun b0 b1 b2 b3 hread => ?_⟩
  · exact step_stops_of_stepInstr he hq (stepInstr_of_misaligned (by rwa [enter_pc]))
  · have hfetch : (enter s).fetch = none := by rw [fetch_enter, State.fetch_of_unreadable hj hgap]
    exact step_stops_of_stepInstr he hq (stepInstr_of_fetch_none (by rwa [enter_pc]) hfetch)
  · refine ⟨_, State.fetch_of_readable rfl hread, ?_⟩
    rw [wordOfBytes_toNat rfl]
    simp only [leNat]
    omega

/-- Settles O23: an exited machine and the interrupt request have their answers, and one `Step` of the base variant
always has one (`stepInstr_next`). -/
theorem baseVariantAlwaysSteps : Obligations.BaseVariantAlwaysSteps := by
  intro s hbase
  by_cases he : s.es = .exited
  · exact ⟨s, step_exited he⟩
  cases hq : s.hirq with
  | true => exact ⟨_, step_hirq he hq⟩
  | false =>
    obtain ⟨t, ht⟩ := stepInstr_next (s := enter s) (by rwa [enter_cfg])
    exact ⟨finishStep t, by rw [step_of_stepInstr he hq, ht]; rfl⟩

/-- Settles O8: the entered state fetches the same word, and a decoded word runs its instruction. -/
theorem stepRunsTheDecodedInstruction : Obligations.StepRunsTheDecodedInstruction := by
  intro s w i h hi
  have hword := stepInstr_enter_of_fetchesWord h
  obtain ⟨⟨he, hq, _⟩, _, _⟩ := h
  rw [step_of_stepInstr he hq, hword, runBase_of_decode hi]

/-- Settles O9: the two cases of the entry, its frame, and the two cases of the end. -/
theorem enterAndFinishOfAStep : Obligations.EnterAndFinishOfAStep := by
  intro s
  refine ⟨fun h => ?_, enter_of_not_stopped, enter_ec s, enter_pc s, x_enter s, ctlReg_enter s, peek_enter s,
    enter_out s, ?_, fun hr hs => ?_, fun h => ?_⟩
  · rw [enter_of_stopped h]; exact ⟨rfl, rfl⟩
  · exact ⟨enter_sections s, enter_hirq s, enter_cfg s, enter_dpxRegs s, enter_singleStep s, enter_freeCtr s⟩
  · rw [finishStep_of_singleStep hr hs]; exact State.raiseStop_spec _ s
  · exact h.elim finishStep_of_not_running finishStep_of_not_singleStep

/-- Settles O12: the request leads to `interruptedState`, whose other fields are those of `s`. -/
theorem interruptRequestStops : Obligations.InterruptRequestStops := fun s he hq =>
  ⟨interruptedState s, step_hirq he hq, interruptedState_es s, interruptedState_sr s, interruptedState_hirq s,
    interruptedState_ec s, interruptedState_pc s, x_interruptedState s, ctlReg_interruptedState s,
    peek_interruptedState s, interruptedState_out s, interruptedState_sections s, interruptedState_cfg s,
    interruptedState_dpxRegs s⟩

/-- Settles O13: both answer the machine as it is. -/
theorem exitIsFinal : Obligations.ExitIsFinal := fun _ single fuel h =>
  ⟨step_exited h, stepOrRun_exited h single fuel⟩

end Sys2Proof.Proofs

namespace Sys2Proof.Machine

/-! ## Register arithmetic, logic, compare, shift, rotate (spec/42_alu_register.md): how a word of a row runs, and the
values that the rules write -/

/-! ### A word of a row runs as its instruction, or stops on its format (R92, R137) -/

section
variable {w : Word} {i : Instr} {s : State} {legal : Prop}

/-- A recognised word whose feature is present: the format check decides between the two sides of `RunsAs`. -/
theorem runsAs_of_classify (hc : classify w = some i.opcode) (hfeature : featurePresent s.cfg i.opcode = true)
    (hformat : formatOk i.opcode w = true ↔ legal) (hencode : legal → encode i = w) : RunsAs w legal i s := by
  refine ⟨fun h => ?_, fun h => ?_⟩
  · rw [runBase_of_legal hc (hformat.2 h), ← hencode h, operands_encode]
  · rw [runBase_of_illegal hc (Bool.eq_false_iff.2 (mt hformat.1 h)), (gated_spec _ _ _).1 hfeature]
    exact stopWith_spec _ s

end

section
variable {opx : Nat} {i : Instr} {a b c : RegIdx} {imm5 : BitVec 5} {s : State}

/-- Recognition reads `OPX` alone: a word with the `OPX` of an instruction's word is of the instruction's row. -/
theorem classify_encodeR_of_encode {a' b' c' : RegIdx} {imm5' : BitVec 5} (hopx : opx < 64)
    (hencode : encode i = encodeR opx a' b' c' imm5') : classify (encodeR opx a b c imm5) = some i.opcode := by
  rw [← classify_encode i, hencode, classify_encodeR _ _ _ _ _ hopx, classify_encodeR _ _ _ _ _ hopx]

/-- The rows with three register operands: `IMM5` is unused and must be 0. -/
theorem runsAs_imm5_zero (hencode : encode i = encodeR opx a b c 0) (hopx : opx < 64 := by decide)
    (hformat : ∀ w, formatOk i.opcode w = decide (fieldImm5 w = 0) := by exact fun _ => rfl)
    (hfeature : featurePresent s.cfg i.opcode = true := by rfl) : RunsAs (encodeR opx a b c imm5) (imm5 = 0) i s := by
  refine runsAs_of_classify (classify_encodeR_of_encode hopx hencode) hfeature ?_ ?_
  · rw [hformat, decide_eq_true_iff, fieldImm5_encodeR _ _ _ _ _ hopx]
  · rintro rfl
    exact hencode

/-- The rows with a count in `IMM5`: the field `B` is unused and must be 0. -/
theorem runsAs_fieldB_zero (hencode : encode i = encodeR opx a 0 c imm5) (hopx : opx < 64 := by decide)
    (hformat : ∀ w, formatOk i.opcode w = decide (fieldB w = 0) := by exact fun _ => rfl)
    (hfeature : featurePresent s.cfg i.opcode = true := by rfl) : RunsAs (encodeR opx a b c imm5) (b = 0) i s := by
  refine runsAs_of_classify (classify_encodeR_of_encode hopx hencode) hfeature ?_ ?_
  · rw [hformat, decide_eq_true_iff, fieldB_encodeR _ _ _ _ _ hopx]
  · rintro rfl
    exact hencode

end

/-- An instruction whose rule is one write completes with any spelling of the value it writes. -/
theorem completesWith_of_writeBack {i : Instr} {d : RegIdx} {u v : Word} {s : State}
    (h : exec i s = writeBack d u s) (hv : u = v := by rfl) : CompletesWith i d v s := by
  rw [CompletesWith, h, ← hv]
  exact writeBack_spec d u s

/-! ### Sum and difference over the integers (R151, R152) -/

theorem add_eq_ofNat_mod (u v : Word) : u + v = BitVec.ofNat 32 ((u.toNat + v.toNat) % 2 ^ 32) :=
  BitVec.eq_of_toNat_eq (by rw [BitVec.toNat_add, BitVec.toNat_ofNat, Nat.mod_mod])

theorem sub_eq_ofInt (u v : Word) : u - v = BitVec.ofInt 32 (u.toInt - v.toInt) :=
  BitVec.eq_of_toInt_eq (by rw [BitVec.toInt_sub, BitVec.toInt_ofInt])

/-! ### The bit that `nor` writes (R156) -/

theorem getLsbD_nor (u v : Word) {k : Nat} (hk : k < 32) :
    (~~~(u ||| v)).getLsbD k = !(u.getLsbD k || v.getLsbD k) := by
  rw [BitVec.getLsbD_not, decide_eq_true hk, Bool.true_and, BitVec.getLsbD_or]

/-! ### The truth value of an order (R157 to R162) -/

theorem decide_eq_iff_toNat (u v : Word) : decide (u = v) = true ↔ u.toNat = v.toNat := by
  rw [decide_eq_true_iff, BitVec.toNat_eq]

theorem decide_ne_iff_toNat (u v : Word) : decide (u ≠ v) = true ↔ ¬ u.toNat = v.toNat := by
  rw [decide_eq_true_iff, ne_eq, BitVec.toNat_eq]

theorem geS_iff (u v : Word) : geS u v = true ↔ ¬ u.toInt < v.toInt := by
  rw [geS, decide_eq_true_iff, Int.not_lt]

theorem geU_iff (u v : Word) : geU u v = true ↔ ¬ u.toNat < v.toNat := by
  rw [geU, decide_eq_true_iff, Nat.not_lt]

theorem ltS_iff (u v : Word) : ltS u v = true ↔ u.toInt < v.toInt := decide_eq_true_iff

theorem ltU_iff (u v : Word) : ltU u v = true ↔ u.toNat < v.toNat := decide_eq_true_iff

section
variable {p : Bool} {q : Prop} [Decidable q]

theorem truthWord_of_iff (h : p = true ↔ q) : truthWord p = if q then 1 else 0 := by
  simp only [truthWord, h]

theorem truthWord_of_iff_not (h : p = true ↔ ¬ q) : truthWord p = if q then 0 else 1 := by
  rw [truthWord_of_iff h, ite_not]

end

/-! ### The bits of a shifted word (R163 to R168) -/

/-- The low five bits of the register, as arithmetic. -/
theorem regCount_eq_mod (v : Word) : regCount v = v.toNat % 32 := by
  simp only [regCount, extract_toNat, Nat.reducePow, Nat.div_one]

section
variable (u : Word) (n : Nat) {k : Nat}

theorem getLsbD_shiftLeft_word (hk : k < 32) : (u <<< n).getLsbD k = (decide (n ≤ k) && u.getLsbD (k - n)) := by
  rw [BitVec.getLsbD_shiftLeft, decide_eq_true hk, Bool.true_and, ← decide_not]
  simp only [Nat.not_lt]

theorem getLsbD_ushiftRight_word : (u >>> n).getLsbD k = (decide (k + n < 32) && u.getLsbD (k + n)) := by
  rw [BitVec.getLsbD_ushiftRight, Nat.add_comm n k]
  by_cases h : k + n < 32
  · rw [decide_eq_true h, Bool.true_and]
  · rw [decide_eq_false h, Bool.false_and, BitVec.getLsbD_of_ge _ _ (Nat.not_lt.1 h)]

/-- A vacated place copies bit 31 (R167). -/
theorem getLsbD_sshiftRight_word (hk : k < 32) :
    (u.sshiftRight n).getLsbD k = u.getLsbD (if k + n < 32 then k + n else 31) := by
  rw [BitVec.getLsbD_sshiftRight, decide_eq_false (Nat.not_le.2 hk), Bool.not_false, Bool.true_and, Nat.add_comm n k,
    apply_ite u.getLsbD, BitVec.msb_eq_getLsbD_last]

end

/-! ### The bits of a rotated word (R169 to R171): rotation by 0 to 31 places is the library's -/

section
variable (u : Word) {n : Nat} (hn : n < 32)
include hn

theorem rotateLeft_eq_library : rotateLeft u n = u.rotateLeft n := by
  unfold rotateLeft
  rw [BitVec.rotateLeft_def, Nat.mod_eq_of_lt hn]
  split
  case isTrue h => rw [h, BitVec.ushiftRight_eq_zero (Nat.le_refl 32)]; simp
  case isFalse => rfl

theorem rotateRight_eq_library : rotateRight u n = u.rotateRight n := by
  unfold rotateRight
  rw [BitVec.rotateRight_def, Nat.mod_eq_of_lt hn]
  split
  case isTrue h => rw [h, BitVec.shiftLeft_eq_zero (Nat.le_refl 32)]; simp
  case isFalse => rfl

/-- A bit that leaves at bit 31 re-enters at bit 0 (R169). -/
theorem getLsbD_rotateLeft_add_mod {k : Nat} (hk : k < 32) :
    (rotateLeft u n).getLsbD ((k + n) % 32) = u.getLsbD k := by
  rw [rotateLeft_eq_library u hn, BitVec.getLsbD_rotateLeft, Nat.mod_eq_of_lt hn, Bool.cond_decide]
  by_cases h : k + n < 32
  · rw [Nat.mod_eq_of_lt h, if_neg (Nat.not_lt.2 (Nat.le_add_left n k)), decide_eq_true h, Bool.true_and,
      Nat.add_sub_cancel]
  · have hwrap : (k + n) % 32 = k + n - 32 := by omega
    have hback : 32 - n + (k + n - 32) = k := by omega
    rw [hwrap, if_pos (by omega), hback]

theorem getLsbD_rotateRight_word {k : Nat} (hk : k < 32) :
    (rotateRight u n).getLsbD k = u.getLsbD ((k + n) % 32) := by
  rw [rotateRight_eq_library u hn, BitVec.getLsbD_rotateRight, Nat.mod_eq_of_lt hn, Bool.cond_decide]
  by_cases h : k + n < 32
  · rw [if_pos (by omega), Nat.mod_eq_of_lt h, Nat.add_comm]
  · have hwrap : (k + n) % 32 = k - (32 - n) := by omega
    rw [if_neg (by omega), decide_eq_true hk, Bool.true_and, hwrap]

end

end Sys2Proof.Machine

namespace Sys2Proof.Proofs

/-! ## The statements of spec/42_alu_register.md, settled -/

open Sys2Proof.Machine

/-- Settles O25: the machine's sum and difference are those of the integers, reduced to a word. -/
theorem addAndSub : Obligations.AddAndSub := fun c a b imm5 s =>
  ⟨completesWith_of_writeBack rfl (add_eq_ofNat_mod (s.x a) (s.x b)), runsAs_imm5_zero rfl,
    completesWith_of_writeBack rfl (sub_eq_ofInt (s.x a) (s.x b)), runsAs_imm5_zero rfl⟩

/-- Settles O26: each rule writes one bitwise operation of the library. -/
theorem bitwiseLogic : Obligations.BitwiseLogic := fun c a b imm5 s =>
  ⟨⟨s.x a &&& s.x b, fun _ _ => BitVec.getLsbD_and, completesWith_of_writeBack rfl⟩, runsAs_imm5_zero rfl,
    ⟨s.x a ||| s.x b, fun _ _ => BitVec.getLsbD_or, completesWith_of_writeBack rfl⟩, runsAs_imm5_zero rfl,
    ⟨s.x a ^^^ s.x b, fun _ _ => BitVec.getLsbD_xor, completesWith_of_writeBack rfl⟩, runsAs_imm5_zero rfl,
    ⟨~~~(s.x a ||| s.x b), fun _ hk => getLsbD_nor _ _ hk, completesWith_of_writeBack rfl⟩, runsAs_imm5_zero rfl⟩

/-- Settles O27: each rule writes the truth value of its order. -/
theorem registerCompares : Obligations.RegisterCompares := fun c a b imm5 s =>
  ⟨completesWith_of_writeBack rfl (truthWord_of_iff (decide_eq_iff_toNat _ _)), runsAs_imm5_zero rfl,
    completesWith_of_writeBack rfl (truthWord_of_iff_not (decide_ne_iff_toNat _ _)), runsAs_imm5_zero rfl,
    completesWith_of_writeBack rfl (truthWord_of_iff_not (geS_iff _ _)), runsAs_imm5_zero rfl,
    completesWith_of_writeBack rfl (truthWord_of_iff_not (geU_iff _ _)), runsAs_imm5_zero rfl,
    completesWith_of_writeBack rfl (truthWord_of_iff (ltS_iff _ _)), runsAs_imm5_zero rfl,
    completesWith_of_writeBack rfl (truthWord_of_iff (ltU_iff _ _)), runsAs_imm5_zero rfl⟩

/-- Settles O28: the count is `regCount`, and each rule writes one shift of the library. -/
theorem shiftsByRegister : Obligations.ShiftsByRegister := by
  intro c a b imm5 s n
  have hn : regCount (s.x b) = n := regCount_eq_mod (s.x b)
  rw [← hn]
  exact
    ⟨⟨s.x a <<< regCount (s.x b), fun _ hk => getLsbD_shiftLeft_word _ _ hk, completesWith_of_writeBack rfl⟩,
      runsAs_imm5_zero rfl,
      ⟨s.x a >>> regCount (s.x b), fun _ _ => getLsbD_ushiftRight_word _ _, completesWith_of_writeBack rfl⟩,
      runsAs_imm5_zero rfl,
      ⟨(s.x a).sshiftRight (regCount (s.x b)), fun _ hk => getLsbD_sshiftRight_word _ _ hk,
        completesWith_of_writeBack rfl⟩,
      runsAs_imm5_zero rfl⟩

/-- Settles O29: as for the register forms, with the count in the word. -/
theorem shiftsByImmediate : Obligations.ShiftsByImmediate := fun c a b imm5 s =>
  ⟨⟨s.x a <<< imm5.toNat, fun _ hk => getLsbD_shiftLeft_word _ _ hk, completesWith_of_writeBack rfl⟩,
    runsAs_fieldB_zero rfl,
    ⟨s.x a >>> imm5.toNat, fun _ _ => getLsbD_ushiftRight_word _ _, completesWith_of_writeBack rfl⟩,
    runsAs_fieldB_zero rfl,
    ⟨(s.x a).sshiftRight imm5.toNat, fun _ hk => getLsbD_sshiftRight_word _ _ hk, completesWith_of_writeBack rfl⟩,
    runsAs_fieldB_zero rfl⟩

/-- Settles O30: both kinds of count are below 32, where the rules' rotations are the library's. -/
theorem rotates : Obligations.Rotates := by
  intro c a b imm5 s
  have hreg : regCount (s.x b) < 32 := (regCount_eq_mod (s.x b)).trans_lt (Nat.mod_lt _ (by decide))
  rw [← regCount_eq_mod]
  exact
    ⟨⟨rotateLeft (s.x a) (regCount (s.x b)), fun _ hk => getLsbD_rotateLeft_add_mod _ hreg hk,
        completesWith_of_writeBack rfl⟩,
      runsAs_imm5_zero rfl,
      ⟨rotateLeft (s.x a) imm5.toNat, fun _ hk => getLsbD_rotateLeft_add_mod _ imm5.isLt hk,
        completesWith_of_writeBack rfl⟩,
      runsAs_fieldB_zero rfl,
      ⟨rotateRight (s.x a) (regCount (s.x b)), fun _ hk => getLsbD_rotateRight_word _ hreg hk,
        completesWith_of_writeBack rfl⟩,
      runsAs_imm5_zero rfl⟩

end Sys2Proof.Proofs

namespace Sys2Proof.Machine

/-! ## Multiply and divide (spec/43_multiply_divide.md): how a word of a gated row runs, and the values that the rules
write -/

/-! ### A word of a gated row: the feature flag, then the format (R180) -/

section
variable {w : Word} {i : Instr} {s : State} {feature : Bool} {legal : Prop}

/-- A recognised word without its feature stops, whatever its other fields. -/
theorem runBase_stops_of_absent {o : Opcode} (hc : classify w = some o) (ha : featurePresent s.cfg o = false) :
    ∃ t, runBase w s = .next t ∧ Stopped .unimplementedInstruction s t := by
  rw [runBase_of_absent hc ha]
  exact stopWith_spec _ s

/-- The gate decides between the stop and a run as a word of an ungated row. -/
theorem runsGated_of_runsAs (hc : classify w = some i.opcode) (hfeature : featurePresent s.cfg i.opcode = feature)
    (hruns : feature = true → RunsAs w legal i s) : RunsGated w (feature = true) legal i s :=
  ⟨fun h => runBase_stops_of_absent hc (hfeature.trans (Bool.eq_false_iff.2 h)), hruns⟩

/-- The gated rows with three register operands. -/
theorem runsGated_imm5_zero {opx : Nat} {a b c : RegIdx} {imm5 : BitVec 5} (hencode : encode i = encodeR opx a b c 0)
    (hopx : opx < 64 := by decide)
    (hformat : ∀ w, formatOk i.opcode w = decide (fieldImm5 w = 0) := by exact fun _ => rfl)
    (hfeature : featurePresent s.cfg i.opcode = feature := by rfl) :
    RunsGated (encodeR opx a b c imm5) (feature = true) (imm5 = 0) i s :=
  runsGated_of_runsAs (classify_encodeR_of_encode hopx hencode) hfeature fun h =>
    runsAs_imm5_zero hencode hopx hformat (hfeature.trans h)

/-- A gated row without a format stop: every one of its words is the word of an instruction. -/
theorem runsGated_encode (hi : WellFormed i) (hfeature : featurePresent s.cfg i.opcode = feature := by rfl) :
    RunsGated (encode i) (feature = true) True i s :=
  runsGated_of_runsAs (classify_encode i) hfeature fun h =>
    runsAs_of_classify (classify_encode i) (hfeature.trans h) (iff_true_intro (formatOk_encode hi)) fun _ => rfl

/-- A gated instruction whose rule is one write completes once its feature is present. -/
theorem completesWith_of_gated {d : RegIdx} {u v : Word} (hfeature : featurePresent s.cfg i.opcode = true)
    (h : exec i s = gated i.opcode s (writeBack d u s)) (hv : u = v := by rfl) : CompletesWith i d v s :=
  completesWith_of_writeBack (h.trans ((gated_spec _ s _).1 hfeature)) hv

end

/-! ### The low word of a product (R181, R182) -/

section
variable (u v : Word)

theorem mulLow_eq_ofNat_mod : mulLow u v = BitVec.ofNat 32 (u.toNat * v.toNat % 2 ^ 32) :=
  BitVec.eq_of_toNat_eq (by rw [mulLow, BitVec.toNat_ofNat, BitVec.toNat_ofNat, Nat.mod_mod])

/-- Reduction to a word is a ring homomorphism from the integers, so each operand may be read signed or unsigned. -/
theorem mulLow_eq_ofInt : mulLow u v = BitVec.ofInt 32 (u.toInt * v.toInt) := by
  rw [mulLow, BitVec.ofNat_mul, BitVec.ofInt_mul]
  simp only [BitVec.ofNat_toNat, BitVec.setWidth_eq, BitVec.ofInt_toInt]

end

/-- The sign extension of the immediate keeps its value. -/
theorem ofInt_mul_immS (u : Word) (imm16 : BitVec 16) :
    BitVec.ofInt 32 (u.toInt * (immS imm16).toInt) = BitVec.ofInt 32 (u.toInt * imm16.toInt) := by
  rw [immS, BitVec.toInt_signExtend_of_le (by decide)]

/-! ### The high word of a product (R183 to R185) -/

/-- Bits 63 to 32 of an integer's 64-bit form are its floor quotient by 2^32. -/
theorem extractHigh_ofInt (z : Int) :
    (BitVec.ofInt 64 z).extractLsb' 32 32 = BitVec.ofInt 32 (z.fdiv (2 ^ 32)) := by
  rw [Int.fdiv_eq_ediv_of_nonneg z (by decide)]
  apply BitVec.eq_of_toNat_eq
  rw [BitVec.extractLsb'_toNat, Nat.shiftRight_eq_div_pow, BitVec.toNat_ofInt, BitVec.toNat_ofInt]
  omega

section
variable (u v : Word)

theorem setWidth_eq_ofInt : u.setWidth 64 = BitVec.ofInt 64 u.toNat := by
  rw [BitVec.ofInt_natCast, BitVec.ofNat_toNat]

theorem mulHighSS_eq_extract : mulHighSS u v = (u.signExtend 64 * v.signExtend 64).extractLsb' 32 32 := by
  rw [BitVec.signExtend, BitVec.signExtend, ← BitVec.ofInt_mul, extractHigh_ofInt, mulHighSS]

theorem mulHighSU_eq_extract : mulHighSU u v = (u.signExtend 64 * v.setWidth 64).extractLsb' 32 32 := by
  rw [BitVec.signExtend, setWidth_eq_ofInt, ← BitVec.ofInt_mul, extractHigh_ofInt, mulHighSU]

theorem mulHighUU_eq_extract : mulHighUU u v = (u.setWidth 64 * v.setWidth 64).extractLsb' 32 32 := by
  rw [setWidth_eq_ofInt, setWidth_eq_ofInt, ← BitVec.ofInt_mul, extractHigh_ofInt, mulHighUU, ← BitVec.ofInt_natCast,
    Int.ofNat_fdiv, Int.natCast_mul, Int.natCast_pow, Int.cast_ofNat_Int]

end

/-! ### The quotient (R186, R187) -/

/-- The quotient rounded toward zero, by the sign and the size of its operands. -/
theorem tdiv_eq_sign_mul_natAbs (m n : Int) :
    m.tdiv n = m.sign * n.sign * ((m.natAbs / n.natAbs : Nat) : Int) := by
  have hsize : (m.tdiv n).natAbs = m.natAbs / n.natAbs := Int.natAbs_tdiv m n
  rw [← Int.sign_mul_natAbs (m.tdiv n), Int.sign_tdiv, hsize]
  split
  case isTrue h => rw [Nat.div_eq_of_lt h, Int.natCast_zero, Int.mul_zero, Int.mul_zero]
  case isFalse => rfl

section
variable {u v : Word}

theorem divSigned_zero (hv : v = 0) : divSigned u v = 0x80000000#32 := if_pos hv

theorem divSigned_overflow (hu : u = 0x80000000#32) (hv : v = 0xFFFFFFFF#32) : divSigned u v = 0x7FFFFFFF#32 := by
  rw [hu, hv]; decide

theorem divSigned_eq_ofInt (hv : v ≠ 0) (h : ¬ (u = 0x80000000#32 ∧ v = 0xFFFFFFFF#32)) :
    divSigned u v = BitVec.ofInt 32 (u.toInt.tdiv v.toInt) := by
  rw [divSigned, if_neg hv, if_neg (by simpa using h)]

/-- Only the overflow pair has a quotient outside the signed words. -/
theorem divSigned_toInt (hv : v ≠ 0) (h : ¬ (u = 0x80000000#32 ∧ v = 0xFFFFFFFF#32)) :
    (divSigned u v).toInt = u.toInt.sign * v.toInt.sign * ((u.toInt.natAbs / v.toInt.natAbs : Nat) : Int) := by
  rw [divSigned_eq_ofInt hv h, BitVec.toInt_ofInt, ← BitVec.toInt_sdiv,
    BitVec.toInt_sdiv_of_ne_or_ne u v (not_and_or.1 h), tdiv_eq_sign_mul_natAbs]

theorem divUnsigned_zero (hv : v = 0) : divUnsigned u v = 0xFFFFFFFF#32 := if_pos hv

theorem divUnsigned_toNat (hv : v ≠ 0) : (divUnsigned u v).toNat = u.toNat / v.toNat := by
  rw [divUnsigned, if_neg hv, ← BitVec.udiv_def, BitVec.toNat_udiv]

end

end Sys2Proof.Machine

namespace Sys2Proof.Proofs

/-! ## The statements of spec/43_multiply_divide.md, settled -/

open Sys2Proof.Machine

/-- Settles O31: the gate side of each row, which every word of the row has, whatever its format. -/
theorem featureGates : Obligations.FeatureGates := by
  intro a b c imm5 imm16 s
  refine ⟨fun h => ⟨?_, ?_⟩, fun h => ⟨?_, ?_, ?_⟩, fun h => ⟨?_, ?_⟩⟩ <;> replace h := Bool.eq_false_iff.1 h
  · exact (runsGated_imm5_zero (i := .mul c a b) rfl).1 h
  · exact (runsGated_encode (i := .muli b a imm16) rfl).1 h
  · exact (runsGated_imm5_zero (i := .mulxss c a b) rfl).1 h
  · exact (runsGated_imm5_zero (i := .mulxsu c a b) rfl).1 h
  · exact (runsGated_imm5_zero (i := .mulxuu c a b) rfl).1 h
  · exact (runsGated_imm5_zero (i := .div c a b) rfl).1 h
  · exact (runsGated_imm5_zero (i := .divu c a b) rfl).1 h

/-- Settles O32: the low word of a product does not depend on the signs, and the immediate keeps its value. -/
theorem multiplyLow : Obligations.MultiplyLow := fun c a b imm5 imm16 s =>
  ⟨fun h =>
    ⟨completesWith_of_gated h rfl (mulLow_eq_ofNat_mod _ _), completesWith_of_gated h rfl (mulLow_eq_ofInt _ _),
      completesWith_of_gated h rfl (ofInt_mul_immS _ _)⟩,
    runsGated_imm5_zero rfl, runsGated_encode (i := .muli b a imm16) rfl⟩

/-- Settles O33: each rule's floor quotient is the high word of the 64-bit product. -/
theorem multiplyHigh : Obligations.MultiplyHigh := fun c a b imm5 s =>
  ⟨fun h =>
    ⟨completesWith_of_gated h rfl (mulHighSS_eq_extract _ _), completesWith_of_gated h rfl (mulHighSU_eq_extract _ _),
      completesWith_of_gated h rfl (mulHighUU_eq_extract _ _)⟩,
    runsGated_imm5_zero rfl, runsGated_imm5_zero rfl, runsGated_imm5_zero rfl⟩

/-- Settles O34: the special operands have their results, and the others the quotient of the integers. -/
theorem divide : Obligations.Divide := by
  intro c a b imm5 s
  refine ⟨fun hfeature => ⟨fun hzero => ⟨?_, ?_⟩, fun hmin hneg => ?_, fun hb hpair => ?_, fun hb => ?_⟩,
    runsGated_imm5_zero rfl, runsGated_imm5_zero rfl⟩
  · exact completesWith_of_gated hfeature rfl (divSigned_zero hzero)
  · exact completesWith_of_gated hfeature rfl (divUnsigned_zero hzero)
  · exact completesWith_of_gated hfeature rfl (divSigned_overflow hmin hneg)
  · exact ⟨divSigned (s.x a) (s.x b), divSigned_toInt hb hpair, completesWith_of_gated hfeature rfl⟩
  · exact ⟨divUnsigned (s.x a) (s.x b), divUnsigned_toNat hb, completesWith_of_gated hfeature rfl⟩

end Sys2Proof.Proofs

namespace Sys2Proof

/-! ## Immediate instructions (spec/44_immediate.md) and the syscall trigger (spec/47_system.md R258): how a word of
a row without a format stop decodes, the values that the rules write, and the cases of the syscall -/

/-- The word of a well-formed instruction decodes to it, however the word is spelled. -/
theorem decode_of_encode {i : Instr} {w : Word} (hencode : encode i = w) (hi : WellFormed i := by rfl) :
    decode w = .instr i :=
  hencode ▸ Proofs.decodeInvertsEncode i hi

end Sys2Proof

namespace Sys2Proof.Machine

theorem runBase_of_encode {i : Instr} {w : Word} {s : State} (hencode : encode i = w) (hi : WellFormed i := by rfl) :
    runBase w s = exec i s :=
  runBase_of_decode (decode_of_encode hencode hi) s

/-! ### The three forms in which an immediate enters an operation (R85) -/

section
variable (imm16 : BitVec 16)

theorem immS_toInt : (immS imm16).toInt = imm16.toInt := BitVec.toInt_signExtend_of_le (by decide)

theorem immU_toNat : (immU imm16).toNat = imm16.toNat := BitVec.toNat_setWidth_of_le (by decide)

theorem getLsbD_immU {k : Nat} (hk : k < 32) : (immU imm16).getLsbD k = imm16.getLsbD k := by
  rw [immU, BitVec.getLsbD_setWidth, decide_eq_true hk, Bool.true_and]

theorem getLsbD_immHigh {k : Nat} (hk : k < 32) :
    (immHigh imm16).getLsbD k = (decide (16 ≤ k) && imm16.getLsbD (k - 16)) := by
  have hlow : (immU imm16).getLsbD (k - 16) = imm16.getLsbD (k - 16) :=
    getLsbD_immU imm16 (Nat.lt_of_le_of_lt (Nat.sub_le k 16) hk)
  rw [immHigh, getLsbD_shiftLeft_word _ _ hk, ← hlow, immU]

/-- The sum with the sign-extended immediate is that of the integers, reduced to a word (R191). -/
theorem add_immS_eq_ofInt (u : Word) : u + immS imm16 = BitVec.ofInt 32 (u.toInt + imm16.toInt) := by
  rw [BitVec.ofInt_add, BitVec.ofInt_toInt, immS, BitVec.signExtend]

end

theorem decide_eq_iff_toInt (u v : Word) : decide (u = v) = true ↔ u.toInt = v.toInt := by
  rw [decide_eq_true_iff, BitVec.toInt_inj]

theorem decide_ne_iff_toInt (u v : Word) : decide (u ≠ v) = true ↔ ¬ u.toInt = v.toInt := by
  rw [decide_eq_true_iff, ne_eq, BitVec.toInt_inj]

/-! ### The ordinary form of `ori` (R193) -/

theorem exec_ori_of_not_trigger {b a : RegIdx} (h : ¬ (a = 0 ∧ b = 0)) (imm16 : BitVec 16) (s : State) :
    exec (.ori b a imm16) s = writeBack b (s.x a ||| immU imm16) s :=
  if_neg (by simpa using h)

/-! ### The syscall trigger (R258) -/

/-- An exit changes the execution state and the exit code alone; the reason stays (log 2). -/
theorem exitWith_spec (code : BitVec 8) (s : State) : ∃ t, exitWith code s = .next t ∧ Exited code s t :=
  ⟨_, rfl, rfl, rfl, rfl, rfl, fun _ => rfl, fun _ => rfl, State.peek_congr rfl rfl, rfl,
    rfl, rfl, rfl, rfl, rfl, rfl⟩

/-- Completion with pairs appended to the output trace. -/
theorem complete_output_spec (l : List (Word × List Byte)) (s : State) :
    ∃ t, complete { s with out := s.out ++ l } = .next t ∧ Output l (s.pc + 4) s t :=
  ⟨_, rfl, rfl, rfl, fun _ => rfl, fun _ => rfl, State.peek_congr rfl rfl, ⟨rfl, rfl, rfl⟩, rfl, rfl,
    rfl, rfl, rfl, rfl⟩

section
variable {s : State}

/-- A move is the output of no pair. -/
theorem Moved.output_nil {p : Word} {t : State} (h : Moved p s t) : Output [] p s t :=
  ⟨h.out.trans (List.append_nil _).symm, h.pc, h.regs, h.ctl, h.mem, h.run, h.block⟩

theorem exec_ori_exit : exec (.ori 0 0 Config.magicExit) s = exitWith ((s.x 4).setWidth 8) s := rfl

/-- That the two immediates differ (R5) lets the `write` syscall be reached. -/
theorem exec_ori_write (hvalid : s.cfg.valid) : exec (.ori 0 0 s.cfg.magicWrite) s = syscallWrite s :=
  (if_neg hvalid).trans (if_pos rfl)

theorem exec_ori_other {imm16 : BitVec 16} (hexit : imm16 ≠ Config.magicExit) (hwrite : imm16 ≠ s.cfg.magicWrite) :
    exec (.ori 0 0 imm16) s = complete s :=
  (if_neg hexit).trans (if_neg hwrite)

theorem syscallWrite_of_unreadable {j : Nat} (hj : j < (s.x 6).toNat)
    (h : s.readableByte dataAccess (lookupAddr (s.x 5) + j) = none) : syscallWrite s = stopWith .dataAccessFault s :=
  if_pos (Nat.lt_of_le_of_lt (State.length_memRead_le _ h) hj)

/-- With the whole buffer readable, the file descriptor decides whether it is output. -/
theorem syscallWrite_of_reads {bs : List Byte} (hlen : bs.length = (s.x 6).toNat)
    (h : s.reads dataAccess (lookupAddr (s.x 5)) bs) :
    syscallWrite s =
      if s.x 4 = 1 ∨ s.x 4 = 2 then complete { s with out := s.out ++ [(s.x 4, bs)] } else complete s := by
  have hread : s.memRead (s.x 5) bs.length dataAccess = bs := State.memRead_of_reads s (s.x 5) dataAccess bs h
  unfold syscallWrite
  simp only [← hlen, hread, Nat.lt_irrefl, if_false, Bool.or_eq_true, decide_eq_true_eq]

end

end Sys2Proof.Machine

namespace Sys2Proof.Proofs

/-! ## The statements of spec/44_immediate.md, settled -/

open Sys2Proof.Machine

/-- Settles O7: fourteen of the words are those of the instructions named; the last two fail the format check and the
recognition. -/
theorem sampleWordsDecode : Obligations.SampleWordsDecode :=
  ⟨decode_of_encode rfl, decode_of_encode rfl, decode_of_encode rfl, decode_of_encode rfl, decode_of_encode rfl,
    decode_of_encode rfl, decode_of_encode rfl, decode_of_encode rfl, decode_of_encode rfl, decode_of_encode rfl,
    decode_of_encode rfl, decode_of_encode rfl, decode_of_encode rfl, decode_of_encode rfl,
    decode_illegal (o := .brk) rfl rfl, decode_unrecognised rfl⟩

/-- Settles O35: each rule writes one operation of the library, on the immediate in its form. -/
theorem immediateArithmeticAndLogic : Obligations.ImmediateArithmeticAndLogic := fun b a imm16 s =>
  ⟨completesWith_of_writeBack rfl (add_immS_eq_ofInt imm16 (s.x a)), runBase_of_encode rfl,
    ⟨s.x a &&& immU imm16, fun k hk => by rw [BitVec.getLsbD_and, getLsbD_immU imm16 hk],
      completesWith_of_writeBack rfl⟩,
    runBase_of_encode rfl,
    ⟨s.x a ^^^ immU imm16, fun k hk => by rw [BitVec.getLsbD_xor, getLsbD_immU imm16 hk],
      completesWith_of_writeBack rfl⟩,
    runBase_of_encode rfl,
    ⟨s.x a &&& immHigh imm16, fun k hk => by rw [BitVec.getLsbD_and, getLsbD_immHigh imm16 hk],
      completesWith_of_writeBack rfl⟩,
    runBase_of_encode rfl,
    ⟨s.x a ||| immHigh imm16, fun k hk => by rw [BitVec.getLsbD_or, getLsbD_immHigh imm16 hk],
      completesWith_of_writeBack rfl⟩,
    runBase_of_encode rfl,
    ⟨s.x a ^^^ immHigh imm16, fun k hk => by rw [BitVec.getLsbD_xor, getLsbD_immHigh imm16 hk],
      completesWith_of_writeBack rfl⟩,
    runBase_of_encode rfl⟩

/-- Settles O36: either extension keeps the immediate's value, and each rule writes the truth value of its order. -/
theorem immediateCompares : Obligations.ImmediateCompares := by
  intro b a imm16 s
  rw [← immS_toInt, ← immU_toNat]
  exact
    ⟨completesWith_of_writeBack rfl (truthWord_of_iff (decide_eq_iff_toInt _ _)), runBase_of_encode rfl,
      completesWith_of_writeBack rfl (truthWord_of_iff_not (decide_ne_iff_toInt _ _)), runBase_of_encode rfl,
      completesWith_of_writeBack rfl (truthWord_of_iff_not (geS_iff _ _)), runBase_of_encode rfl,
      completesWith_of_writeBack rfl (truthWord_of_iff (ltS_iff _ _)), runBase_of_encode rfl,
      completesWith_of_writeBack rfl (truthWord_of_iff_not (geU_iff _ _)), runBase_of_encode rfl,
      completesWith_of_writeBack rfl (truthWord_of_iff (ltU_iff _ _)), runBase_of_encode rfl⟩

/-- Settles O37: the ordinary form writes one word; the trigger exits, runs the `write` syscall on a buffer that is
readable or not, or only completes. -/
theorem oriAndSyscalls : Obligations.OriAndSyscalls := by
  intro b a imm16 s
  rw [← lookupAddr_eq_mod]
  refine ⟨runBase_of_encode rfl, fun hform => ?_, ?_, fun hvalid => ?_, fun hexit hwrite => ?_⟩
  · exact ⟨s.x a ||| immU imm16, fun k hk => by rw [BitVec.getLsbD_or, getLsbD_immU imm16 hk],
      completesWith_of_writeBack (exec_ori_of_not_trigger hform imm16 s)⟩
  · rw [← BitVec.setWidth_eq_extractLsb' (by decide)]
    exact exitWith_spec _ s
  · rw [StopsWith, exec_ori_write hvalid]
    refine ⟨fun bs hlen hread => ?_, fun ⟨j, hj, hgap⟩ => ?_⟩
    · rw [syscallWrite_of_reads hlen hread]
      refine ⟨fun hfd => ?_, fun ⟨hne1, hne2⟩ => ?_⟩
      · rw [if_pos hfd]
        exact complete_output_spec _ s
      · rw [if_neg (not_or.2 ⟨hne1, hne2⟩)]
        exact (complete_spec s).imp fun _ ⟨hnext, hmoved⟩ => ⟨hnext, hmoved.output_nil⟩
    · rw [syscallWrite_of_unreadable hj hgap]
      exact stopWith_spec _ s
  · rw [exec_ori_other hexit hwrite]
    exact complete_spec s

end Sys2Proof.Proofs

namespace Sys2Proof

/-! ## Loads and stores (spec/45_load_store.md): the value of the bytes read, and each instruction as its procedure -/

/-! ### Little-endian values (R60): the unsigned word, the signed halfword -/

theorem toNat_append_byte {n : Nat} (v : BitVec n) (b : Byte) : (v ++ b).toNat = b.toNat + 256 * v.toNat := by
  rw [BitVec.toNat_append, ← Nat.shiftLeft_add_eq_or_of_lt b.isLt, Nat.shiftLeft_eq]
  omega

/-- Four bytes side by side are the word of R60, the first byte lowest. -/
theorem wordOfBytes_eq_append (b0 b1 b2 b3 : Byte) : wordOfBytes [b0, b1, b2, b3] = b3 ++ b2 ++ b1 ++ b0 := by
  apply BitVec.eq_of_toNat_eq
  rw [wordOfBytes_toNat rfl]
  simp only [leNat, toNat_append_byte]
  omega

/-- The sign of a halfword is that of its high byte. -/
theorem halfword_toInt (b0 b1 : Byte) : (BitVec.ofNat 16 (leNat [b0, b1])).toInt = b0.toNat + 256 * b1.toInt := by
  have hb0 := b0.isLt
  have hb1 := b1.isLt
  simp only [leNat, BitVec.toInt_eq_toNat_cond, BitVec.toNat_ofNat]
  omega

end Sys2Proof

namespace Sys2Proof.Machine

/-! ### The value that a load writes (R212) -/

/-- The zero extension of the loaded bytes is their value as a word. -/
theorem loadedValue_unsigned (bs : List Byte) : loadedValue bs.length false bs = wordOfBytes bs := by
  have hlt : leNat bs < 2 ^ (8 * bs.length) := by
    rw [Nat.pow_mul]
    exact leNat_lt bs
  apply BitVec.eq_of_toNat_eq
  simp [loadedValue, wordOfBytes, Nat.mod_eq_of_lt hlt]

theorem loadedValue_signed_byte (b0 : Byte) : loadedValue 1 true [b0] = BitVec.ofInt 32 b0.toInt := by
  have hbyte : BitVec.ofNat 8 (leNat [b0]) = b0 := by simp [leNat]
  exact congrArg (fun v : Byte => BitVec.ofInt 32 v.toInt) hbyte

theorem loadedValue_signed_halfword (b0 b1 : Byte) :
    loadedValue 2 true [b0, b1] = BitVec.ofInt 32 (b0.toNat + 256 * b1.toInt) :=
  congrArg (BitVec.ofInt 32) (halfword_toInt b0 b1)

/-! ### The no-cache request takes no part in a load or a store (R66, R211) -/

theorem State.memRead_io (s : State) (addr : Word) (n : Nat) :
    s.memRead addr n ioAccess = s.memRead addr n dataAccess := State.readFrom_noCache s .data _ _ _ n

theorem State.memWrite_io (s : State) (addr : Word) (bs : List Byte) :
    s.memWrite addr bs ioAccess = s.memWrite addr bs dataAccess := State.writeFrom_noCache s .data _ _ _ bs

section
variable (b a : RegIdx) (imm16 : BitVec 16) (s : State)

theorem load_io (n : Nat) (signed : Bool) :
    load n signed ioAccess b a imm16 s = load n signed dataAccess b a imm16 s := by
  simp only [load, State.memRead_io]

theorem store_io (n : Nat) : store n ioAccess b a imm16 s = store n dataAccess b a imm16 s := by
  simp only [store, State.memWrite_io]

end

/-! ### An instruction whose rule is the procedure `Load` or `Store` (R212, R213) -/

theorem addressIs (a : RegIdx) (imm16 : BitVec 16) (s : State) : AddressIs a imm16 s :=
  ⟨s.ea_eq_ofInt a imm16, lookupAddr_eq_mod _⟩

section
variable {i : Instr} {n : Nat} {signed : Bool} {b a : RegIdx} {imm16 : BitVec 16} {s : State}

theorem completesWith_of_load {bs : List Byte} {v : Word} (halign : (s.ea a imm16).toNat % bs.length = 0)
    (hread : s.reads dataAccess (lookupAddr (s.ea a imm16)) bs) (hv : loadedValue bs.length signed bs = v)
    (h : exec i s = load bs.length signed dataAccess b a imm16 s) : CompletesWith i b v s := by
  obtain ⟨_, _, hloads⟩ := load_spec bs.length signed dataAccess b a imm16 s
  rw [CompletesWith, h, ← hv]
  exact hloads bs rfl halign hread

theorem stopsWith_of_load (h : exec i s = load n signed dataAccess b a imm16 s) :
    ((s.ea a imm16).toNat % n ≠ 0 → StopsWith i .misalignedDataAddress s) ∧
      ((s.ea a imm16).toNat % n = 0 → (∃ j < n, s.readableByte dataAccess (lookupAddr (s.ea a imm16) + j) = none) →
        StopsWith i .dataAccessFault s) := by
  obtain ⟨hmisaligned, hfaults, _⟩ := load_spec n signed dataAccess b a imm16 s
  rw [StopsWith, StopsWith, h]
  exact ⟨hmisaligned, hfaults⟩

theorem storesBytes_of_store (halign : (s.ea a imm16).toNat % n = 0)
    (hwrite : s.writes dataAccess (lookupAddr (s.ea a imm16)) n)
    (h : exec i s = store n dataAccess b a imm16 s) : StoresBytes i n b a imm16 s := by
  obtain ⟨_, _, hcompletes⟩ := store_spec n dataAccess b a imm16 s
  rw [StoresBytes, h]
  exact hcompletes halign hwrite

end

end Sys2Proof.Machine

namespace Sys2Proof.Proofs

/-! ## The loads and the completing stores of spec/45_load_store.md, settled -/

open Sys2Proof.Machine

/-- Settles O43: the twins differ in the no-cache request alone. -/
theorem ioVariantsEqualTheirTwins : Obligations.IoVariantsEqualTheirTwins := fun b a imm16 s =>
  ⟨load_io b a imm16 s 1 true, load_io b a imm16 s 1 false, load_io b a imm16 s 2 true, load_io b a imm16 s 2 false,
    load_io b a imm16 s 4 false, store_io b a imm16 s 1, store_io b a imm16 s 2, store_io b a imm16 s 4⟩

/-- Settles O38: one byte is never misaligned, and the only byte decides between the value and the fault. -/
theorem loadBytes : Obligations.LoadBytes := by
  intro b a imm16 s b0
  obtain ⟨hldbio, hldbuio, _⟩ := ioVariantsEqualTheirTwins b a imm16 s
  have halign : (s.ea a imm16).toNat % 1 = 0 := Nat.mod_one _
  refine ⟨addressIs a imm16 s, fun hread => ?_, fun hgap => ?_, runBase_of_encode rfl, runBase_of_encode rfl,
    runBase_of_encode rfl, runBase_of_encode rfl⟩
  · have signed {i : Instr} := completesWith_of_load (i := i) (b := b) halign hread (loadedValue_signed_byte b0)
    have unsigned {i : Instr} := completesWith_of_load (i := i) (b := b) halign hread (loadedValue_unsigned [b0])
    exact ⟨signed rfl, unsigned rfl, signed hldbio, unsigned hldbuio⟩
  · have faults {i : Instr} {ext : Bool} (h : exec i s = load 1 ext dataAccess b a imm16 s) :
        StopsWith i .dataAccessFault s := (stopsWith_of_load h).2 halign ⟨0, Nat.one_pos, hgap⟩
    exact ⟨faults (ext := true) rfl, faults (ext := false) rfl, faults hldbio, faults hldbuio⟩

/-- Settles O39: each of the four is `Load` of two bytes, with its extension. -/
theorem loadHalfwords : Obligations.LoadHalfwords := by
  intro b a imm16 s b0 b1
  obtain ⟨_, _, hldhio, hldhuio, _⟩ := ioVariantsEqualTheirTwins b a imm16 s
  refine ⟨addressIs a imm16 s, fun halign hread => ?_, fun i hi => ?_, runBase_of_encode rfl, runBase_of_encode rfl,
    runBase_of_encode rfl, runBase_of_encode rfl⟩
  · have signed {i : Instr} := completesWith_of_load (i := i) (b := b) halign hread (loadedValue_signed_halfword b0 b1)
    have unsigned {i : Instr} := completesWith_of_load (i := i) (b := b) halign hread (loadedValue_unsigned [b0, b1])
    exact ⟨signed rfl, unsigned rfl, signed hldhio, unsigned hldhuio⟩
  · simp only [List.mem_cons, List.not_mem_nil, or_false] at hi
    rcases hi with rfl | rfl | rfl | rfl
    · exact stopsWith_of_load (signed := true) rfl
    · exact stopsWith_of_load (signed := false) rfl
    · exact stopsWith_of_load hldhio
    · exact stopsWith_of_load hldhuio

/-- Settles O40: both are `Load` of four bytes, which make the word. -/
theorem loadWords : Obligations.LoadWords := by
  intro b a imm16 s b0 b1 b2 b3
  obtain ⟨_, _, _, _, hldwio, _⟩ := ioVariantsEqualTheirTwins b a imm16 s
  refine ⟨addressIs a imm16 s, fun halign hread => ?_, fun i hi => ?_, runBase_of_encode rfl, runBase_of_encode rfl⟩
  · have hword := (loadedValue_unsigned [b0, b1, b2, b3]).trans (wordOfBytes_eq_append b0 b1 b2 b3)
    have loads {i : Instr} := completesWith_of_load (i := i) (b := b) halign hread hword
    exact ⟨loads rfl, loads hldwio⟩
  · simp only [List.mem_cons, List.not_mem_nil, or_false] at hi
    rcases hi with rfl | rfl
    · exact stopsWith_of_load (signed := false) rfl
    · exact stopsWith_of_load hldwio

/-- Settles O41: each of the six is `Store` with its width; one byte is never misaligned. -/
theorem storesComplete : Obligations.StoresComplete := by
  intro b a imm16 s
  obtain ⟨_, _, _, _, _, hstbio, hsthio, hstwio⟩ := ioVariantsEqualTheirTwins b a imm16 s
  refine ⟨addressIs a imm16 s, fun hwrite => ?_, fun halign hwrite => ?_, fun halign hwrite => ?_,
    runBase_of_encode rfl, runBase_of_encode rfl, runBase_of_encode rfl, runBase_of_encode rfl, runBase_of_encode rfl,
    runBase_of_encode rfl⟩
  · have halign : (s.ea a imm16).toNat % 1 = 0 := Nat.mod_one _
    exact ⟨storesBytes_of_store halign hwrite rfl, storesBytes_of_store halign hwrite hstbio⟩
  · exact ⟨storesBytes_of_store halign hwrite rfl, storesBytes_of_store halign hwrite hsthio⟩
  · exact ⟨storesBytes_of_store halign hwrite rfl, storesBytes_of_store halign hwrite hstwio⟩

end Sys2Proof.Proofs

namespace Sys2Proof.Machine

/-! ## Control transfer (spec/46_control_transfer.md): the targets over the integers, an instruction whose rule is a
transfer, and a word of a row with fixed fields -/

/-! ### The targets of the branches and of `call` and `jmpi` (R231 to R239) -/

theorem State.branchTarget_eq_branchGoal (s : State) (imm16 : BitVec 16) :
    s.branchTarget imm16 = branchGoal s imm16 := by
  rw [branchGoal, BitVec.ofInt_add, BitVec.ofInt_add, BitVec.ofInt_natCast, BitVec.ofNat_toNat, BitVec.setWidth_eq]
  rfl

/-- The mask of R238 keeps the top four bits. -/
theorem and_topNibble_toNat (v : Word) : (v &&& 0xF0000000#32).toNat = v.toNat / 2 ^ 28 * 2 ^ 28 := by
  have hmask : 0xF0000000#32 = BitVec.allOnes 32 <<< 28 := by decide
  have hv := v.isLt
  rw [hmask, ← BitVec.shiftLeft_ushiftRight, BitVec.toNat_shiftLeft, BitVec.toNat_ushiftRight,
    Nat.shiftRight_eq_div_pow, Nat.shiftLeft_eq]
  omega

/-- The address field with its two zero bits stays below the top four bits. -/
theorem imm26_shifted_toNat (imm26 : BitVec 26) : (imm26.setWidth 32 <<< 2).toNat = 4 * imm26.toNat := by
  have himm := imm26.isLt
  rw [BitVec.toNat_shiftLeft, BitVec.toNat_setWidth, Nat.shiftLeft_eq]
  omega

theorem State.callTarget_toNat (s : State) (imm26 : BitVec 26) :
    (s.callTarget imm26).toNat = s.pc.toNat / 2 ^ 28 * 2 ^ 28 + 4 * imm26.toNat := by
  have hlow : 4 * imm26.toNat < 2 ^ 28 := by have himm := imm26.isLt; omega
  calc (s.callTarget imm26).toNat
      = (s.pc &&& 0xF0000000#32).toNat ||| (imm26.setWidth 32 <<< 2).toNat := BitVec.toNat_or _ _
    _ = 2 ^ 28 * (s.pc.toNat / 2 ^ 28) ||| 4 * imm26.toNat := by
        rw [and_topNibble_toNat, imm26_shifted_toNat, Nat.mul_comm]
    _ = s.pc.toNat / 2 ^ 28 * 2 ^ 28 + 4 * imm26.toNat := by
        rw [← Nat.two_pow_add_eq_or_of_lt hlow, Nat.mul_comm]

/-! ### An instruction whose rule is a transfer (R230) -/

section
variable {i : Instr} {p q : Word} {s : State}

/-- An instruction whose rule is a jump goes to any spelling of its target. -/
theorem goesTo_of_jumpTo (h : exec i s = jumpTo q s) (hq : q = p := by rfl) : GoesTo i p s := by
  rw [GoesTo, StopsWith, h, ← hq]
  exact jumpTo_spec q s

/-- A branch under a condition: a jump to the target of R231, or the completion. -/
theorem branchesWhen_of_branchIf {c : Bool} {taken : Prop} {imm16 : BitVec 16}
    (h : exec i s = branchIf c imm16 s) (hc : c = true ↔ taken) : BranchesWhen i taken imm16 s := by
  obtain ⟨hcompletes, hgoes, hstops⟩ := branchIf_spec c imm16 s
  rw [BranchesWhen, GoesTo, StopsWith, h, ← hc, ← State.branchTarget_eq_branchGoal]
  exact ⟨fun htaken => ⟨hgoes htaken, hstops htaken⟩, fun hnot => hcompletes (Bool.eq_false_iff.2 hnot)⟩

theorem exec_callr_of_aligned {a : RegIdx} (h : (s.x a).toNat % 4 = 0) :
    exec (.callr a) s = .next ((s.setX 31 (s.pc + 4)).setPc (s.x a)) :=
  if_pos ((wordAligned_iff _).2 h)

theorem exec_callr_of_misaligned {a : RegIdx} (h : (s.x a).toNat % 4 ≠ 0) :
    exec (.callr a) s = stopWith .misalignedDestinationAddress s :=
  if_neg (mt (wordAligned_iff _).1 h)

end

/-! ### A word of a row with fixed fields (R91, R137) -/

section
variable {i : Instr} {w : Word} {opx : Nat} {a b c : RegIdx} {imm5 : BitVec 5} {imm16 : BitVec 16} {s : State}
  {legal : Prop}

/-- The format check reads the fixed fields, the instruction the others. -/
theorem runsAs_of_operands (hc : classify w = some i.opcode) (hfeature : featurePresent s.cfg i.opcode = true)
    (hformat : formatOk i.opcode w = true ↔ legal) (hoperands : operands i.opcode w = i) : RunsAs w legal i s := by
  refine ⟨fun hlegal => ?_, fun hillegal => ?_⟩
  · rw [runBase_of_legal hc (hformat.2 hlegal), hoperands]
  · rw [runBase_of_illegal hc (Bool.eq_false_iff.2 (mt hformat.1 hillegal)), (gated_spec _ _ _).1 hfeature]
    exact stopWith_spec _ s

/-- The only I-type row with fixed fields. -/
theorem runsAs_br : RunsAs (encodeI 0x06 a b imm16) (a = 0 ∧ b = 0) (.br imm16) s :=
  runsAs_of_operands (classify_encodeI 0x06 a b imm16 (by decide) (by decide)) rfl (by simp [formatOk, Instr.opcode])
    (by simp [operands, Instr.opcode])

/-- The R-type rows: `OPX` names the row, whatever the other fields. -/
theorem runsAs_encodeR (hopx : opx < 64 := by decide) (hrow : classifyOpx opx = some i.opcode := by rfl)
    (hfeature : featurePresent s.cfg i.opcode = true := by rfl)
    (hformat : formatOk i.opcode (encodeR opx a b c imm5) = true ↔ legal := by
      simp [formatOk, Instr.opcode, and_assoc])
    (hoperands : operands i.opcode (encodeR opx a b c imm5) = i := by simp [operands, Instr.opcode]) :
    RunsAs (encodeR opx a b c imm5) legal i s :=
  runsAs_of_operands ((classify_encodeR opx a b c imm5 hopx).trans hrow) hfeature hformat hoperands

end

end Sys2Proof.Machine

namespace Sys2Proof.Proofs

/-! ## The statements of spec/46_control_transfer.md, settled -/

open Sys2Proof.Machine

/-- Settles O44: each rule is a branch under the machine's form of its condition. -/
theorem conditionalBranches : Obligations.ConditionalBranches := fun a b imm16 s =>
  ⟨branchesWhen_of_branchIf rfl (decide_eq_iff_toNat _ _), branchesWhen_of_branchIf rfl (decide_ne_iff_toNat _ _),
    branchesWhen_of_branchIf rfl ((geS_iff _ _).trans Int.not_lt),
    branchesWhen_of_branchIf rfl ((geU_iff _ _).trans Nat.not_lt),
    branchesWhen_of_branchIf rfl (ltS_iff _ _), branchesWhen_of_branchIf rfl (ltU_iff _ _),
    runBase_of_encode rfl, runBase_of_encode rfl, runBase_of_encode rfl, runBase_of_encode rfl, runBase_of_encode rfl,
    runBase_of_encode rfl⟩

/-- Settles O45: each rule is one jump, and the format check of each row is on its fixed fields. -/
theorem unlinkedTransfers : Obligations.UnlinkedTransfers := fun a b c imm5 imm16 s =>
  ⟨goesTo_of_jumpTo rfl (s.branchTarget_eq_branchGoal imm16), runsAs_br, goesTo_of_jumpTo rfl, runsAs_encodeR,
    goesTo_of_jumpTo rfl, runsAs_encodeR⟩

/-- Settles O46: the target of `call` and `jmpi` needs no test; that of `callr` is tested before the link is written. -/
theorem callsAndJumps : Obligations.CallsAndJumps := by
  intro a b c imm5 imm26 s target htarget
  obtain rfl : s.callTarget imm26 = target :=
    BitVec.eq_of_toNat_eq ((s.callTarget_toNat imm26).trans htarget.symm)
  refine ⟨⟨_, rfl, setX_setPc_spec 31 _ _ s⟩, runBase_of_encode rfl, ⟨_, rfl, setPc_spec _ s⟩, runBase_of_encode rfl,
    fun haligned => ?_, fun hmisaligned => ?_, runsAs_encodeR⟩
  · exact ⟨_, exec_callr_of_aligned haligned, setX_setPc_spec 31 _ _ s⟩
  · rw [StopsWith, exec_callr_of_misaligned hmisaligned]
    exact stopWith_spec _ s

/-- Settles O47: the rule writes the next address, which the statement spells over the integers. -/
theorem nextPc : Obligations.NextPc := fun a b c imm5 s =>
  ⟨completesWith_of_writeBack rfl (add_eq_ofNat_mod s.pc 4), runsAs_encodeR⟩

end Sys2Proof.Proofs

namespace Sys2Proof.Machine

/-! ## System instructions (spec/47_system.md): an instruction whose rule is a stop, a return, or an access to one of
the 16 control registers -/

section
variable {i : Instr} {s : State}

theorem stopsWith_of_stopWith {r : StopReason} (h : exec i s = stopWith r s) : StopsWith i r s := by
  rw [StopsWith, h]
  exact stopWith_spec r s

/-! ### The privilege check (R283, R284): the mode is bit 1 of `status` -/

theorem exec_of_supervisor {r : Result} (h : exec i s = supervisorOnly s r) (hu : (s.ctlReg 0).getLsbD 1 = false) :
    exec i s = r :=
  h.trans ((supervisorOnly_spec s r).1 hu)

theorem stopsWith_of_user {r : Result} (h : exec i s = supervisorOnly s r) (hu : (s.ctlReg 0).getLsbD 1 = true) :
    StopsWith i .supervisorOnlyInstruction s := by
  rw [StopsWith, h]
  exact (supervisorOnly_spec s r).2 hu

/-- The three outcomes of a return (R254, R255): the alignment is tested before the mode. -/
theorem returns_of_returnTo {p : Word} {k : Fin 16} (h : exec i s = returnTo p k s) :
    (p.toNat % 4 = 0 → (s.ctlReg 0).getLsbD 1 = false →
        ∃ t, exec i s = .next t ∧ WroteCtl 0 (s.ctlReg k) p s t) ∧
      (p.toNat % 4 = 0 → (s.ctlReg 0).getLsbD 1 = true → StopsWith i .supervisorOnlyInstruction s) ∧
      (p.toNat % 4 ≠ 0 → StopsWith i .misalignedDestinationAddress s) := by
  obtain ⟨hmisaligned, huser, hreturns⟩ := returnTo_spec p k s
  rw [StopsWith, StopsWith, h]
  exact ⟨hreturns, huser, hmisaligned⟩

end

/-! ### The control register that a field names (R86) -/

theorem ctlIndexOk_iff (n : BitVec 5) : ctlIndexOk n = true ↔ n.toNat < 16 := decide_eq_true_iff

/-- The field holds the index of each of the 16 registers. -/
theorem toNat_ctlField (n : Fin 16) : (BitVec.ofNat 5 n).toNat = n := by
  have hn := n.isLt
  rw [BitVec.toNat_ofNat]
  omega

theorem ctlField_eq_iff (n m : Fin 16) : BitVec.ofNat 5 n = BitVec.ofNat 5 m ↔ n = m := by
  rw [BitVec.toNat_eq, toNat_ctlField, toNat_ctlField, Fin.ext_iff]

section
variable (n : Fin 16) (s : State)

theorem exec_rdctl (c : RegIdx) :
    exec (.rdctl c (BitVec.ofNat 5 n)) s = supervisorOnly s (writeBack c (s.ctlReg n) s) := by
  show execRdctl c (BitVec.ofNat 5 n) s = _
  simp only [execRdctl, toNat_ctlField, n.isLt, dif_pos]

/-- R257: `ipending` and `cpuid` keep their value, and the instruction completes all the same. -/
theorem exec_wrctl (a : RegIdx) :
    exec (.wrctl (BitVec.ofNat 5 n) a) s =
      supervisorOnly s (complete (if n = 4 ∨ n = 5 then s else s.setCtl n (s.x a))) := by
  show execWrctl (BitVec.ofNat 5 n) a s = _
  have h4 : BitVec.ofNat 5 n = 4 ↔ n = 4 := ctlField_eq_iff n 4
  have h5 : BitVec.ofNat 5 n = 5 ↔ n = 5 := ctlField_eq_iff n 5
  simp only [execWrctl, toNat_ctlField, n.isLt, dif_pos, Bool.or_eq_true, decide_eq_true_eq, h4, h5]

variable {n s} {a : RegIdx} (hu : (s.ctlReg 0).getLsbD 1 = false)
include hu

theorem exec_wrctl_written (h4 : n ≠ 4) (h5 : n ≠ 5) :
    ∃ t, exec (.wrctl (BitVec.ofNat 5 n) a) s = .next t ∧ WroteCtl n (s.x a) (s.pc + 4) s t := by
  rw [exec_of_supervisor (exec_wrctl n s a) hu, if_neg (not_or.2 ⟨h4, h5⟩)]
  exact ⟨_, rfl, setCtl_setPc_spec n (s.x a) (s.pc + 4) s⟩

theorem exec_wrctl_ignored (h : n = 4 ∨ n = 5) :
    ∃ t, exec (.wrctl (BitVec.ofNat 5 n) a) s = .next t ∧ Moved (s.pc + 4) s t := by
  rw [exec_of_supervisor (exec_wrctl n s a) hu, if_pos h]
  exact complete_spec s

end

/-! ### A word of the rows `rdctl` and `wrctl`: the format check covers the index (R91, R256, R257) -/

section
variable {a b c : RegIdx} {imm5 : BitVec 5} {s : State}

theorem runsAs_rdctl : RunsAs (encodeR 0x26 a b c imm5) (a = 0 ∧ b = 0 ∧ imm5.toNat < 16) (.rdctl c imm5) s :=
  runsAs_encodeR (hformat := by simp [formatOk, Instr.opcode, ctlIndexOk_iff, and_assoc])

theorem runsAs_wrctl : RunsAs (encodeR 0x2E a b c imm5) (b = 0 ∧ c = 0 ∧ imm5.toNat < 16) (.wrctl imm5 a) s :=
  runsAs_encodeR (hformat := by simp [formatOk, Instr.opcode, ctlIndexOk_iff, and_assoc])

end

end Sys2Proof.Machine

namespace Sys2Proof.Proofs

/-! ## The statements of spec/47_system.md, settled -/

open Sys2Proof.Machine

/-- Settles O48: both rules are the stop, and the row's format check leaves `IMM5` free. -/
theorem breakAndTrap : Obligations.BreakAndTrap := fun a b c imm5 s =>
  ⟨stopsWith_of_stopWith rfl, runsAs_encodeR, stopsWith_of_stopWith rfl, runsAs_encodeR⟩

/-- Settles O49: `eret` returns to `r29` from `estatus`, `bret` to `r30` from `bstatus`. -/
theorem returns : Obligations.Returns := by
  intro a b c imm5 s
  obtain ⟨heret, heretUser, heretMisaligned⟩ := returns_of_returnTo (i := .eret) (s := s) (p := s.x 29) (k := 1) rfl
  obtain ⟨hbret, hbretUser, hbretMisaligned⟩ := returns_of_returnTo (i := .bret) (s := s) (p := s.x 30) (k := 2) rfl
  exact ⟨heret, heretUser, heretMisaligned, runsAs_encodeR, hbret, hbretUser, hbretMisaligned, runsAs_encodeR⟩

/-- Settles O50: each rule is its effect under the privilege check, at every index that the field can name. -/
theorem controlRegisterAccess : Obligations.ControlRegisterAccess := by
  intro a b c imm5 s
  refine ⟨fun n => ⟨fun hu => ?_, exec_wrctl_written, exec_wrctl_ignored, fun hu => ?_⟩, runsAs_rdctl, runsAs_wrctl⟩
  · exact completesWith_of_writeBack (exec_of_supervisor (exec_rdctl n s c) hu)
  · exact ⟨stopsWith_of_user (exec_rdctl n s c) hu, stopsWith_of_user (exec_wrctl n s a) hu⟩

end Sys2Proof.Proofs

namespace Sys2Proof.Machine

/-! ## Stops and user mode (spec/60_exceptions.md): what a step that stops has done, said once, and the privilege
invariant -/

section
variable {i : Instr} {s u : State}

/-- An instruction that stops a running machine took the stop and nothing else, or it is a store that faulted, which
besides changed only listed bytes (R273, R274; which bytes is the matter of O42). -/
theorem Effect.stop_cases (e : Effect i s u) (hrun : s.es = .running) (hes : u.es = .stopped) :
    (∃ r, u = s.raiseStop r) ∨
      (isStore i = true ∧ ∃ m : Memory, u = State.raiseStop { s with mem := m } .dataAccessFault) := by
  have hstops : ¬ SameRun s u := by
    rintro ⟨hsame, _⟩
    rw [hsame, hrun] at hes; cases hes
  cases e with
  | stop r _ _ => exact .inl ⟨r, rfl⟩
  | storeFault hi acc _ lo bs q w => exact .inr ⟨hi, q.1.mem, by rw [← w.eq_withMem]⟩
  | write d v p _ => exact absurd (setX_setPc_spec d v p s).run hstops
  | writeCtl n v p _ _ _ => exact absurd (setCtl_setPc_spec n v p s).run hstops
  | output bs _ _ => exact absurd ⟨rfl, rfl, rfl⟩ hstops
  | store _ acc _ lo bs q w => exact absurd w.sameRun hstops
  | exit _ => cases hes

/-- In user mode no instruction writes a control register: the one effect that does is a supervisor's (R283, R284). -/
theorem Effect.sameCtl_of_userMode (e : Effect i s u) (hu : s.userMode = true) : SameCtl s u := by
  cases e with
  | writeCtl n v p _ hsup _ => rw [hu] at hsup; cases hsup
  | stop r _ _ => exact fun _ => rfl
  | write d v p _ => exact (setX_setPc_spec d v p s).ctl
  | output bs _ _ => exact fun _ => rfl
  | exit _ => exact fun _ => rfl
  | store _ acc _ lo bs q w => exact w.ctlReg
  | storeFault _ acc _ lo bs q w => exact w.ctlReg

end

/-- An iteration that stopped for another reason than `StepComplete` stopped before its end. -/
theorem finishStep_of_sr {s : State} {r : StopReason} (hsr : (finishStep s).sr = some r) (hr : r ≠ .stepComplete) :
    finishStep s = s := by
  rcases finishStep_cases s with ⟨h, _⟩ | ⟨h, _⟩
  · exact h
  · rw [h] at hsr
    exact absurd (Option.some.inj hsr).symm hr

section
variable {s t : State} {r : StopReason}

/-- What a step did that stopped for another reason than `StepComplete`: it took the interrupt request, or the stop alone,
or it ran a store that faulted. -/
theorem step_stop_cases (h : step s = .next t) (hes : t.es = .stopped) (hsr : t.sr = some r) (hr : r ≠ .stepComplete) :
    (s.hirq = true ∧ t = interruptedState s) ∨
      (s.es ≠ .exited ∧ t = (enter s).raiseStop r) ∨
      (r = .dataAccessFault ∧ s.fetchesStore ∧
        ∃ m : Memory, t = State.raiseStop { enter s with mem := m } .dataAccessFault) := by
  rcases step_cases h with ⟨hx, rfl⟩ | ⟨_, hq, rfl⟩ | ⟨he, _, r', _, _, rfl⟩ |
      ⟨he, _, w, i, u, hw, hi, _, _, heff, rfl⟩
  · rw [hx] at hes; cases hes
  · exact .inl ⟨hq, rfl⟩
  · cases hsr; exact .inr (.inl ⟨he, rfl⟩)
  · have hfin : finishStep u = u := finishStep_of_sr hsr hr
    rw [hfin] at hes hsr ⊢
    rcases heff.stop_cases (enter_running s he) hes with ⟨r', rfl⟩ | ⟨hstore, m, rfl⟩
    · cases hsr; exact .inr (.inl ⟨he, rfl⟩)
    · cases hsr; exact .inr (.inr ⟨rfl, ⟨w, i, hw, hi, hstore⟩, m, rfl⟩)

/-- Entering forgets the stop that was taken on an entered machine: only `es` and `sr` tell the two apart (R131, R273). -/
theorem enter_raiseStop_enter (h : s.es = .stopped) (r : StopReason) : enter ((enter s).raiseStop r) = enter s := by
  rw [enter_of_stopped (State.raiseStop_es _ r), enter_of_stopped h]
  rfl

/-- A step depends on a machine that has not exited only through what entering leaves of it. -/
theorem step_congr_enter (hs : s.es ≠ .exited) (ht : t.es ≠ .exited) (h : enter t = enter s) : step t = step s := by
  rw [iteration_eq ht, iteration_eq hs, h]

end

end Sys2Proof.Machine

namespace Sys2Proof.Proofs

/-! ## The statements of spec/60_exceptions.md, settled -/

open Sys2Proof.Machine

/-- Settles O15, by `step_stop_cases`: the request and the plain stop change `es`, `sr` and `hirq` alone; a store that
faults changes bytes besides, and is the exception the statement makes. -/
theorem stopsArePrecise : Obligations.StopsArePrecise := by
  intro s t r h hes hsr hr
  rcases step_stop_cases h hes hsr hr with ⟨_, rfl⟩ | ⟨_, rfl⟩ | ⟨hfault, hstore, m, rfl⟩
  · exact ⟨interruptedState_pc s, x_interruptedState s, ctlReg_interruptedState s, interruptedState_out s,
      interruptedState_ec s, interruptedState_sections s, interruptedState_cfg s, interruptedState_dpxRegs s,
      fun _ => peek_interruptedState s⟩
  · have hstop := enter_raiseStop_spec r s
    obtain ⟨hsections, _, hcfg, hdpx, _, _⟩ := hstop.block
    exact ⟨hstop.pc, hstop.regs, hstop.ctl, hstop.out, hstop.ec, hsections, hcfg, hdpx, fun _ => hstop.mem⟩
  · exact ⟨enter_pc s, x_enter s, ctlReg_enter s, enter_out s, enter_ec s, enter_sections s, enter_cfg s,
      enter_dpxRegs s, fun hno => absurd ⟨hfault, hstore⟩ hno⟩

/-- Settles O20: in user mode the only writer of the control registers is shut out (`Effect.sameCtl_of_userMode`), and
the rest of a step writes none. -/
theorem userModeIsNeverLeft : Obligations.UserModeIsNeverLeft := by
  intro s t hu h
  have hsame : SameCtl s t := by
    rcases step_cases h with ⟨_, rfl⟩ | ⟨_, _, rfl⟩ | ⟨_, _, r, _, _, rfl⟩ | ⟨_, _, w, i, u, _, _, _, _, heff, rfl⟩
    · exact fun _ => rfl
    · exact ctlReg_interruptedState s
    · exact (enter_raiseStop_spec r s).ctl
    · have huser : (enter s).userMode = true := by simpa [State.userMode, State.status] using hu
      exact fun n => by simpa using heff.sameCtl_of_userMode huser n
  exact ⟨by rw [hsame 0]; exact hu, hsame⟩

/-- Settles O16: with no request and no fault of an access the step took the stop alone, and entering undoes it, so the
next step starts from the same state. -/
theorem resumingStopsAgain : Obligations.ResumingStopsAgain := by
  intro s t r hs hq h hes hsr hr hfault
  rcases step_stop_cases h hes hsr hr with ⟨hq', _⟩ | ⟨he, rfl⟩ | ⟨hfault', _⟩
  · rw [hq] at hq'; cases hq'
  · rw [step_congr_enter he (by simp) (enter_raiseStop_enter hs r), h]
  · exact absurd hfault' hfault

end Sys2Proof.Proofs
